-- ==== Sys2Proof/Word.lean ====
section
/-! DEFINITION. Word.lean: the bit-vector widths the spec names (10_state.md sections 1 to 4).
Bits are numbered from 0 at the least significant and every value is unsigned (00_scope.md R10). -/

namespace Sys2Proof

/-- 8 bits: a memory byte, an operation code, a sequencer state. -/
abbrev Byte := BitVec 8

/-- 16 bits: a ring index (head, tail, cursor). -/
abbrev Half := BitVec 16

/-- 17 bits: the counters of 10_state.md R26, R27, R29 and the result of PENDCNT (R143). -/
abbrev Count := BitVec 17

/-- 32 bits: a register word (30_encoding.md R97). -/
abbrev Word := BitVec 32

/-- 64 bits: a device-visible address (10_state.md R48). -/
abbrev DWord := BitVec 64

end Sys2Proof
end

