-- ==== Sys2Proof/Config.lean ====
section
/-! DEFINITION. Config.lean: the implementation parameters of 00_scope.md R7, the eleven registers and
their offsets (10_state.md R40), and the model's uninterpreted constants (log 5, log 14).

A `Config` is plain data. It sits in State as a field that no step changes, so that a statement about
every state is a statement about every value of the parameters (log 4). -/

namespace Sys2Proof

/-- The eleven controller registers of 10_state.md R40, by the spec's short names. -/
inductive Reg where
  | ctrl | status | rctl | rdbal | rdbah | rdlen | rdh | rdt | icr | ims | imc
  deriving DecidableEq, Repr

/-- The parameters of 00_scope.md R7. `DESC_SIZE` is fixed at 16 there and is `descSize` below. -/
structure Config where
  ringSize       : Nat
  bufSize        : Nat
  doneMask       : Byte
  iterCap        : Nat
  offCtrl        : Nat
  offStatus      : Nat
  offRctl        : Nat
  offRdbal       : Nat
  offRdbah       : Nat
  offRdlen       : Nat
  offRdh         : Nat
  offRdt         : Nat
  offIcr         : Nat
  offIms         : Nat
  offImc         : Nat
  irqEnableMask  : Word
  irqDisableMask : Word
  regWindowSize  : Nat
  deriving DecidableEq, Repr

/-- `DESC_SIZE`, fixed at 16 (00_scope.md R7). -/
abbrev descSize : Nat := 16

/-- The byte offset of a register (10_state.md R40, parameters `OFF_*` of 00_scope.md R7). -/
def Config.offset (c : Config) : Reg → Nat
  | .ctrl   => c.offCtrl
  | .status => c.offStatus
  | .rctl   => c.offRctl
  | .rdbal  => c.offRdbal
  | .rdbah  => c.offRdbah
  | .rdlen  => c.offRdlen
  | .rdh    => c.offRdh
  | .rdt    => c.offRdt
  | .icr    => c.offIcr
  | .ims    => c.offIms
  | .imc    => c.offImc

/-- `RING_BYTES = RING_SIZE * DESC_SIZE` (00_scope.md R8). -/
def Config.ringBytes (c : Config) : Nat := c.ringSize * descSize

/-- OPEN (00_scope.md R7, 92_eei_decisions.md D17): bits of `IRQ_ENABLE_MASK`. Uninterpreted (log 5). -/
opaque Config.openEnableBits : Word

/-- OPEN: one bit that `IRQ_ENABLE_MASK` has, since R7 says it is non-zero. Uninterpreted (log 5). -/
opaque Config.openEnableBit : Fin 32

/-- OPEN: bits of `IRQ_DISABLE_MASK` beyond those of `IRQ_ENABLE_MASK`. Uninterpreted (log 5). -/
opaque Config.openDisableBits : Word

/-- OPEN (92_eei_decisions.md D30): bytes of the register window above the least R7 allows.
Uninterpreted (log 5). -/
opaque Config.openWindowExtra : Nat

/-- The result of PENDCNT for operands out of range for which 41_ring_primitives.md R143 states none
(00_scope.md R10: every `mod` has a non-negative left operand). Uninterpreted: a free value (log 14). -/
opaque Config.freePendcnt : Half → Half → Count

/-- `IRQ_ENABLE_MASK` of the standard configuration: any non-zero word (00_scope.md R7). -/
def Config.openEnableMask : Word := Config.openEnableBits ||| BitVec.twoPow 32 Config.openEnableBit.val

/-- `IRQ_DISABLE_MASK` of the standard configuration: any word that includes every bit of
`IRQ_ENABLE_MASK` (00_scope.md R7). -/
def Config.openDisableMask : Word := Config.openDisableBits ||| Config.openEnableMask

/-- The source's values (00_scope.md R7, column "default"), with the OPEN parameters uninterpreted. -/
def Config.standard : Config where
  ringSize       := 16
  bufSize        := 2048
  doneMask       := 0x03#8
  iterCap        := 16
  offCtrl        := 0x00000
  offStatus      := 0x00008
  offRctl        := 0x00100
  offRdbal       := 0x02800
  offRdbah       := 0x02804
  offRdlen       := 0x02808
  offRdh         := 0x02810
  offRdt         := 0x02818
  offIcr         := 0x000C0
  offIms         := 0x000D0
  offImc         := 0x000D8
  irqEnableMask  := Config.openEnableMask
  irqDisableMask := Config.openDisableMask
  regWindowSize  := 0x0281C + Config.openWindowExtra

end Sys2Proof
end

