-- ==== Sys2Proof/Syntax.lean ====
section
/-! DEFINITION. Syntax.lean: the 47 micro-operations of 30_encoding.md R101, one constructor per row of
spec/opcode_table.json. An operation word has no operand bits (R102: "RXW has no immediates in an
instruction word"), so no constructor has an argument: operands are latches, registers, the accepted
command, or, for a REG or RING operation taken by itself, the call port of State (log 10). -/

namespace Sys2Proof

/-- The micro-operations, in the order of their codes. -/
inductive Instr where
  -- family REG (40_reg_accessors.md)
  | rdhR | rdtR | rdtW | icrR | imsW | imcW | rdbalW | rdbahW | rdlenW
  -- family RING (41_ring_primitives.md)
  | nextIdx | prevIdx | descAddr | pendcnt | inspect | advanceTail | isdone | markFree
  -- family PASS (42_service_pass.md)
  | passStart | passSnapH | passSnapT | passTest | passAdv | passRrH | passRrT
  | passInspU | passInspL | passInspA | passConsume | passClrR | passClrW
  -- family IRQ (43_irq_front_end.md)
  | irqAck | irqSched | irqRearm
  -- families PORT, INIT and QUIESCE (44_host_port_lifecycle.md)
  | portRdH | portRdT | portWrite
  | initLatch | initDescA | initDescL | initDescU | initBah | initBal | initLen | initTail | initArm
  | quiesceMask | quiesceWait
  deriving DecidableEq, Repr

end Sys2Proof
end

