-- ==== Sys2Proof/Machine/Types.lean ====
section
/-! DEFINITION. Machine/Types.lean: the parts State is made of: agents, the values of the sequencer
states and flags, the descriptor view, the DEVICE's registers, commands, the environment's moves, the
schedule's moves and the events of the history. -/

namespace Sys2Proof.Machine

/-- RXW's three agents (00_scope.md R3). -/
inductive Agent where
  | walker | ife | hostcmd
  deriving DecidableEq, Repr

/-- The latched DescriptorView (10_state.md R28). -/
structure View where
  status : Byte
  errors : Byte
  length : Half
  addr   : DWord
  deriving DecidableEq, Repr

/-- What the DEVICE stores when it completes reception into descriptor `index`: `FILL(i, len, sts, err)`
with the checksum and special values and the received bytes of 60_exceptions.md R238. -/
structure FillReq where
  index    : Half
  data     : List Byte
  length   : Half
  checksum : Half
  status   : Byte
  errors   : Byte
  special  : Half
  deriving DecidableEq, Repr

/-- Which of the transactions 2, 3, 4 of a FILL the DEVICE performs next (60_exceptions.md R238). -/
inductive FillPhase where
  | lengthWord | statusByte | headAdvance
  deriving DecidableEq, Repr

/-- A reception in progress: R238's FILL is "a sequence of DEVICE transactions ... each one a separate
atomic transaction that RXW steps may interleave with". -/
structure Fill where
  req   : FillReq
  phase : FillPhase
  deriving DecidableEq, Repr

/-- The DEVICE's registers that RXW reaches, as 32-bit words, with the two interrupt words of
10_state.md R43 (`cause` is read through ICR; `mask` is written through IMS and IMC), and the DEVICE's
reception in progress. CTRL, STATUS and RCTL have no state (10_state.md R47). -/
structure Device where
  rdh   : Word
  rdt   : Word
  cause : Word
  mask  : Word
  rdbal : Word
  rdbah : Word
  rdlen : Word
  fill  : Option Fill
  deriving DecidableEq, Repr

/-- The MODEL's own port that gives a REG or RING operation operands and a result of its own (log 10):
the agent inside whose step it is performed, its operands and its results. The steps of files 42 to 44
take operands from latches and leave results in latches: they neither read nor write this port. -/
structure CallPort where
  caller   : Agent
  argIdx   : Half
  argIdx2  : Half
  argByte  : Byte
  resIdx   : Half
  resByte  : Byte
  resWord  : Word
  resAddr  : DWord
  resCount : Count
  resBit   : Bool
  resView  : View
  deriving DecidableEq, Repr

/-- A command to HOSTCMD (30_encoding.md R107). `buf` lists the buffer addresses of indices
`0 .. RING_SIZE-1` in order. -/
inductive Command where
  | portRead  (present : Bool) (len : Nat)
  | portWrite (present : Bool) (len : Nat)
  | init      (base : DWord) (buf : List DWord)
  | quiesce
  deriving DecidableEq, Repr

/-- A move of the DEVICE (60_exceptions.md R238 to R241). -/
inductive DevMove where
  /-- Transaction 1 of a FILL: the received bytes go into the buffer. -/
  | fill (req : FillReq)
  /-- The next transaction (2, 3 or 4) of the FILL in progress. -/
  | fillNext
  /-- `RAISE(bits)`: sets cause bits. -/
  | raise (bits : Word)
  /-- Bits 31:16 of RDH and RDT come to read as these values (R240: they "read as anything"; log 13). -/
  | upper (rdh rdt : Half)
  deriving DecidableEq, Repr

/-- One entry of the schedule: who moves next (20_memory.md R69; log 6). -/
inductive Move where
  /-- The agent takes its next step, if it has an enabled one. -/
  | agent (a : Agent)
  /-- The model's own: a result of ring arithmetic (NEXT, PREV, DESC_ADDR, PENDCNT, ISDONE) is worked out
  on the call port. No agent moves and no transaction is issued (log 10). -/
  | compute (code : Byte)
  /-- The collaborator or the Lifecycle Controller presents a command to HOSTCMD. -/
  | command (c : Command)
  /-- The DEVICE makes a move. -/
  | device (m : DevMove)
  deriving DecidableEq, Repr

/-- The event history's entries (20_memory.md R72, 00_scope.md R12). A memory event's value is
zero-extended to 64 bits (log 16); the last three are the DEVICE's own transactions. -/
inductive Event where
  | regRd (a : Agent) (off : Nat) (v : Word)
  | regWr (a : Agent) (off : Nat) (v : Word)
  | memRd (a : Agent) (addr : DWord) (n : Nat) (v : DWord)
  | memWr (a : Agent) (addr : DWord) (n : Nat) (v : DWord)
  | consume (index : Half) (addr : DWord) (length : Half) (status errors : Byte)
  | log (code : BitVec 4) (head tail : Half)
  | portReply (ok : Bool) (count word : Word)
  | refused (reason : BitVec 2)
  | initDone
  | quiesced
  | devMem (addr : DWord) (bytes : List Byte)
  | devHead (v : Word)
  | devRaise (bits : Word)
  deriving DecidableEq, Repr

/-! The WALKER's sequencer states (10_state.md R30). -/

abbrev wIdle    : Byte := 0x00#8
abbrev wSnapH   : Byte := 0x21#8
abbrev wSnapT   : Byte := 0x22#8
abbrev wTest    : Byte := 0x23#8
abbrev wAdv     : Byte := 0x24#8
abbrev wRrH     : Byte := 0x25#8
abbrev wRrT     : Byte := 0x26#8
abbrev wInspU   : Byte := 0x27#8
abbrev wInspL   : Byte := 0x28#8
abbrev wInspA   : Byte := 0x29#8
abbrev wConsume : Byte := 0x2A#8
abbrev wClrR    : Byte := 0x2B#8
abbrev wClrW    : Byte := 0x2C#8

/-! The IFE's sequencer states (10_state.md R31). -/

abbrev iIdle  : Byte := 0x00#8
abbrev iSched : Byte := 0x31#8
abbrev iRearm : Byte := 0x32#8

/-! HOSTCMD's sequencer states (10_state.md R32). -/

abbrev hIdle  : Byte := 0x00#8
abbrev hPortT : Byte := 0x41#8
abbrev hDescA : Byte := 0x51#8
abbrev hDescL : Byte := 0x52#8
abbrev hDescU : Byte := 0x53#8
abbrev hBah   : Byte := 0x54#8
abbrev hBal   : Byte := 0x55#8
abbrev hLen   : Byte := 0x56#8
abbrev hTail  : Byte := 0x57#8
abbrev hArm   : Byte := 0x58#8
abbrev hQwait : Byte := 0x61#8

/-! The lifecycle states (10_state.md R34); 3 is not used. -/

abbrev lifeUnattached : BitVec 2 := 0#2
abbrev lifeReady      : BitVec 2 := 1#2
abbrev lifeQuiescing  : BitVec 2 := 2#2
abbrev lifeUnused     : BitVec 2 := 3#2

/-! The pass-abandon causes (60_exceptions.md R231). -/

abbrev eNone         : BitVec 4 := 0#4
abbrev eIndexRange   : BitVec 4 := 1#4
abbrev eTailReadback : BitVec 4 := 2#4
abbrev eIterCap      : BitVec 4 := 3#4

/-! The reasons of `Refused` (44_host_port_lifecycle.md R200). -/

abbrev notReady        : BitVec 2 := 0#2
abbrev alreadyAttached : BitVec 2 := 1#2
abbrev badBase         : BitVec 2 := 2#2

end Sys2Proof.Machine
end

