-- ==== Sys2Proof/WellFormed.lean ====
section
/-! DEFINITION. WellFormed.lean: which terms are ones the spec admits: parameters within the
constraints of 00_scope.md R7, commands of 30_encoding.md R107, DEVICE moves of 60_exceptions.md R238
and R241. Each check is a Bool or a decidable Prop. -/

namespace Sys2Proof

/-- An operation has no operand bits (30_encoding.md R102), so each of the 47 is well formed. -/
def Instr.wf (_ : Instr) : Bool := true

/-- `off` is a multiple of 4 whose word lies inside the register window (00_scope.md R7;
92_eei_decisions.md D30: the window is greater than the largest offset used plus 3). -/
abbrev Config.OffsetOk (c : Config) (off : Nat) : Prop := off % 4 = 0 ∧ off + 3 < c.regWindowSize

/-- The constraints 00_scope.md R7 puts on the parameters. -/
abbrev Config.Ok (c : Config) : Prop :=
  2 ≤ c.ringSize ∧ c.ringSize ≤ 65536 ∧
  c.doneMask ≠ 0#8 ∧
  c.ringSize - 1 ≤ c.iterCap ∧
  c.OffsetOk c.offCtrl ∧ c.OffsetOk c.offStatus ∧ c.OffsetOk c.offRctl ∧
  c.OffsetOk c.offRdbal ∧ c.OffsetOk c.offRdbah ∧ c.OffsetOk c.offRdlen ∧
  c.OffsetOk c.offRdh ∧ c.OffsetOk c.offRdt ∧ c.OffsetOk c.offIcr ∧
  c.OffsetOk c.offIms ∧ c.OffsetOk c.offImc ∧
  c.irqEnableMask ≠ 0#32 ∧
  c.irqEnableMask &&& ~~~c.irqDisableMask = 0#32

namespace Machine

/-- A command of 30_encoding.md R107: `buf` of `CmdInit` is a function on `0 .. RING_SIZE-1`. -/
def Command.ok (cfg : Config) : Command → Bool
  | .init _ buf => decide (buf.length = cfg.ringSize)
  | .portRead _ _ => true
  | .portWrite _ _ => true
  | .quiesce => true

/-- A reception the contract allows (60_exceptions.md R238): "up to `len` bytes of received data", no
more than a buffer holds (`BUF_SIZE`, 00_scope.md R7), and a status with all bits of `DONE_MASK` set. -/
def FillReq.ok (cfg : Config) (r : FillReq) : Bool :=
  decide (r.data.length ≤ r.length.toNat) && decide (r.data.length ≤ cfg.bufSize) &&
    decide (r.status &&& cfg.doneMask = cfg.doneMask)

/-- A DEVICE move whose values the contract allows (60_exceptions.md R238, R240, R241). -/
def DevMove.ok (cfg : Config) : DevMove → Bool
  | .fill r => r.ok cfg
  | .fillNext => true
  | .raise bits => decide (bits ≠ 0#32)
  | .upper _ _ => true

end Machine

end Sys2Proof
end

