-- ==== Sys2Proof/Machine/State.lean ====
section
/-! DEFINITION. Machine/State.lean: everything the spec gives the machine, as plain data
(10_state.md), the model's own fields beside it, the reasons a step can stop, and the state after
reset (10_state.md R50). -/

namespace Sys2Proof.Machine

/-- Device-visible memory as (address, byte) pairs in the one canonical form `Memory.wf` says
(log 3). -/
abbrev Memory := List Host.Cell

/-- Why the machine stops with a fault. -/
inductive Fault where
  /-- Raised by a meaning when its operation's enabling condition (the "Enabled when" of its rule, or, for
  a REG or RING operation, that a step of its "Used by" is the next) does not hold. `step` never raises
  it: an agent without an enabled step is not moved. Safe: the spec gives such a step no existence
  (log 8). -/
  | notEnabled (i : Instr)
  deriving DecidableEq, Repr

/-- Why the model has no meaning for what was asked. -/
inductive Refusal where
  /-- An instruction not modelled yet; raised by no arm of `exec`. Safe. -/
  | notModelled (mnemonic : String)
  /-- `RD32` of a register RXW is never supposed to read (40_reg_accessors.md R120). Safe. -/
  | registerNotReadable (r : Reg)
  /-- `WR32` of a register RXW is never supposed to write (40_reg_accessors.md R121). Safe. -/
  | registerNotWritable (r : Reg)
  /-- A memory access of a size other than 1, 4 or 8 (93_implementation_defined.md U24). Safe. -/
  | badSize (n : Nat)
  /-- A misaligned memory access (20_memory.md R63). Safe. -/
  | misaligned (addr : DWord) (n : Nat)
  /-- A memory access outside the ring (20_memory.md R78). Safe. -/
  | outsideRing (addr : DWord) (n : Nat)
  /-- INIT.DESC_A at an index beyond the buffer addresses INIT was given (log 18). Safe. -/
  | noBufferAddress (i : Count)
  /-- A scheduled computation whose code names no operation (30_encoding.md R103). Safe. -/
  | reservedCode (code : Byte)
  deriving DecidableEq, Repr

/-- The whole machine. Each field's rule is in INVENTORY.md under State. -/
structure State where
  /-- The parameters of 00_scope.md R7, fixed for a run. -/
  cfg          : Config
  /-- 10_state.md R21. -/
  ringBase     : DWord
  /-- 10_state.md R22. -/
  headS        : Half
  /-- 10_state.md R23. -/
  tailC        : Half
  /-- 10_state.md R24. -/
  prevHead     : Half
  /-- 10_state.md R25. -/
  headLive     : Half
  /-- 10_state.md R26. -/
  iter         : Count
  /-- 10_state.md R27. -/
  passConsumed : Count
  /-- 10_state.md R28. -/
  view         : View
  /-- 10_state.md R29. -/
  clrTmp       : Byte
  /-- 10_state.md R29. -/
  icrLatch     : Word
  /-- 10_state.md R29. -/
  portH        : Half
  /-- 10_state.md R29. -/
  initI        : Count
  /-- 10_state.md R29. -/
  initBase     : DWord
  /-- 10_state.md R29. -/
  initBuf      : List DWord
  /-- 10_state.md R30. -/
  wstate       : Byte
  /-- 10_state.md R31. -/
  istate       : Byte
  /-- 10_state.md R32. -/
  hstate       : Byte
  /-- 10_state.md R33. -/
  pending      : Bool
  /-- 10_state.md R34. -/
  life         : BitVec 2
  /-- 10_state.md R35. -/
  errSeen      : Bool
  /-- 10_state.md R35. -/
  errCode      : BitVec 4
  /-- The DEVICE's registers, 10_state.md R40 to R44. -/
  dev          : Device
  /-- Device-visible memory, 10_state.md R45, R48. -/
  mem          : Memory
  /-- The event history, newest first, 20_memory.md R72. -/
  trace        : List Event
  /-- The MODEL's own: commands presented and not yet accepted, oldest first (log 9). -/
  cmds         : List Command
  /-- The MODEL's own: the moves still to be made, oldest first (log 6). -/
  sched        : List Move
  /-- The MODEL's own: operands and results of a REG or RING operation (log 10). -/
  call         : CallPort
  deriving DecidableEq, Repr

/-- A view of zeros (log 1). -/
def View.zero : View := { status := 0#8, errors := 0#8, length := 0#16, addr := 0#64 }

/-- The DEVICE's registers when RXW is reset. The spec states none of these values (10_state.md R52);
head 0 is what R41 and 70_reset_and_hazards.md R276 require of the environment (log 2). -/
def Device.reset : Device where
  rdh   := 0#32
  rdt   := 0#32
  cause := 0#32
  mask  := 0#32
  rdbal := 0#32
  rdbah := 0#32
  rdlen := 0#32
  fill  := none

/-- The call port at reset: the model's own (log 10). -/
def CallPort.reset : CallPort where
  caller   := .walker
  argIdx   := 0#16
  argIdx2  := 0#16
  argByte  := 0#8
  resIdx   := 0#16
  resByte  := 0#8
  resWord  := 0#32
  resAddr  := 0#64
  resCount := 0#17
  resBit   := false
  resView  := View.zero

/-- The machine right after reset (10_state.md R50, 70_reset_and_hazards.md R271): sequencers idle,
UNATTACHED, nothing pending, no failure recorded. The latches R50 leaves unspecified hold zero
(log 1). -/
def State.reset : State where
  cfg          := Config.standard
  ringBase     := 0#64
  headS        := 0#16
  tailC        := 0#16
  prevHead     := 0#16
  headLive     := 0#16
  iter         := 0#17
  passConsumed := 0#17
  view         := View.zero
  clrTmp       := 0#8
  icrLatch     := 0#32
  portH        := 0#16
  initI        := 0#17
  initBase     := 0#64
  initBuf      := List.replicate 16 0#64
  wstate       := wIdle
  istate       := iIdle
  hstate       := hIdle
  pending      := false
  life         := lifeUnattached
  errSeen      := false
  errCode      := eNone
  dev          := Device.reset
  mem          := []
  trace        := []
  cmds         := []
  sched        := []
  call         := CallPort.reset

/-- The state with one more event in its history (20_memory.md R72). -/
def State.emit (s : State) (e : Event) : State := { s with trace := e :: s.trace }

end Sys2Proof.Machine
end

