-- ==== Sys2Proof/Machine/Memory.lean ====
section
/-! DEFINITION. Machine/Memory.lean: device-visible memory, one byte at a time and little-endian
(20_memory.md R60 to R62). -/

namespace Sys2Proof.Machine

/-- What an address nothing has written reads as. The spec gives ring memory no reset contents; zero
is the model's choice (log 3). -/
abbrev Memory.unlisted : Byte := 0#8

/-- The byte at an address. -/
def Memory.read : Memory → Nat → Byte
  | [], _ => Memory.unlisted
  | (b, w) :: rest, a => if b = a then w else Memory.read rest a

/-- Memory with one byte written, in canonical form: addresses strictly rising, and no entry equal to
what an unlisted address reads as. -/
def Memory.write : Memory → Nat → Byte → Memory
  | [], a, v => if v = Memory.unlisted then [] else [(a, v)]
  | (b, w) :: rest, a, v =>
    if a < b then (if v = Memory.unlisted then (b, w) :: rest else (a, v) :: (b, w) :: rest)
    else if a = b then (if v = Memory.unlisted then rest else (a, v) :: rest)
    else (b, w) :: Memory.write rest a v

/-- Canonical form above `lo`: addresses strictly rising from `lo`, inside the 64-bit space, and no
entry equal to what an unlisted address reads as. -/
def Memory.wfFrom : Nat → Memory → Bool
  | _, [] => true
  | lo, (a, v) :: rest =>
    decide (lo ≤ a) && decide (a < 2 ^ 64) && decide (v ≠ Memory.unlisted) && Memory.wfFrom (a + 1) rest

/-- The canonical form holds. -/
def Memory.wf (m : Memory) : Bool := Memory.wfFrom 0 m

/-- The `n` bytes from `addr` up, the lowest address in the low bits (20_memory.md R60, R61). -/
def Memory.readLE (m : Memory) (addr : DWord) : Nat → DWord
  | 0 => 0#64
  | n + 1 => (Memory.readLE m (addr + 1#64) n <<< 8) ||| (m.read addr.toNat).setWidth 64

/-- Bytes written from `addr` up, the first at the lowest address (20_memory.md R62). -/
def Memory.writeBytes (m : Memory) (addr : DWord) : List Byte → Memory
  | [] => m
  | v :: rest => Memory.writeBytes (m.write addr.toNat v) (addr + 1#64) rest

/-- The low `n` bytes of a value, bits 7:0 first (20_memory.md R60). -/
def bytesLE (v : DWord) : Nat → List Byte
  | 0 => []
  | n + 1 => v.setWidth 8 :: bytesLE (v >>> 8) n

end Sys2Proof.Machine
end

