-- ==== Sys2Proof/Machine/Operands.lean ====
section
/-! DEFINITION. Machine/Operands.lean: ring pointer arithmetic (41_ring_primitives.md R140 to R143),
descriptor fields (30_encoding.md R92 to R95), register words (R97) and the port word (R98): operand
assembly as 30_encoding.md R102 lists it. `n` is `RING_SIZE`. -/

namespace Sys2Proof.Machine

/-- NEXT, the successor of an index (41_ring_primitives.md R140). -/
def nextIndex (n : Nat) (i : Half) : Half := BitVec.ofNat 16 ((i.toNat + 1) % n)

/-- PREV, the predecessor of an index (41_ring_primitives.md R141). -/
def prevIndex (n : Nat) (i : Half) : Half := if i = 0#16 then BitVec.ofNat 16 (n - 1) else i - 1#16

/-- DESC_ADDR, `ring_base + (zext_64(i) << 4)` (41_ring_primitives.md R142). -/
def descAddress (base : DWord) (i : Half) : DWord := base + (i.setWidth 64 <<< 4)

/-- PENDCNT, `(zext_17(PREV(h)) + N - zext_17(t)) mod N` (41_ring_primitives.md R143). Where that left
operand of `mod` would be negative, which no operands in range give, the spec states no result
(00_scope.md R10) and the value is free (log 14). -/
def pendingCount (n : Nat) (h t : Half) : Count :=
  if t.toNat ≤ (prevIndex n h).toNat + n
  then BitVec.ofNat 17 (((prevIndex n h).toNat + n - t.toNat) % n)
  else Config.freePendcnt h t

/-- Byte offset of the lower word in a descriptor (30_encoding.md R91, R92). -/
abbrev lowerOff : DWord := 8#64

/-- Byte offset of the upper word, and of the status byte, in a descriptor (30_encoding.md R91, R92). -/
abbrev upperOff : DWord := 12#64

/-- `status = upper[7:0]` (30_encoding.md R95). -/
def upperStatus (u : DWord) : Byte := u.extractLsb' 0 8

/-- `errors = upper[15:8]` (30_encoding.md R95). -/
def upperErrors (u : DWord) : Byte := u.extractLsb' 8 8

/-- `length = lower[15:0]` (30_encoding.md R94). -/
def lowerLength (l : DWord) : Half := l.extractLsb' 0 16

/-- An index out of a register word, `word[15:0]` (30_encoding.md R97). -/
def indexOfWord (w : Word) : Half := w.extractLsb' 0 16

/-- An index into a register word, `zext_32(index)` (30_encoding.md R97). -/
def wordOfIndex (i : Half) : Word := i.setWidth 32

/-- `ring_base[31:0]`, the RDBAL word (30_encoding.md R97). -/
def baseLow (base : DWord) : Word := base.extractLsb' 0 32

/-- `ring_base[63:32]`, the RDBAH word (30_encoding.md R97). -/
def baseHigh (base : DWord) : Word := base.extractLsb' 32 32

/-- `trunc_32(RING_SIZE * DESC_SIZE)`, the RDLEN word (30_encoding.md R97). -/
def ringLength (cfg : Config) : Word := BitVec.ofNat 32 cfg.ringBytes

/-- The port's packed word, `(zext_32(head) << 16) | zext_32(tail)` (30_encoding.md R98,
44_host_port_lifecycle.md R202). -/
def portWord (head tail : Half) : Word := (head.setWidth 32 <<< 16) ||| tail.setWidth 32

/-- The port word as the 4 bytes delivered, first to last (30_encoding.md R98, 20_memory.md R60). -/
def portBytes (w : Word) : List Byte := bytesLE (w.setWidth 64) 4

/-- The status byte MARK_FREE writes back, `s & ~DONE_MASK` (41_ring_primitives.md R147). -/
def clearedStatus (doneMask s : Byte) : Byte := s &&& ~~~doneMask

end Sys2Proof.Machine
end

