-- ==== Sys2Proof/Machine/Flags.lean ====
section
/-! DEFINITION. Machine/Flags.lean: the tests the rules decide by: the done test, index range, base
check, the completion signal, the ownership windows. RXW has no arithmetic condition codes
(10_state.md section 3). -/

namespace Sys2Proof.Machine

/-- ISDONE, `(s & DONE_MASK) = DONE_MASK` (41_ring_primitives.md R146). -/
def isDone (doneMask s : Byte) : Bool := s &&& doneMask == doneMask

/-- An index is below `RING_SIZE` (42_service_pass.md R162, R165). -/
def inRange (n : Nat) (i : Half) : Bool := decide (i.toNat < n)

/-- A ring base INIT accepts: 16-byte aligned, and the ring ends at or below 2^64
(44_host_port_lifecycle.md R200). -/
def goodBase (cfg : Config) (base : DWord) : Bool :=
  base.extractLsb' 0 4 == 0#4 && decide (base.toNat + cfg.ringBytes ≤ 2 ^ 64)

/-- The completion signal, `irq = ((cause & mask) != 0)` (60_exceptions.md R237). -/
def irq (d : Device) : Bool := d.cause &&& d.mask != 0#32

/-- How far `i` lies from `from_` going up round the ring. -/
def ringDistance (n : Nat) (from_ i : Half) : Nat := (i.toNat + n - from_.toNat) % n

/-- Index `i` is in the hardware window `[h, t)` (10_state.md R46). -/
def inHardwareWindow (n : Nat) (h t i : Half) : Bool :=
  decide (ringDistance n h i < ringDistance n h t)

/-- Index `i` is in the software window: `[t, h)`, or the whole ring when `t = h` (10_state.md R46). -/
def inSoftwareWindow (n : Nat) (h t i : Half) : Bool :=
  if t = h then true else decide (ringDistance n t i < ringDistance n t h)

/-- The `k` bytes from `addr` up lie inside the ring at `base` (20_memory.md R78). -/
def insideRing (cfg : Config) (base addr : DWord) (k : Nat) : Bool :=
  decide (base.toNat ≤ addr.toNat ∧ addr.toNat + k ≤ base.toNat + cfg.ringBytes)

/-- No byte of the `k` bytes from `addr` up lies in the ring at `base`, and they do not run past the top
of the address space. -/
def outsideRingBytes (cfg : Config) (base addr : DWord) (k : Nat) : Bool :=
  decide (addr.toNat + k ≤ 2 ^ 64 ∧
    (addr.toNat + k ≤ base.toNat ∨ base.toNat + cfg.ringBytes ≤ addr.toNat))

end Sys2Proof.Machine
end

