-- ==== Sys2Proof/Machine/Ops.lean ====
section
/-! DEFINITION. Machine/Ops.lean: the named operations every meaning is built from: the bus primitives
RD32, WR32, MemRead, MemWrite (00_scope.md R11), the nine register accessors (40_reg_accessors.md), and
the abnormal ends: `abandon` (42_service_pass.md R175), InvalidArgument (60_exceptions.md R232) and
Refused (R233). RXW saves nothing on taking its one interrupt and restores nothing on leaving it
(60_exceptions.md R245, R246), so entry and return are the plain steps IRQ.ACK and IRQ.REARM. -/

namespace Sys2Proof.Machine

/-- Do one operation, then go on with what it gave, unless it stopped. -/
def andThen {α β : Type} (o : Host.Outcome α Fault Refusal) (k : α → Host.Outcome β Fault Refusal) :
    Host.Outcome β Fault Refusal :=
  match o with
  | .next x => k x
  | .fault r => .fault r
  | .refused r => .refused r

/-! ## The register bus -/

/-- `RD32`: one register read, with the DEVICE's read side effect (only ICR has one) and its event
(40_reg_accessors.md R120). -/
def rd32 (a : Agent) (r : Reg) (s : State) : Host.Outcome (Word × State) Fault Refusal :=
  match r with
  | .rdh => .next (s.dev.rdh, s.emit (.regRd a (s.cfg.offset .rdh) s.dev.rdh))
  | .rdt => .next (s.dev.rdt, s.emit (.regRd a (s.cfg.offset .rdt) s.dev.rdt))
  | .icr => .next (s.dev.cause,
      { s with dev := { s.dev with cause := 0#32 } }.emit (.regRd a (s.cfg.offset .icr) s.dev.cause))
  | .ctrl => .refused (.registerNotReadable .ctrl)
  | .status => .refused (.registerNotReadable .status)
  | .rctl => .refused (.registerNotReadable .rctl)
  | .rdbal => .refused (.registerNotReadable .rdbal)
  | .rdbah => .refused (.registerNotReadable .rdbah)
  | .rdlen => .refused (.registerNotReadable .rdlen)
  | .ims => .refused (.registerNotReadable .ims)
  | .imc => .refused (.registerNotReadable .imc)

/-- What a register write does in the DEVICE: plain storage for RDT, RDBAL, RDBAH, RDLEN, set bits for
IMS, clear bits for IMC (40_reg_accessors.md R121, 10_state.md R42 to R44). -/
def wr32 (a : Agent) (r : Reg) (v : Word) (s : State) : Host.Outcome State Fault Refusal :=
  match r with
  | .rdt => .next ({ s with dev := { s.dev with rdt := v } }.emit (.regWr a (s.cfg.offset .rdt) v))
  | .ims => .next ({ s with dev := { s.dev with mask := s.dev.mask ||| v } }.emit
      (.regWr a (s.cfg.offset .ims) v))
  | .imc => .next ({ s with dev := { s.dev with mask := s.dev.mask &&& ~~~v } }.emit
      (.regWr a (s.cfg.offset .imc) v))
  | .rdbal => .next ({ s with dev := { s.dev with rdbal := v } }.emit (.regWr a (s.cfg.offset .rdbal) v))
  | .rdbah => .next ({ s with dev := { s.dev with rdbah := v } }.emit (.regWr a (s.cfg.offset .rdbah) v))
  | .rdlen => .next ({ s with dev := { s.dev with rdlen := v } }.emit (.regWr a (s.cfg.offset .rdlen) v))
  | .ctrl => .refused (.registerNotWritable .ctrl)
  | .status => .refused (.registerNotWritable .status)
  | .rctl => .refused (.registerNotWritable .rctl)
  | .rdh => .refused (.registerNotWritable .rdh)
  | .icr => .refused (.registerNotWritable .icr)

/-! ## The accessors of family REG (40_reg_accessors.md R122 to R130) -/

/-- RDH.R (R122). -/
def readHead (a : Agent) (s : State) : Host.Outcome (Half × State) Fault Refusal :=
  andThen (rd32 a .rdh s) fun p => .next (indexOfWord p.1, p.2)

/-- RDT.R (R123). -/
def readTail (a : Agent) (s : State) : Host.Outcome (Half × State) Fault Refusal :=
  andThen (rd32 a .rdt s) fun p => .next (indexOfWord p.1, p.2)

/-- RDT.W (R124). -/
def writeTail (a : Agent) (i : Half) (s : State) : Host.Outcome State Fault Refusal :=
  wr32 a .rdt (wordOfIndex i) s

/-- ICR.R (R125). -/
def readCause (a : Agent) (s : State) : Host.Outcome (Word × State) Fault Refusal :=
  rd32 a .icr s

/-- IMS.W (R126). -/
def writeMaskSet (a : Agent) (s : State) : Host.Outcome State Fault Refusal :=
  wr32 a .ims s.cfg.irqEnableMask s

/-- IMC.W (R127). -/
def writeMaskClear (a : Agent) (s : State) : Host.Outcome State Fault Refusal :=
  wr32 a .imc s.cfg.irqDisableMask s

/-- RDBAL.W (R128). -/
def writeBaseLow (a : Agent) (s : State) : Host.Outcome State Fault Refusal :=
  wr32 a .rdbal (baseLow s.ringBase) s

/-- RDBAH.W (R129). -/
def writeBaseHigh (a : Agent) (s : State) : Host.Outcome State Fault Refusal :=
  wr32 a .rdbah (baseHigh s.ringBase) s

/-- RDLEN.W (R130). -/
def writeRingLength (a : Agent) (s : State) : Host.Outcome State Fault Refusal :=
  wr32 a .rdlen (ringLength s.cfg) s

/-! ## The memory bus -/

/-- Why a memory access of `n` bytes at `addr` is refused, if it is: its size (20_memory.md R61, R65),
its alignment (R63), or an address outside the ring (R78). -/
def accessRefusal (s : State) (addr : DWord) (n : Nat) : Option Refusal :=
  if ¬ (n = 1 ∨ n = 4 ∨ n = 8) then some (.badSize n)
  else if addr.toNat % n ≠ 0 then some (.misaligned addr n)
  else if insideRing s.cfg s.ringBase addr n then none
  else some (.outsideRing addr n)

/-- `MemRead(addr, n)` (20_memory.md R61). The `8n`-bit value stands zero-extended in 64 bits. -/
def memRead (a : Agent) (addr : DWord) (n : Nat) (s : State) : Host.Outcome (DWord × State) Fault Refusal :=
  match accessRefusal s addr n with
  | some r => .refused r
  | none => .next (s.mem.readLE addr n, s.emit (.memRd a addr n (s.mem.readLE addr n)))

/-- `MemWrite(addr, n, v)` (20_memory.md R62): the low `8n` bits of `v`. -/
def memWrite (a : Agent) (addr : DWord) (n : Nat) (v : DWord) (s : State) :
    Host.Outcome State Fault Refusal :=
  match accessRefusal s addr n with
  | some r => .refused r
  | none => .next ({ s with mem := s.mem.writeBytes addr (bytesLE v n) }.emit (.memWr a addr n v))

/-! ## The parts of INSPECT and MARK_FREE (41_ring_primitives.md R144, R147) -/

/-- INSPECT, part U: the upper word. -/
def inspectUpper (a : Agent) (i : Half) (s : State) : Host.Outcome (DWord × State) Fault Refusal :=
  memRead a (descAddress s.ringBase i + upperOff) 4 s

/-- INSPECT, part L: the lower word. -/
def inspectLower (a : Agent) (i : Half) (s : State) : Host.Outcome (DWord × State) Fault Refusal :=
  memRead a (descAddress s.ringBase i + lowerOff) 4 s

/-- INSPECT, part A: the address field. -/
def inspectAddr (a : Agent) (i : Half) (s : State) : Host.Outcome (DWord × State) Fault Refusal :=
  memRead a (descAddress s.ringBase i) 8 s

/-- MARK_FREE, part R: the status byte. -/
def statusRead (a : Agent) (i : Half) (s : State) : Host.Outcome (Byte × State) Fault Refusal :=
  andThen (memRead a (descAddress s.ringBase i + upperOff) 1 s) fun p => .next (p.1.setWidth 8, p.2)

/-- MARK_FREE, part W: the status byte with the done bits cleared. -/
def statusClear (a : Agent) (i : Half) (status : Byte) (s : State) : Host.Outcome State Fault Refusal :=
  memWrite a (descAddress s.ringBase i + upperOff) 1
    ((clearedStatus s.cfg.doneMask status).setWidth 64) s

/-- ADVANCE_TAIL: `new <- NEXT(t); WR32(OFF_RDT, zext_32(new)); return new` (41_ring_primitives.md R145). -/
def advanceTail (a : Agent) (t : Half) (s : State) : Host.Outcome (Half × State) Fault Refusal :=
  andThen (writeTail a (nextIndex s.cfg.ringSize t) s) fun s1 => .next (nextIndex s.cfg.ringSize t, s1)

/-! ## Abnormal ends -/

/-- `abandon(code, head, tail)`: `err_seen <- 1; err_code <- code; emit Log(code, head, tail);
wstate <- W_IDLE` (42_service_pass.md R175, 60_exceptions.md R231). It touches nothing else. -/
def abandon (code : BitVec 4) (head tail : Half) (s : State) : State :=
  { s with errSeen := true, errCode := code, wstate := wIdle }.emit (.log code head tail)

/-- `raise InvalidArgument`: `emit PortReply(ok=0, count=0, word=0)` (60_exceptions.md R232). -/
def invalidArgument (s : State) : State := s.emit (.portReply false 0#32 0#32)

/-- `emit Refused(reason)` and nothing else (60_exceptions.md R233). -/
def refuseCommand (reason : BitVec 2) (s : State) : State := s.emit (.refused reason)

end Sys2Proof.Machine
end

