-- ==== Sys2Proof/Machine/Device.lean ====
section
/-! DEFINITION. Machine/Device.lean: the moves of the DEVICE, the environment agent of 60_exceptions.md
R238 to R241. A move the contract does not allow in a state leaves the state as it is: the DEVICE does
not make it (log 12). Between `Quiesced` and a later INIT the DEVICE is not reset and goes on: a choice of
the model's (log 19). -/

namespace Sys2Proof.Machine

/-- The ring base the DEVICE was given: the base registers as RXW wrote them (60_exceptions.md R239). -/
def Device.ringBase (d : Device) : DWord := d.rdbah ++ d.rdbal

/-- The head index, `RDH[15:0]` (10_state.md R41). -/
def Device.head (d : Device) : Half := indexOfWord d.rdh

/-- The tail index, `RDT[15:0]` (10_state.md R42). -/
def Device.tail (d : Device) : Half := indexOfWord d.rdt

/-- Where the DEVICE finds descriptor `i`. -/
def Device.descriptor (d : Device) (i : Half) : DWord := descAddress d.ringBase i

/-- The address in the address field of descriptor `i`: where the received bytes go. -/
def bufferAddress (s : State) (i : Half) : DWord := s.mem.readLE (s.dev.descriptor i) 8

/-- The DEVICE may touch descriptor `i`: it is `head`, in range, and the hardware window is not empty
(60_exceptions.md R238, R239, R240). -/
def mayFill (s : State) (i : Half) : Bool :=
  i == s.dev.head && s.dev.head != s.dev.tail && inRange s.cfg.ringSize i

/-- Transaction 1 of FILL is a move of the contract here: no other reception is in progress, the index
is the DEVICE's to fill, and the received bytes stay outside the descriptor array (R239: "it never
writes a descriptor in the software window", "never writes a descriptor's address field"). -/
def fillStarts (r : FillReq) (s : State) : Bool :=
  s.dev.fill.isNone && mayFill s r.index &&
    outsideRingBytes s.cfg s.dev.ringBase (bufferAddress s r.index) r.data.length

/-- Transaction 1 (R238): the received bytes into the buffer. -/
def fillData (r : FillReq) (s : State) : State :=
  { s with
    mem := s.mem.writeBytes (bufferAddress s r.index) r.data,
    dev := { s.dev with fill := some { req := r, phase := .lengthWord } } }.emit
      (.devMem (bufferAddress s r.index) r.data)

/-- Transaction 2 (R238): the length, checksum, errors and special fields; the status byte between them
is left alone. -/
def fillLength (f : Fill) (s : State) : State :=
  { s with
    mem := (s.mem.writeBytes (s.dev.descriptor f.req.index + lowerOff)
        (bytesLE (f.req.length.setWidth 64) 2 ++ bytesLE (f.req.checksum.setWidth 64) 2)).writeBytes
        (s.dev.descriptor f.req.index + 13#64)
        (f.req.errors :: bytesLE (f.req.special.setWidth 64) 2),
    dev := { s.dev with fill := some { f with phase := .statusByte } } }.emit
      (.devMem (s.dev.descriptor f.req.index + lowerOff)
        (bytesLE (f.req.length.setWidth 64) 2 ++ bytesLE (f.req.checksum.setWidth 64) 2)) |>.emit
      (.devMem (s.dev.descriptor f.req.index + 13#64)
        (f.req.errors :: bytesLE (f.req.special.setWidth 64) 2))

/-- Transaction 3 (R238): the status byte, all done bits set. -/
def fillStatus (f : Fill) (s : State) : State :=
  { s with
    mem := s.mem.writeBytes (s.dev.descriptor f.req.index + upperOff) [f.req.status],
    dev := { s.dev with fill := some { f with phase := .headAdvance } } }.emit
      (.devMem (s.dev.descriptor f.req.index + upperOff) [f.req.status])

/-- Transaction 4 (R238): `RDH <- zext_32(NEXT(i))`. -/
def fillHead (f : Fill) (s : State) : State :=
  { s with
    dev := { s.dev with rdh := wordOfIndex (nextIndex s.cfg.ringSize f.req.index), fill := none } }.emit
      (.devHead (wordOfIndex (nextIndex s.cfg.ringSize f.req.index)))

/-- `RAISE(bits)`: `cause <- cause | bits` (60_exceptions.md R241). -/
def raiseCause (bits : Word) (s : State) : State :=
  { s with dev := { s.dev with cause := s.dev.cause ||| bits } }.emit (.devRaise bits)

/-- Bits 31:16 of RDH and RDT come to read as given; the indices stay (60_exceptions.md R240, log 13). -/
def setUpper (rdh rdt : Half) (s : State) : State :=
  { s with dev := { s.dev with rdh := rdh ++ s.dev.head, rdt := rdt ++ s.dev.tail } }

/-- What the state becomes when the DEVICE is scheduled with this move. DESIGN CHOICE (log 19): no move
resets the DEVICE, so at a second `CmdInit` its registers hold what the earlier ring left in them, and a
reception in progress is still in progress (70_reset_and_hazards.md R276, 91_not_in_source.md N3, N14). -/
def deviceMove (m : DevMove) (s : State) : State :=
  if m.ok s.cfg then
    match m with
    | .fill r => if fillStarts r s then fillData r s else s
    | .fillNext =>
      match s.dev.fill with
      | none => s
      | some f =>
        if mayFill s f.req.index then
          match f.phase with
          | .lengthWord => fillLength f s
          | .statusByte => fillStatus f s
          | .headAdvance => fillHead f s
        else s
    | .raise bits => raiseCause bits s
    | .upper rdh rdt => setUpper rdh rdt s
  else s

end Sys2Proof.Machine
end

