-- ==== Sys2Proof/Decode.lean ====
section
/-! DEFINITION. Decode.lean: operation codes (30_encoding.md R100, R101, R103).

`decode` reads the operation map of R101 as a table of rows; `encode` puts a code together from the
family nibble and the index nibble of R100, written a second time and separately. -/

namespace Sys2Proof

/-- Why an 8-bit value is no operation: every value outside the map of R101 is reserved
(30_encoding.md R103). -/
inductive DecodeError where
  | reserved (code : Byte)
  deriving DecidableEq, Repr

/-- Family 0x0, REG (30_encoding.md R101). -/
def regRows : List (Byte × Instr) :=
  [(0x01#8, .rdhR), (0x02#8, .rdtR), (0x03#8, .rdtW), (0x04#8, .icrR), (0x05#8, .imsW),
   (0x06#8, .imcW), (0x07#8, .rdbalW), (0x08#8, .rdbahW), (0x09#8, .rdlenW)]

/-- Family 0x1, RING (30_encoding.md R101). -/
def ringRows : List (Byte × Instr) :=
  [(0x10#8, .nextIdx), (0x11#8, .prevIdx), (0x12#8, .descAddr), (0x13#8, .pendcnt),
   (0x14#8, .inspect), (0x15#8, .advanceTail), (0x16#8, .isdone), (0x17#8, .markFree)]

/-- Family 0x2, PASS (30_encoding.md R101). -/
def passRows : List (Byte × Instr) :=
  [(0x20#8, .passStart), (0x21#8, .passSnapH), (0x22#8, .passSnapT), (0x23#8, .passTest),
   (0x24#8, .passAdv), (0x25#8, .passRrH), (0x26#8, .passRrT), (0x27#8, .passInspU),
   (0x28#8, .passInspL), (0x29#8, .passInspA), (0x2A#8, .passConsume), (0x2B#8, .passClrR),
   (0x2C#8, .passClrW)]

/-- Families 0x3 to 0x6, IRQ, PORT, INIT and QUIESCE (30_encoding.md R101). -/
def hostRows : List (Byte × Instr) :=
  [(0x30#8, .irqAck), (0x31#8, .irqSched), (0x32#8, .irqRearm),
   (0x40#8, .portRdH), (0x41#8, .portRdT), (0x42#8, .portWrite),
   (0x50#8, .initLatch), (0x51#8, .initDescA), (0x52#8, .initDescL), (0x53#8, .initDescU),
   (0x54#8, .initBah), (0x55#8, .initBal), (0x56#8, .initLen), (0x57#8, .initTail),
   (0x58#8, .initArm), (0x60#8, .quiesceMask), (0x61#8, .quiesceWait)]

/-- The operation map of 30_encoding.md R101. -/
def opRows : List (Byte × Instr) := regRows ++ ringRows ++ passRows ++ hostRows

/-- The first row with this code. -/
def findRow : List (Byte × Instr) → Byte → Option Instr
  | [], _ => none
  | (k, i) :: rows, code => if k = code then some i else findRow rows code

/-- The operation a code names, or that the code is reserved (30_encoding.md R103). -/
def decode (code : Byte) : Except DecodeError Instr :=
  match findRow opRows code with
  | some i => .ok i
  | none => .error (.reserved code)

/-- The high nibble of an operation's code: its family (30_encoding.md R100). -/
def Instr.family : Instr → BitVec 4
  | .rdhR | .rdtR | .rdtW | .icrR | .imsW | .imcW | .rdbalW | .rdbahW | .rdlenW => 0x0#4
  | .nextIdx | .prevIdx | .descAddr | .pendcnt | .inspect | .advanceTail | .isdone | .markFree => 0x1#4
  | .passStart | .passSnapH | .passSnapT | .passTest | .passAdv | .passRrH | .passRrT
  | .passInspU | .passInspL | .passInspA | .passConsume | .passClrR | .passClrW => 0x2#4
  | .irqAck | .irqSched | .irqRearm => 0x3#4
  | .portRdH | .portRdT | .portWrite => 0x4#4
  | .initLatch | .initDescA | .initDescL | .initDescU | .initBah | .initBal | .initLen | .initTail
  | .initArm => 0x5#4
  | .quiesceMask | .quiesceWait => 0x6#4

/-- The low nibble of an operation's code: its place within the family (30_encoding.md R100, R101). -/
def Instr.index : Instr → BitVec 4
  | .nextIdx | .passStart | .irqAck | .portRdH | .initLatch | .quiesceMask => 0x0#4
  | .rdhR | .prevIdx | .passSnapH | .irqSched | .portRdT | .initDescA | .quiesceWait => 0x1#4
  | .rdtR | .descAddr | .passSnapT | .irqRearm | .portWrite | .initDescL => 0x2#4
  | .rdtW | .pendcnt | .passTest | .initDescU => 0x3#4
  | .icrR | .inspect | .passAdv | .initBah => 0x4#4
  | .imsW | .advanceTail | .passRrH | .initBal => 0x5#4
  | .imcW | .isdone | .passRrT | .initLen => 0x6#4
  | .rdbalW | .markFree | .passInspU | .initTail => 0x7#4
  | .rdbahW | .passInspL | .initArm => 0x8#4
  | .rdlenW | .passInspA => 0x9#4
  | .passConsume => 0xA#4
  | .passClrR => 0xB#4
  | .passClrW => 0xC#4

/-- An operation's code, family nibble high (30_encoding.md R100). -/
def encode (i : Instr) : Byte := i.family ++ i.index

/-- The operation code in a table row's word: `nbits` bits numbered as spec/opcode_table.json numbers
them. A code is one byte (30_encoding.md R90), so a word of other bits above it has no meaning. -/
def codeOfWord (nbits w : Nat) : Byte := BitVec.ofNat 8 (w % 2 ^ nbits)

/-- What the decoder reads from a table row's word. -/
def decodeTableWord (nbits w : Nat) : Option Instr :=
  match decode (codeOfWord nbits w) with
  | .ok i => some i
  | .error _ => none

end Sys2Proof
end

