-- ==== Sys2Proof/Machine/Accept.lean ====
section
/-! DEFINITION. Machine/Accept.lean: accepting a command (44_host_port_lifecycle.md R200). A row of R200
either begins the command's first operation, which is then performed in the same step and is what the
four `…Accepted` conditions stand for, or turns the command away: the step called `ACCEPT(<command>)`,
which performs no operation and has no code (30_encoding.md R105). Or the command waits (R200, the row
before the last). -/

namespace Sys2Proof.Machine

/-! ## The rows that begin an operation -/

/-- The oldest waiting command is a valid port read (R200 row 4). -/
def portReadAccepted (s : State) : Bool :=
  match s.cmds with
  | .portRead present len :: _ => s.life == lifeReady && present && decide (4 ≤ len)
  | _ => false

/-- The oldest waiting command is a valid port write (R200 row 7). -/
def portWriteAccepted (s : State) : Bool :=
  match s.cmds with
  | .portWrite present len :: _ => s.life == lifeReady && present && decide (1 ≤ len)
  | _ => false

/-- The oldest waiting command is an INIT with a good base, with no ring attached (R200 row 10). -/
def initAccepted (s : State) : Bool :=
  match s.cmds with
  | .init base _ :: _ => s.life == lifeUnattached && goodBase s.cfg base
  | _ => false

/-- The oldest waiting command is a quiesce, with no acknowledge in flight (R200, last row). -/
def quiesceAccepted (s : State) : Bool :=
  match s.cmds with
  | .quiesce :: _ => s.life == lifeReady && s.istate == iIdle
  | _ => false

/-! ## The rows that turn a command away -/

/-- What a command that is turned away leaves of a state it has been taken from; none where it begins an
operation or waits (R200 rows 1 to 3, 5, 6, 8, 9, 11). The lifecycle state is tested before the
arguments (60_exceptions.md R242). -/
def turnAway (c : Command) (s : State) : Option State :=
  match c with
  | .portRead present len =>
    if s.life ≠ lifeReady then some (refuseCommand notReady s)
    else if present = false ∨ len < 4 then some (invalidArgument s)
    else none
  | .portWrite present len =>
    if s.life ≠ lifeReady then some (refuseCommand notReady s)
    else if present = false ∨ len = 0 then some (invalidArgument s)
    else none
  | .init base _ =>
    if s.life ≠ lifeUnattached then some (refuseCommand alreadyAttached s)
    else if goodBase s.cfg base = false then some (refuseCommand badBase s)
    else none
  | .quiesce => if s.life ≠ lifeReady then some (refuseCommand notReady s) else none

/-- `ACCEPT(<command>)` (30_encoding.md R105): the step of HOSTCMD that takes the oldest waiting command
and turns it away, if that is its next step. In the unused lifecycle state there is no step (log 17). -/
def acceptStep (s : State) : Option State :=
  if s.life = lifeUnused ∨ s.hstate ≠ hIdle then none
  else
    match s.cmds with
    | [] => none
    | c :: rest => turnAway c { s with cmds := rest }

end Sys2Proof.Machine
end

