-- ==== Sys2Proof/Machine/Enable.lean ====
section
/-! DEFINITION. Machine/Enable.lean: the enabling condition of each operation and the operation an agent
performs next. For a step of a sequencer the condition is the "Enabled when" line of its rule. For the
first operation of a command it is that HOSTCMD is idle and the row of 44_host_port_lifecycle.md R200 that
begins the operation holds of the oldest waiting command: accepting a command and performing its first
operation are one step (R200). A REG or RING operation that is a transaction is performed inside the
steps its rule's "Used by" line lists and nowhere else, with the operands those steps pass (log 10,
log 11). -/

namespace Sys2Proof.Machine

/-! ## The steps of the sequencers -/

/-- The operation is a step of a sequencer (family PASS, IRQ, PORT, INIT or QUIESCE) and its rule's
"Enabled when" holds. -/
def stepEnabled (i : Instr) (s : State) : Bool :=
  match i with
  | .rdhR | .rdtR | .rdtW | .icrR | .imsW | .imcW | .rdbalW | .rdbahW | .rdlenW => false
  | .nextIdx | .prevIdx | .descAddr | .pendcnt | .inspect | .advanceTail | .isdone | .markFree => false
  | .passStart => s.life == lifeReady && s.wstate == wIdle && s.pending
  | .passSnapH => s.wstate == wSnapH
  | .passSnapT => s.wstate == wSnapT
  | .passTest => s.wstate == wTest
  | .passAdv => s.wstate == wAdv
  | .passRrH => s.wstate == wRrH
  | .passRrT => s.wstate == wRrT
  | .passInspU => s.wstate == wInspU
  | .passInspL => s.wstate == wInspL
  | .passInspA => s.wstate == wInspA
  | .passConsume => s.wstate == wConsume
  | .passClrR => s.wstate == wClrR
  | .passClrW => s.wstate == wClrW
  | .irqAck => s.life == lifeReady && s.istate == iIdle && irq s.dev
  | .irqSched => s.istate == iSched
  | .irqRearm => s.istate == iRearm
  | .portRdH => s.hstate == hIdle && portReadAccepted s
  | .portRdT => s.hstate == hPortT
  | .portWrite => s.hstate == hIdle && portWriteAccepted s
  | .initLatch => s.hstate == hIdle && initAccepted s
  | .initDescA => s.hstate == hDescA
  | .initDescL => s.hstate == hDescL
  | .initDescU => s.hstate == hDescU
  | .initBah => s.hstate == hBah
  | .initBal => s.hstate == hBal
  | .initLen => s.hstate == hLen
  | .initTail => s.hstate == hTail
  | .initArm => s.hstate == hArm
  | .quiesceMask => s.hstate == hIdle && quiesceAccepted s
  | .quiesceWait => s.hstate == hQwait && s.wstate == wIdle

/-- The agent performs the operation as a step of its sequencer: the WALKER family PASS, the IFE family
IRQ, HOSTCMD families PORT, INIT and QUIESCE (00_scope.md R3). -/
def Agent.sequences : Agent → Instr → Bool
  | .walker, i => i.family == 0x2#4
  | .ife, i => i.family == 0x3#4
  | .hostcmd, i => i.family == 0x4#4 || i.family == 0x5#4 || i.family == 0x6#4

/-- The code of the first operation of a command (44_host_port_lifecycle.md R200). -/
def Command.firstCode : Command → Byte
  | .portRead _ _ => 0x40#8
  | .portWrite _ _ => 0x42#8
  | .init _ _ => 0x50#8
  | .quiesce => 0x60#8

/-- The code of the operation the agent performs next, if any: the sequencer state where it is not idle;
in idle, the operation that begins the agent's work, PASS.START, IRQ.ACK, or the first operation of the
oldest waiting command (10_state.md R30, R31, R32). -/
def nextCode (a : Agent) (s : State) : Option Byte :=
  match a with
  | .walker => if s.wstate = wIdle then some 0x20#8 else some s.wstate
  | .ife => if s.istate = iIdle then some 0x30#8 else some s.istate
  | .hostcmd =>
    if s.hstate = hIdle then
      match s.cmds with
      | [] => none
      | c :: _ => some c.firstCode
    else some s.hstate

/-- The operation the agent has an enabled step for, if any. A sequencer state that names no operation,
or none of this agent's, and the unused lifecycle state, give no step (30_encoding.md R103, 10_state.md
R34; log 17). HOSTCMD's one step that is no operation is `acceptStep`. -/
def agentOperation (a : Agent) (s : State) : Option Instr :=
  if s.life = lifeUnused then none
  else
    match nextCode a s with
    | none => none
    | some code =>
      match decode code with
      | .error _ => none
      | .ok i => if a.sequences i && stepEnabled i s then some i else none

/-! ## The operations inside the steps -/

/-- INIT is in progress (44_host_port_lifecycle.md R208 to R215). -/
def initStates : List Byte := [hDescA, hDescL, hDescU, hBah, hBal, hLen, hTail, hArm]

/-- INIT.LATCH has written `ring_base` for the ring in hand (10_state.md R21, R37). -/
def ringBaseWritten (s : State) : Bool := s.life != lifeUnattached || initStates.contains s.hstate

/-- Step `p` performs transaction operation `i` in this state, with the operands in the call port: the
"Used by" lines of 40_reg_accessors.md R122 to R130 and 41_ring_primitives.md R144, R145, R147, and the
operands the rules of those steps pass. -/
def usedBy (i p : Instr) (s : State) : Bool :=
  match i with
  | .rdhR => p == .passSnapH || p == .passRrH || p == .portRdH
  | .rdtR => p == .passSnapT || p == .passRrT || p == .portRdT
  | .rdtW =>
    p == .passAdv && s.call.argIdx == nextIndex s.cfg.ringSize s.tailC ||
      p == .initTail && s.call.argIdx == BitVec.ofNat 16 (s.cfg.ringSize - 1)
  | .icrR => p == .irqAck
  | .imsW => p == .irqRearm || p == .initArm
  | .imcW => p == .quiesceMask
  | .rdbalW => p == .initBal
  | .rdbahW => p == .initBah
  | .rdlenW => p == .initLen
  | .inspect => (p == .passInspU || p == .passInspL || p == .passInspA) && s.call.argIdx == s.tailC
  | .advanceTail => p == .passAdv && s.call.argIdx == s.tailC
  | .markFree =>
    (p == .passClrR || p == .passClrW && s.call.argByte == s.clrTmp) && s.call.argIdx == s.tailC
  | .nextIdx | .prevIdx | .descAddr | .pendcnt | .isdone => false
  | .passStart | .passSnapH | .passSnapT | .passTest | .passAdv | .passRrH | .passRrT
  | .passInspU | .passInspL | .passInspA | .passConsume | .passClrR | .passClrW => false
  | .irqAck | .irqSched | .irqRearm | .portRdH | .portRdT | .portWrite => false
  | .initLatch | .initDescA | .initDescL | .initDescU | .initBah | .initBal | .initLen | .initTail
  | .initArm | .quiesceMask | .quiesceWait => false

/-- The step that the agent in the call port has enabled next performs the operation. -/
def performedInStep (i : Instr) (s : State) : Bool :=
  match agentOperation s.call.caller s with
  | none => false
  | some p => usedBy i p s

/-- The operation is enabled in this state. The results of ring arithmetic that read no state are always
to be had; DESC_ADDR reads `ring_base`, which INIT.LATCH must have written (10_state.md R37). -/
def enabled (i : Instr) (s : State) : Bool :=
  match i with
  | .rdhR | .rdtR | .rdtW | .icrR | .imsW | .imcW | .rdbalW | .rdbahW | .rdlenW
  | .inspect | .advanceTail | .markFree => performedInStep i s
  | .nextIdx | .prevIdx | .pendcnt | .isdone => true
  | .descAddr => ringBaseWritten s
  | .passStart | .passSnapH | .passSnapT | .passTest | .passAdv | .passRrH | .passRrT
  | .passInspU | .passInspL | .passInspA | .passConsume | .passClrR | .passClrW
  | .irqAck | .irqSched | .irqRearm | .portRdH | .portRdT | .portWrite
  | .initLatch | .initDescA | .initDescL | .initDescU | .initBah | .initBal | .initLen | .initTail
  | .initArm | .quiesceMask | .quiesceWait => stepEnabled i s

/-- What the operation does where it is enabled; where it is not, there is no such step (log 8). -/
def whenEnabled (i : Instr) (s : State) (effect : Host.Outcome State Fault Refusal) :
    Host.Outcome State Fault Refusal :=
  if enabled i s then effect else .fault (.notEnabled i)

end Sys2Proof.Machine
end

