-- ==== Sys2Proof/Machine/InitFamily.lean ====
section
/-! DEFINITION. Machine/InitFamily.lean: family INIT (44_host_port_lifecycle.md R206 to R215). -/

namespace Sys2Proof.Machine

/-- `DESC_ADDR(init_i)`: the 17-bit `init_i` is the index (44_host_port_lifecycle.md R208 to R210). -/
def initDescAddress (s : State) : DWord := s.ringBase + (s.initI.setWidth 64 <<< 4)

/-- INIT.LATCH (R207), of an accepted `CmdInit`: take the arguments. -/
def execInitLatch (s : State) : Host.Outcome State Fault Refusal :=
  whenEnabled .initLatch s <|
    match s.cmds with
    | .init base buf :: rest =>
      .next { s with cmds := rest, initBase := base, initBuf := buf, ringBase := base,
                     initI := 0#17, hstate := hDescA }
    | _ => .fault (.notEnabled .initLatch)

/-- INIT.DESC_A (R208): one descriptor's address field. -/
def execInitDescA (s : State) : Host.Outcome State Fault Refusal :=
  whenEnabled .initDescA s <|
    match s.initBuf[s.initI.toNat]? with
    | none => .refused (.noBufferAddress s.initI)
    | some b =>
      andThen (memWrite .hostcmd (initDescAddress s) 8 b s) fun s1 => .next { s1 with hstate := hDescL }

/-- INIT.DESC_L (R209): zero its lower word. -/
def execInitDescL (s : State) : Host.Outcome State Fault Refusal :=
  whenEnabled .initDescL s <|
    andThen (memWrite .hostcmd (initDescAddress s + lowerOff) 4 0#64 s) fun s1 =>
      .next { s1 with hstate := hDescU }

/-- INIT.DESC_U (R210): zero its upper word; next index. -/
def execInitDescU (s : State) : Host.Outcome State Fault Refusal :=
  whenEnabled .initDescU s <|
    andThen (memWrite .hostcmd (initDescAddress s + upperOff) 4 0#64 s) fun s1 =>
      if s.initI.toNat + 1 < s.cfg.ringSize
      then .next { s1 with initI := s.initI + 1#17, hstate := hDescA }
      else .next { s1 with hstate := hBah }

/-- INIT.BAH (R211): program base-address-high. -/
def execInitBah (s : State) : Host.Outcome State Fault Refusal :=
  whenEnabled .initBah s <|
    andThen (writeBaseHigh .hostcmd s) fun s1 => .next { s1 with hstate := hBal }

/-- INIT.BAL (R212): program base-address-low. -/
def execInitBal (s : State) : Host.Outcome State Fault Refusal :=
  whenEnabled .initBal s <|
    andThen (writeBaseLow .hostcmd s) fun s1 => .next { s1 with hstate := hLen }

/-- INIT.LEN (R213): program the length register. -/
def execInitLen (s : State) : Host.Outcome State Fault Refusal :=
  whenEnabled .initLen s <|
    andThen (writeRingLength .hostcmd s) fun s1 => .next { s1 with hstate := hTail }

/-- INIT.TAIL (R214): the initial tail, `trunc_16(N - 1)`. -/
def execInitTail (s : State) : Host.Outcome State Fault Refusal :=
  whenEnabled .initTail s <|
    andThen (writeTail .hostcmd (BitVec.ofNat 16 (s.cfg.ringSize - 1)) s) fun s1 =>
      .next { s1 with hstate := hArm }

/-- INIT.ARM (R215): install the front end and enable interrupts, in one step. -/
def execInitArm (s : State) : Host.Outcome State Fault Refusal :=
  whenEnabled .initArm s <|
    andThen (writeMaskSet .hostcmd s) fun s1 =>
      .next ({ s1 with life := lifeReady, hstate := hIdle }.emit .initDone)

end Sys2Proof.Machine
end

