-- ==== Sys2Proof/Machine/IrqFamily.lean ====
section
/-! DEFINITION. Machine/IrqFamily.lean: family IRQ, the interrupt front end (43_irq_front_end.md R190 to
R192). Taking the interrupt saves nothing and changes no mask (60_exceptions.md R245); the return is
IRQ.REARM and restores nothing (R246). -/

namespace Sys2Proof.Machine

/-- IRQ.ACK (R190): the cause read, whose side effect clears `cause`; the value is latched, not tested. -/
def execIrqAck (s : State) : Host.Outcome State Fault Refusal :=
  whenEnabled .irqAck s <|
    andThen (readCause .ife s) fun p => .next { p.2 with icrLatch := p.1, istate := iSched }

/-- IRQ.SCHED (R191): enqueue one unit of deferred work, idempotently. -/
def execIrqSched (s : State) : Host.Outcome State Fault Refusal :=
  whenEnabled .irqSched s <| .next { s with pending := true, istate := iRearm }

/-- IRQ.REARM (R192): re-arm the interrupt-enable register. -/
def execIrqRearm (s : State) : Host.Outcome State Fault Refusal :=
  whenEnabled .irqRearm s <|
    andThen (writeMaskSet .ife s) fun s1 => .next { s1 with istate := iIdle }

end Sys2Proof.Machine
end

