-- ==== Sys2Proof/Machine/PassFamily.lean ====
section
/-! DEFINITION. Machine/PassFamily.lean: family PASS, the WALKER's thirteen steps (42_service_pass.md
R160 to R172). Each holds at most one transaction; a step that finds head or tail inconsistent ends in
`abandon` (R175). No step writes IMS or IMC or reads ICR (R176). -/

namespace Sys2Proof.Machine

/-- PASS.START (R160): take the queued unit of work. `pending` is cleared before any register is read. -/
def execPassStart (s : State) : Host.Outcome State Fault Refusal :=
  whenEnabled .passStart s <|
    .next { s with pending := false, iter := 0#17, passConsumed := 0#17, wstate := wSnapH }

/-- PASS.SNAP_H (R161): snapshot head. -/
def execPassSnapH (s : State) : Host.Outcome State Fault Refusal :=
  whenEnabled .passSnapH s <|
    andThen (readHead .walker s) fun p => .next { p.2 with headS := p.1, wstate := wSnapT }

/-- PASS.SNAP_T (R162): snapshot tail, check both indices, compute `prev_head`. -/
def execPassSnapT (s : State) : Host.Outcome State Fault Refusal :=
  whenEnabled .passSnapT s <|
    andThen (readTail .walker s) fun p =>
      if inRange s.cfg.ringSize s.headS && inRange s.cfg.ringSize p.1
      then .next { p.2 with tailC := p.1, prevHead := prevIndex s.cfg.ringSize s.headS, wstate := wTest }
      else .next (abandon eIndexRange s.headS p.1 { p.2 with tailC := p.1 })

/-- PASS.TEST (R163): equality first, then the cap. -/
def execPassTest (s : State) : Host.Outcome State Fault Refusal :=
  whenEnabled .passTest s <|
    if s.tailC = s.prevHead then .next { s with wstate := wIdle }
    else if s.cfg.iterCap ≤ s.iter.toNat then .next (abandon eIterCap s.headS s.tailC s)
    else .next { s with wstate := wAdv }

/-- PASS.ADV (R164): ADVANCE_TAIL applied to `tail_c`. -/
def execPassAdv (s : State) : Host.Outcome State Fault Refusal :=
  whenEnabled .passAdv s <|
    andThen (advanceTail .walker s.tailC s) fun p =>
      .next { p.2 with tailC := p.1, iter := s.iter + 1#17, wstate := wRrH }

/-- PASS.RR_H (R165): re-read head; the value is kept in `head_live` and used for nothing else. -/
def execPassRrH (s : State) : Host.Outcome State Fault Refusal :=
  whenEnabled .passRrH s <|
    andThen (readHead .walker s) fun p =>
      if inRange s.cfg.ringSize p.1 then .next { p.2 with headLive := p.1, wstate := wRrT }
      else .next (abandon eIndexRange p.1 s.tailC { p.2 with headLive := p.1 })

/-- PASS.RR_T (R166): re-read tail and compare it with `tail_c`. -/
def execPassRrT (s : State) : Host.Outcome State Fault Refusal :=
  whenEnabled .passRrT s <|
    andThen (readTail .walker s) fun p =>
      if p.1 = s.tailC then .next { p.2 with wstate := wInspU }
      else .next (abandon eTailReadback s.headLive p.1 p.2)

/-- PASS.INSP_U (R167): status and errors of the descriptor at `tail_c`. -/
def execPassInspU (s : State) : Host.Outcome State Fault Refusal :=
  whenEnabled .passInspU s <|
    andThen (inspectUpper .walker s.tailC s) fun p =>
      .next { p.2 with
        view := { p.2.view with status := upperStatus p.1, errors := upperErrors p.1 },
        wstate := wInspL }

/-- PASS.INSP_L (R168): its length. -/
def execPassInspL (s : State) : Host.Outcome State Fault Refusal :=
  whenEnabled .passInspL s <|
    andThen (inspectLower .walker s.tailC s) fun p =>
      .next { p.2 with view := { p.2.view with length := lowerLength p.1 }, wstate := wInspA }

/-- PASS.INSP_A (R169): its address, then branch on the done test. -/
def execPassInspA (s : State) : Host.Outcome State Fault Refusal :=
  whenEnabled .passInspA s <|
    andThen (inspectAddr .walker s.tailC s) fun p =>
      .next { p.2 with
        view := { p.2.view with addr := p.1 },
        wstate := if isDone s.cfg.doneMask s.view.status then wConsume else wTest }

/-- PASS.CONSUME (R170): report the completed descriptor. -/
def execPassConsume (s : State) : Host.Outcome State Fault Refusal :=
  whenEnabled .passConsume s <|
    .next ({ s with passConsumed := s.passConsumed + 1#17, wstate := wClrR }.emit
      (.consume s.tailC s.view.addr s.view.length s.view.status s.view.errors))

/-- PASS.CLR_R (R171): read the status byte afresh. -/
def execPassClrR (s : State) : Host.Outcome State Fault Refusal :=
  whenEnabled .passClrR s <|
    andThen (statusRead .walker s.tailC s) fun p => .next { p.2 with clrTmp := p.1, wstate := wClrW }

/-- PASS.CLR_W (R172): clear the done bits. -/
def execPassClrW (s : State) : Host.Outcome State Fault Refusal :=
  whenEnabled .passClrW s <|
    andThen (statusClear .walker s.tailC s.clrTmp s) fun s1 => .next { s1 with wstate := wTest }

end Sys2Proof.Machine
end

