-- ==== Sys2Proof/Machine/PortFamily.lean ====
section
/-! DEFINITION. Machine/PortFamily.lean: family PORT, the collaborator's port (44_host_port_lifecycle.md
R200 to R204). The step that performs a command's first operation takes the command off the waiting ones;
a command that is refused, or whose arguments are invalid, performs none of these (R105; `turnAway`). -/

namespace Sys2Proof.Machine

/-- PORT.RD_H (R201), of an accepted `CmdPortRead`: latch head. -/
def execPortRdH (s : State) : Host.Outcome State Fault Refusal :=
  whenEnabled .portRdH s <|
    andThen (readHead .hostcmd { s with cmds := s.cmds.tail }) fun p =>
      .next { p.2 with portH := p.1, hstate := hPortT }

/-- PORT.RD_T (R202): read tail and reply with the packed word. -/
def execPortRdT (s : State) : Host.Outcome State Fault Refusal :=
  whenEnabled .portRdT s <|
    andThen (readTail .hostcmd s) fun p =>
      .next ({ p.2 with hstate := hIdle }.emit (.portReply true 4#32 (portWord s.portH p.1)))

/-- PORT.WRITE (R203), of an accepted `CmdPortWrite`: acknowledge its length. -/
def execPortWrite (s : State) : Host.Outcome State Fault Refusal :=
  whenEnabled .portWrite s <|
    match s.cmds with
    | .portWrite _ len :: rest =>
      .next ({ s with cmds := rest }.emit (.portReply true (BitVec.ofNat 32 len) 0#32))
    | _ => .fault (.notEnabled .portWrite)

end Sys2Proof.Machine
end

