-- ==== Sys2Proof/Machine/QuiesceFamily.lean ====
section
/-! DEFINITION. Machine/QuiesceFamily.lean: family QUIESCE (44_host_port_lifecycle.md R216, R217). -/

namespace Sys2Proof.Machine

/-- QUIESCE.MASK (R216), of an accepted `CmdQuiesce`: mask, cancel queued work, start to quiesce. -/
def execQuiesceMask (s : State) : Host.Outcome State Fault Refusal :=
  whenEnabled .quiesceMask s <|
    andThen (writeMaskClear .hostcmd { s with cmds := s.cmds.tail }) fun s1 =>
      .next { s1 with pending := false, life := lifeQuiescing, hstate := hQwait }

/-- QUIESCE.WAIT (R217): the cancellation barrier; enabled only when no pass is running. -/
def execQuiesceWait (s : State) : Host.Outcome State Fault Refusal :=
  whenEnabled .quiesceWait s <|
    .next ({ s with life := lifeUnattached, hstate := hIdle }.emit .quiesced)

end Sys2Proof.Machine
end

