-- ==== Sys2Proof/Machine/RegFamily.lean ====
section
/-! DEFINITION. Machine/RegFamily.lean: family REG (40_reg_accessors.md R122 to R130). The accessor is
the one of Ops.lean, which the steps of files 42 to 44 perform; here operand and result are in the call
port (log 10), and the operation is enabled exactly inside those steps (log 11). -/

namespace Sys2Proof.Machine

/-- RDH.R (R122): result `idx` in `resIdx`. -/
def execRdhR (s : State) : Host.Outcome State Fault Refusal :=
  whenEnabled .rdhR s <|
    andThen (readHead s.call.caller s) fun p =>
      .next { p.2 with call := { p.2.call with resIdx := p.1 } }

/-- RDT.R (R123): result `idx` in `resIdx`. -/
def execRdtR (s : State) : Host.Outcome State Fault Refusal :=
  whenEnabled .rdtR s <|
    andThen (readTail s.call.caller s) fun p =>
      .next { p.2 with call := { p.2.call with resIdx := p.1 } }

/-- RDT.W (R124): operand `idx` in `argIdx`. -/
def execRdtW (s : State) : Host.Outcome State Fault Refusal :=
  whenEnabled .rdtW s <| writeTail s.call.caller s.call.argIdx s

/-- ICR.R (R125): result `c` in `resWord`. -/
def execIcrR (s : State) : Host.Outcome State Fault Refusal :=
  whenEnabled .icrR s <|
    andThen (readCause s.call.caller s) fun p =>
      .next { p.2 with call := { p.2.call with resWord := p.1 } }

/-- IMS.W (R126). -/
def execImsW (s : State) : Host.Outcome State Fault Refusal :=
  whenEnabled .imsW s <| writeMaskSet s.call.caller s

/-- IMC.W (R127). -/
def execImcW (s : State) : Host.Outcome State Fault Refusal :=
  whenEnabled .imcW s <| writeMaskClear s.call.caller s

/-- RDBAL.W (R128). -/
def execRdbalW (s : State) : Host.Outcome State Fault Refusal :=
  whenEnabled .rdbalW s <| writeBaseLow s.call.caller s

/-- RDBAH.W (R129). -/
def execRdbahW (s : State) : Host.Outcome State Fault Refusal :=
  whenEnabled .rdbahW s <| writeBaseHigh s.call.caller s

/-- RDLEN.W (R130). -/
def execRdlenW (s : State) : Host.Outcome State Fault Refusal :=
  whenEnabled .rdlenW s <| writeRingLength s.call.caller s

end Sys2Proof.Machine
end

