-- ==== Sys2Proof/Machine/RingFamily.lean ====
section
/-! DEFINITION. Machine/RingFamily.lean: family RING (41_ring_primitives.md R140 to R147). Operands and
results are in the call port (log 10). INSPECT and MARK_FREE are performed a part at a time, each part
one transaction inside the pass step of that part (30_encoding.md R106), so that other agents and the
DEVICE may move between the parts (20_memory.md R67). -/

namespace Sys2Proof.Machine

/-- NEXT (R140): operand `i` in `argIdx`, result in `resIdx`. -/
def execNextIdx (s : State) : Host.Outcome State Fault Refusal :=
  whenEnabled .nextIdx s <|
    .next { s with call := { s.call with resIdx := nextIndex s.cfg.ringSize s.call.argIdx } }

/-- PREV (R141): operand `i` in `argIdx`, result in `resIdx`. -/
def execPrevIdx (s : State) : Host.Outcome State Fault Refusal :=
  whenEnabled .prevIdx s <|
    .next { s with call := { s.call with resIdx := prevIndex s.cfg.ringSize s.call.argIdx } }

/-- DESC_ADDR (R142): operand `i` in `argIdx`, result in `resAddr`. -/
def execDescAddr (s : State) : Host.Outcome State Fault Refusal :=
  whenEnabled .descAddr s <|
    .next { s with call := { s.call with resAddr := descAddress s.ringBase s.call.argIdx } }

/-- PENDCNT (R143): operands `h` in `argIdx` and `t` in `argIdx2`, result in `resCount`. -/
def execPendcnt (s : State) : Host.Outcome State Fault Refusal :=
  whenEnabled .pendcnt s <|
    .next { s with call := { s.call with
      resCount := pendingCount s.cfg.ringSize s.call.argIdx s.call.argIdx2 } }

/-- INSPECT (R144): operand `i` in `argIdx`, the view in `resView`; the part of the step in hand, U in
PASS.INSP_U, L in PASS.INSP_L, A in PASS.INSP_A (30_encoding.md R106). -/
def execInspect (s : State) : Host.Outcome State Fault Refusal :=
  whenEnabled .inspect s <|
    if s.wstate = wInspU then
      andThen (inspectUpper s.call.caller s.call.argIdx s) fun p =>
        .next { p.2 with call := { p.2.call with resView := { p.2.call.resView with
          status := upperStatus p.1, errors := upperErrors p.1 } } }
    else if s.wstate = wInspL then
      andThen (inspectLower s.call.caller s.call.argIdx s) fun p =>
        .next { p.2 with call := { p.2.call with resView := { p.2.call.resView with
          length := lowerLength p.1 } } }
    else
      andThen (inspectAddr s.call.caller s.call.argIdx s) fun p =>
        .next { p.2 with call := { p.2.call with resView := { p.2.call.resView with addr := p.1 } } }

/-- ADVANCE_TAIL (R145): operand `t` in `argIdx`, the new tail in `resIdx`. -/
def execAdvanceTail (s : State) : Host.Outcome State Fault Refusal :=
  whenEnabled .advanceTail s <|
    andThen (advanceTail s.call.caller s.call.argIdx s) fun p =>
      .next { p.2 with call := { p.2.call with resIdx := p.1 } }

/-- ISDONE (R146): operand `s` in `argByte`, result in `resBit`. -/
def execIsdone (s : State) : Host.Outcome State Fault Refusal :=
  whenEnabled .isdone s <|
    .next { s with call := { s.call with resBit := isDone s.cfg.doneMask s.call.argByte } }

/-- MARK_FREE (R147): operand `i` in `argIdx`; the part of the step in hand, R in PASS.CLR_R with the
byte in `resByte`, W in PASS.CLR_W with that byte in `argByte` (30_encoding.md R106). -/
def execMarkFree (s : State) : Host.Outcome State Fault Refusal :=
  whenEnabled .markFree s <|
    if s.wstate = wClrR then
      andThen (statusRead s.call.caller s.call.argIdx s) fun p =>
        .next { p.2 with call := { p.2.call with resByte := p.1 } }
    else statusClear s.call.caller s.call.argIdx s.call.argByte s

end Sys2Proof.Machine
end

