-- ==== Sys2Proof/Machine/Dispatch.lean ====
section
/-! DEFINITION. Machine/Dispatch.lean: each operation's meaning, one arm per row of spec/opcode_table.json. -/

namespace Sys2Proof.Machine

def exec (i : Instr) (s : State) : Host.Outcome State Fault Refusal :=
  match i with
  | .rdhR => Sys2Proof.Machine.execRdhR s
  | .rdtR => Sys2Proof.Machine.execRdtR s
  | .rdtW => Sys2Proof.Machine.execRdtW s
  | .icrR => Sys2Proof.Machine.execIcrR s
  | .imsW => Sys2Proof.Machine.execImsW s
  | .imcW => Sys2Proof.Machine.execImcW s
  | .rdbalW => Sys2Proof.Machine.execRdbalW s
  | .rdbahW => Sys2Proof.Machine.execRdbahW s
  | .rdlenW => Sys2Proof.Machine.execRdlenW s
  | .nextIdx => Sys2Proof.Machine.execNextIdx s
  | .prevIdx => Sys2Proof.Machine.execPrevIdx s
  | .descAddr => Sys2Proof.Machine.execDescAddr s
  | .pendcnt => Sys2Proof.Machine.execPendcnt s
  | .inspect => Sys2Proof.Machine.execInspect s
  | .advanceTail => Sys2Proof.Machine.execAdvanceTail s
  | .isdone => Sys2Proof.Machine.execIsdone s
  | .markFree => Sys2Proof.Machine.execMarkFree s
  | .passStart => Sys2Proof.Machine.execPassStart s
  | .passSnapH => Sys2Proof.Machine.execPassSnapH s
  | .passSnapT => Sys2Proof.Machine.execPassSnapT s
  | .passTest => Sys2Proof.Machine.execPassTest s
  | .passAdv => Sys2Proof.Machine.execPassAdv s
  | .passRrH => Sys2Proof.Machine.execPassRrH s
  | .passRrT => Sys2Proof.Machine.execPassRrT s
  | .passInspU => Sys2Proof.Machine.execPassInspU s
  | .passInspL => Sys2Proof.Machine.execPassInspL s
  | .passInspA => Sys2Proof.Machine.execPassInspA s
  | .passConsume => Sys2Proof.Machine.execPassConsume s
  | .passClrR => Sys2Proof.Machine.execPassClrR s
  | .passClrW => Sys2Proof.Machine.execPassClrW s
  | .irqAck => Sys2Proof.Machine.execIrqAck s
  | .irqSched => Sys2Proof.Machine.execIrqSched s
  | .irqRearm => Sys2Proof.Machine.execIrqRearm s
  | .portRdH => Sys2Proof.Machine.execPortRdH s
  | .portRdT => Sys2Proof.Machine.execPortRdT s
  | .portWrite => Sys2Proof.Machine.execPortWrite s
  | .initLatch => Sys2Proof.Machine.execInitLatch s
  | .initDescA => Sys2Proof.Machine.execInitDescA s
  | .initDescL => Sys2Proof.Machine.execInitDescL s
  | .initDescU => Sys2Proof.Machine.execInitDescU s
  | .initBah => Sys2Proof.Machine.execInitBah s
  | .initBal => Sys2Proof.Machine.execInitBal s
  | .initLen => Sys2Proof.Machine.execInitLen s
  | .initTail => Sys2Proof.Machine.execInitTail s
  | .initArm => Sys2Proof.Machine.execInitArm s
  | .quiesceMask => Sys2Proof.Machine.execQuiesceMask s
  | .quiesceWait => Sys2Proof.Machine.execQuiesceWait s

end Sys2Proof.Machine
end

