-- ==== Sys2Proof/Machine/Agents.lean ====
section
/-! DEFINITION. Machine/Agents.lean: what happens when a party is scheduled. An agent's sequencer state
is its program counter (10_state.md section 2): it holds the code of the operation the agent performs
next, which is read, decoded, and performed if it is enabled. A command that HOSTCMD turns away is the one
step that performs no operation. -/

namespace Sys2Proof.Machine

/-- The agent takes its next step; without one it stays as it is (log 6). HOSTCMD's next step may be to
turn a command away, which is no operation (30_encoding.md R105). -/
def agentStep (a : Agent) (s : State) : Host.Outcome State Fault Refusal :=
  match agentOperation a s with
  | some i => exec i s
  | none =>
    match a with
    | .walker | .ife => .next s
    | .hostcmd => .next ((acceptStep s).getD s)

/-- A RING operation that is no transaction: ring arithmetic and the done test (41_ring_primitives.md
R140 to R143, R146). -/
def isPure : Instr → Bool
  | .nextIdx | .prevIdx | .descAddr | .pendcnt | .isdone => true
  | .rdhR | .rdtR | .rdtW | .icrR | .imsW | .imcW | .rdbalW | .rdbahW | .rdlenW
  | .inspect | .advanceTail | .markFree => false
  | .passStart | .passSnapH | .passSnapT | .passTest | .passAdv | .passRrH | .passRrT
  | .passInspU | .passInspL | .passInspA | .passConsume | .passClrR | .passClrW
  | .irqAck | .irqSched | .irqRearm | .portRdH | .portRdT | .portWrite
  | .initLatch | .initDescA | .initDescL | .initDescU | .initBah | .initBal | .initLen | .initTail
  | .initArm | .quiesceMask | .quiesceWait => false

/-- A result of ring arithmetic is worked out on the call port: no agent moves, and nothing but the
port's results changes (log 10). An operation that is performed inside steps only is not done here. -/
def computeStep (code : Byte) (s : State) : Host.Outcome State Fault Refusal :=
  match decode code with
  | .error _ => .refused (.reservedCode code)
  | .ok i => if isPure i && enabled i s then exec i s else .next s

/-- A command is presented: it waits behind those presented before (44_host_port_lifecycle.md R200,
93_implementation_defined.md U22; log 9). -/
def presentCommand (c : Command) (s : State) : State :=
  if c.ok s.cfg then { s with cmds := s.cmds ++ [c] } else s

/-- The WALKER's next step is `i`, in READY (10_state.md R30). -/
def atWalker (i : Instr) (s : State) : State :=
  { s with life := lifeReady, wstate := encode i, sched := .agent .walker :: s.sched }

/-- The IFE's next step is `i`, in READY (10_state.md R31). -/
def atIfe (i : Instr) (s : State) : State :=
  { s with life := lifeReady, istate := encode i, sched := .agent .ife :: s.sched }

/-- HOSTCMD's next step is `i`, a step of INIT (10_state.md R32). -/
def atInit (i : Instr) (s : State) : State :=
  { s with life := lifeUnattached, hstate := encode i, sched := .agent .hostcmd :: s.sched }

/-- A waiting signal makes IRQ.ACK the IFE's next step (43_irq_front_end.md R190). -/
def atAcknowledge (s : State) : State :=
  { s with life := lifeReady, istate := iIdle,
           dev := { s.dev with cause := s.dev.cause ||| 1#32, mask := s.dev.mask ||| 1#32 },
           sched := .agent .ife :: s.sched }

/-- A command is the next thing HOSTCMD accepts, in this lifecycle state (44_host_port_lifecycle.md
R200). -/
def atCommand (life : BitVec 2) (c : Command) (s : State) : State :=
  { s with life := life, istate := iIdle, hstate := hIdle, cmds := c :: s.cmds,
           sched := .agent .hostcmd :: s.sched }

/-- The call port asks for an operation inside the agent's next step, with this index operand. -/
def portFor (a : Agent) (i : Half) (s : State) : State :=
  { s with call := { s.call with caller := a, argIdx := i } }

/-- The state in which operation `i` is the very next thing done: the sequencer state that names it, or
the waiting command, flag or signal that begins it, and the schedule's first entry. A REG operation,
INSPECT, ADVANCE_TAIL and MARK_FREE are done by a step that performs them, with the call port set to
match that step; a result of ring arithmetic is computed (log 7). -/
def placeOperation (i : Instr) (s : State) : State :=
  match i with
  | .rdhR => portFor .walker 0#16 (atWalker .passSnapH s)
  | .rdtR => portFor .walker 0#16 (atWalker .passSnapT s)
  | .rdtW => portFor .hostcmd (BitVec.ofNat 16 (s.cfg.ringSize - 1)) (atInit .initTail s)
  | .icrR => portFor .ife 0#16 (atAcknowledge s)
  | .imsW => portFor .ife 0#16 (atIfe .irqRearm s)
  | .imcW => portFor .hostcmd 0#16 (atCommand lifeReady .quiesce s)
  | .rdbalW => portFor .hostcmd 0#16 (atInit .initBal s)
  | .rdbahW => portFor .hostcmd 0#16 (atInit .initBah s)
  | .rdlenW => portFor .hostcmd 0#16 (atInit .initLen s)
  | .inspect => portFor .walker s.tailC (atWalker .passInspU s)
  | .advanceTail => portFor .walker s.tailC (atWalker .passAdv s)
  | .markFree => portFor .walker s.tailC (atWalker .passClrR s)
  | .nextIdx | .prevIdx | .pendcnt | .isdone => { s with sched := .compute (encode i) :: s.sched }
  | .descAddr => { s with life := lifeReady, sched := .compute (encode i) :: s.sched }
  | .passStart =>
    { s with life := lifeReady, wstate := wIdle, pending := true, sched := .agent .walker :: s.sched }
  | .passSnapH | .passSnapT | .passTest | .passAdv | .passRrH | .passRrT
  | .passInspU | .passInspL | .passInspA | .passConsume | .passClrR | .passClrW => atWalker i s
  | .irqAck => atAcknowledge s
  | .irqSched | .irqRearm => atIfe i s
  | .portRdH => atCommand lifeReady (.portRead true 4) s
  | .portWrite => atCommand lifeReady (.portWrite true 4) s
  | .initLatch =>
    atCommand lifeUnattached (.init 0#64 (List.replicate s.cfg.ringSize 0#64)) s
  | .quiesceMask => atCommand lifeReady .quiesce s
  | .portRdT => { s with life := lifeReady, hstate := hPortT, sched := .agent .hostcmd :: s.sched }
  | .quiesceWait =>
    { s with life := lifeQuiescing, wstate := wIdle, hstate := hQwait,
             sched := .agent .hostcmd :: s.sched }
  | .initDescA | .initDescL | .initDescU | .initBah | .initBal | .initLen | .initTail | .initArm =>
    atInit i s

/-- The state in which this operation code is the next one done; a reserved code is scheduled to be
computed, which is refused by name (30_encoding.md R103). -/
def placeCode (code : Byte) (s : State) : State :=
  match decode code with
  | .error _ => { s with sched := .compute code :: s.sched }
  | .ok i => placeOperation i s

end Sys2Proof.Machine
end

