-- ==== Sys2Proof/Machine/Step.lean ====
section
/-! DEFINITION. Machine/Step.lean: one step of the whole machine. The schedule says who moves
(20_memory.md R69: "at each point any agent that has an enabled step may take it"); every statement is
about every schedule (log 6). -/

namespace Sys2Proof.Machine

/-- One step: the oldest move of the schedule. With no move left nothing happens. -/
def step (s : State) : Host.Outcome State Fault Refusal :=
  match s.sched with
  | [] => .next s
  | .agent a :: rest => agentStep a { s with sched := rest }
  | .compute code :: rest => computeStep code { s with sched := rest }
  | .command c :: rest => .next (presentCommand c { s with sched := rest })
  | .device m :: rest => .next (deviceMove m { s with sched := rest })

/-- `s` with the operation whose table word is `w` placed where the very next step performs it (log 7). -/
def State.withFetchWord (s : State) (nbits w : Nat) : State := placeCode (codeOfWord nbits w) s

end Sys2Proof.Machine
end

