-- ==== Sys2Proof/Safety.lean ====
section
/-! DEFINITION. Safety.lean: the terms claims are stated in: the legal sequencer states, the invariant
of RXW under every schedule and every DEVICE move, the DEVICE's side of the contract, and runs. -/

namespace Sys2Proof.Machine

/-- The WALKER's states (10_state.md R30: "No other value is reachable"). -/
def walkerStates : List Byte :=
  [wIdle, wSnapH, wSnapT, wTest, wAdv, wRrH, wRrT, wInspU, wInspL, wInspA, wConsume, wClrR, wClrW]

/-- The IFE's states (10_state.md R31). -/
def ifeStates : List Byte := [iIdle, iSched, iRearm]

/-- HOSTCMD's states (10_state.md R32). -/
def hostStates : List Byte :=
  [hIdle, hPortT, hDescA, hDescL, hDescU, hBah, hBal, hLen, hTail, hArm, hQwait]

/-- HOSTCMD writes descriptors (44_host_port_lifecycle.md R208 to R210). -/
def descStates : List Byte := [hDescA, hDescL, hDescU]

/-- A pass is past PASS.SNAP_T (42_service_pass.md R180). -/
def loopStates : List Byte :=
  [wTest, wAdv, wRrH, wRrT, wInspU, wInspL, wInspA, wConsume, wClrR, wClrW]

/-- The pass has advanced onto a descriptor that it has not yet counted as consumed. -/
def beforeConsume : List Byte := [wRrH, wRrT, wInspU, wInspL, wInspA, wConsume]

/-- A ring exists: INIT has completed and the last QUIESCE.WAIT has not (10_state.md R34). -/
abbrev State.attached (s : State) : Prop := s.life ≠ lifeUnattached

/-- What every step of RXW and of the DEVICE keeps, whatever the schedule. The parts are named after
what they say; a proof that a step keeps `Invariant` is one obligation. -/
structure Invariant (s : State) : Prop where
  /-- The parameters are within 00_scope.md R7. -/
  cfgOk : s.cfg.Ok
  /-- Memory is in canonical form (log 3). -/
  memWf : s.mem.wf = true
  /-- 10_state.md R34: 3 is unreachable. -/
  lifeLegal : s.life ≠ lifeUnused
  /-- 10_state.md R30. -/
  walkerLegal : s.wstate ∈ walkerStates
  /-- 10_state.md R31. -/
  ifeLegal : s.istate ∈ ifeStates
  /-- 10_state.md R32. -/
  hostLegal : s.hstate ∈ hostStates
  /-- A pass runs only while a ring exists (42_service_pass.md R160, 44_host_port_lifecycle.md R217). -/
  passAttached : s.wstate ≠ wIdle → s.attached
  /-- An acknowledge is in flight only in READY (43_irq_front_end.md R190, R191). -/
  ackReady : s.istate ≠ iIdle → s.life = lifeReady
  /-- Work is queued only in READY (10_state.md R33). -/
  pendingReady : s.pending = true → s.life = lifeReady
  /-- The second half of a port read happens in READY (44_host_port_lifecycle.md R201). -/
  portReady : s.hstate = hPortT → s.life = lifeReady
  /-- INIT runs while UNATTACHED (44_host_port_lifecycle.md R207, R215). -/
  initUnattached : s.hstate ∈ initStates → s.life = lifeUnattached
  /-- HOSTCMD waits at the barrier exactly while QUIESCING (44_host_port_lifecycle.md R216, R217). -/
  quiesceWaits : s.hstate = hQwait ↔ s.life = lifeQuiescing
  /-- The ring's base is one INIT accepts (20_memory.md R63). -/
  baseGood : s.attached ∨ s.hstate ∈ initStates → goodBase s.cfg s.ringBase = true
  /-- INIT's index is below N (44_host_port_lifecycle.md R210). -/
  initIndex : s.hstate ∈ descStates → s.initI.toNat < s.cfg.ringSize
  /-- INIT holds one buffer address per index (10_state.md R29). -/
  initBufs : s.hstate ∈ descStates → s.initBuf.length = s.cfg.ringSize
  /-- Waiting commands are commands (30_encoding.md R107). -/
  cmdsOk : ∀ c ∈ s.cmds, c.ok s.cfg = true
  /-- RDBAH holds the base's high half from INIT.BAH on (10_state.md R44). -/
  baseHighHeld : s.attached ∨ s.hstate ∈ [hBal, hLen, hTail, hArm] → s.dev.rdbah = baseHigh s.ringBase
  /-- RDBAL holds the base's low half from INIT.BAL on (10_state.md R44). -/
  baseLowHeld : s.attached ∨ s.hstate ∈ [hLen, hTail, hArm] → s.dev.rdbal = baseLow s.ringBase
  /-- RDLEN holds the ring's size from INIT.LEN on (10_state.md R44). -/
  lengthHeld : s.attached ∨ s.hstate ∈ [hTail, hArm] → s.dev.rdlen = ringLength s.cfg
  /-- RDT holds an index of the ring from INIT.TAIL on (10_state.md R42). -/
  tailInRange : s.attached ∨ s.hstate = hArm → inRange s.cfg.ringSize s.dev.tail = true
  /-- In READY the bits RXW enables are enabled (40_reg_accessors.md R126). -/
  maskReady : s.life = lifeReady → s.dev.mask &&& s.cfg.irqEnableMask = s.cfg.irqEnableMask
  /-- While QUIESCING no bit RXW ever enabled is enabled (40_reg_accessors.md R127). -/
  maskQuiescing : s.life = lifeQuiescing → s.dev.mask &&& s.cfg.irqEnableMask = 0#32
  /-- 42_service_pass.md R180. -/
  tailHeld : s.wstate ∈ loopStates → s.tailC = s.dev.tail
  /-- `prev_head` is an index of the ring (42_service_pass.md R162). -/
  prevHeadInRange : s.wstate ∈ loopStates → inRange s.cfg.ringSize s.prevHead = true
  /-- A pass that has not yet snapshot both indices has advanced and consumed nothing
  (42_service_pass.md R160). -/
  passFresh : s.wstate ∈ [wSnapH, wSnapT] → s.iter = 0#17 ∧ s.passConsumed = 0#17
  /-- The advances made and the advances left are at most N - 1 (42_service_pass.md R182). -/
  passBound : s.wstate ∈ loopStates →
    s.iter.toNat + ringDistance s.cfg.ringSize s.tailC s.prevHead ≤ s.cfg.ringSize - 1
  /-- PASS.ADV is reached only with an advance left to make (42_service_pass.md R163). -/
  advanceLeft : s.wstate = wAdv → s.tailC ≠ s.prevHead
  /-- `iter` never exceeds N (41_ring_primitives.md R148). -/
  iterBound : s.iter.toNat ≤ s.cfg.ringSize
  /-- `pass_consumed` never exceeds N (41_ring_primitives.md R148). -/
  consumedBound : s.passConsumed.toNat ≤ s.cfg.ringSize
  /-- Every `Consume` of a pass has its own advance (42_service_pass.md R183). -/
  consumedIter : s.wstate ∈ loopStates → s.passConsumed.toNat ≤ s.iter.toNat
  /-- The descriptor in hand is not counted before PASS.CONSUME (42_service_pass.md R170). -/
  consumedBefore : s.wstate ∈ beforeConsume → s.passConsumed.toNat < s.iter.toNat

/-- The DEVICE's side of the contract, as far as it is visible in a state: head is an index of the ring
(60_exceptions.md R240) and a reception in progress is one the contract allows (R238). -/
structure DeviceOk (s : State) : Prop where
  headInRange : inRange s.cfg.ringSize s.dev.head = true
  fillAtHead : ∀ f, s.dev.fill = some f → f.req.index = s.dev.head ∧ f.req.ok s.cfg = true

/-- The head the running pass goes by is an index of the ring (42_service_pass.md R162, R165). -/
abbrev SnapshotOk (s : State) : Prop := s.wstate = wSnapT → inRange s.cfg.ringSize s.headS = true

/-- The schedule's next entry is no computation of a reserved code (30_encoding.md R103; log 10). -/
def NoReservedNext (s : State) : Prop := ∀ code rest, s.sched = .compute code :: rest → ∃ i, code = encode i

/-- `s` with the call port set for one operation inside agent `a`'s next step: index operand `i`, byte
operand `b` (log 10). -/
def State.asking (s : State) (a : Agent) (i : Half) (b : Byte) : State :=
  { s with call := { s.call with caller := a, argIdx := i, argByte := b } }

/-- The operations that are transactions and are performed inside steps (40_reg_accessors.md R122 to R130,
41_ring_primitives.md R144, R145, R147). -/
def innerOperations : List Instr :=
  [.rdhR, .rdtR, .rdtW, .icrR, .imsW, .imcW, .rdbalW, .rdbahW, .rdlenW, .inspect, .advanceTail, .markFree]

/-- A bound on the WALKER steps left before the pass ends: ten for each advance left to make, and what is
left of the iteration in hand (42_service_pass.md R182). -/
def passWork (s : State) : Nat :=
  let left := 10 * ringDistance s.cfg.ringSize s.tailC s.prevHead
  if s.wstate = wSnapH then 10 * (s.cfg.ringSize - 1) + 3
  else if s.wstate = wSnapT then 10 * (s.cfg.ringSize - 1) + 2
  else if s.wstate = wTest then left + 1
  else if s.wstate = wAdv then left
  else if s.wstate = wRrH then left + 9
  else if s.wstate = wRrT then left + 8
  else if s.wstate = wInspU then left + 7
  else if s.wstate = wInspL then left + 6
  else if s.wstate = wInspA then left + 5
  else if s.wstate = wConsume then left + 4
  else if s.wstate = wClrR then left + 3
  else if s.wstate = wClrW then left + 2
  else 0

/-- `k` steps of the machine, one after another. -/
def run : Nat → State → Host.Outcome State Fault Refusal
  | 0, s => .next s
  | k + 1, s => andThen (step s) (run k)

/-- `s` with the next `k` moves given to one agent. -/
def State.scheduled (s : State) (k : Nat) (a : Agent) : State :=
  { s with sched := List.replicate k (.agent a) }

/-- `s` with the ring, its memory, its two index registers and every WALKER latch of `u`: all that the IFE
has no access to (43_irq_front_end.md R193, 10_state.md R36). -/
def State.withRingOf (s u : State) : State :=
  { s with
    ringBase := u.ringBase, headS := u.headS, tailC := u.tailC, prevHead := u.prevHead,
    headLive := u.headLive, iter := u.iter, passConsumed := u.passConsumed, view := u.view,
    clrTmp := u.clrTmp, wstate := u.wstate, errSeen := u.errSeen, errCode := u.errCode, mem := u.mem,
    dev := { s.dev with rdh := u.dev.rdh, rdt := u.dev.rdt } }

/-- The event is a transaction on the register or memory bus by one of RXW's agents
(20_memory.md R72). -/
def Event.isTransaction : Event → Bool
  | .regRd _ _ _ | .regWr _ _ _ | .memRd _ _ _ _ | .memWr _ _ _ _ => true
  | .consume _ _ _ _ _ | .log _ _ _ | .portReply _ _ _ | .refused _ | .initDone | .quiesced
  | .devMem _ _ | .devHead _ | .devRaise _ => false

/-- The event is a `Consume` (42_service_pass.md R170). -/
def Event.isConsume : Event → Bool
  | .consume _ _ _ _ _ => true
  | .regRd _ _ _ | .regWr _ _ _ | .memRd _ _ _ _ | .memWr _ _ _ _ | .log _ _ _
  | .portReply _ _ _ | .refused _ | .initDone | .quiesced
  | .devMem _ _ | .devHead _ | .devRaise _ => false

/-- The event is a register write by one of RXW's agents (00_scope.md R11). -/
def Event.isRegWrite : Event → Bool
  | .regWr _ _ _ => true
  | .regRd _ _ _ | .memRd _ _ _ _ | .memWr _ _ _ _ | .consume _ _ _ _ _ | .log _ _ _
  | .portReply _ _ _ | .refused _ | .initDone | .quiesced
  | .devMem _ _ | .devHead _ | .devRaise _ => false

/-- The event is a memory write by one of RXW's agents (00_scope.md R11). -/
def Event.isMemWrite : Event → Bool
  | .memWr _ _ _ _ => true
  | .regRd _ _ _ | .regWr _ _ _ | .memRd _ _ _ _ | .consume _ _ _ _ _ | .log _ _ _
  | .portReply _ _ _ | .refused _ | .initDone | .quiesced
  | .devMem _ _ | .devHead _ | .devRaise _ => false

/-- Byte `k` of descriptor `i` of RXW's ring (30_encoding.md R92, 41_ring_primitives.md R142). -/
def descByte (s : State) (i : Half) (k : Nat) : Byte :=
  s.mem.read ((descAddress s.ringBase i).toNat + k)

/-- The four bytes of descriptor `i` from byte `k` up as one little-endian word (20_memory.md R60,
30_encoding.md R94, R95). -/
def descWord (s : State) (i : Half) (k : Nat) : Word :=
  descByte s i (k + 3) ++ descByte s i (k + 2) ++ descByte s i (k + 1) ++ descByte s i k

/-- The address field of descriptor `i` (30_encoding.md R93). -/
def descAddrField (s : State) (i : Half) : DWord := descWord s i 4 ++ descWord s i 0

/-- The length field of descriptor `i` (30_encoding.md R94). -/
def descLength (s : State) (i : Half) : Half := descByte s i 9 ++ descByte s i 8

/-- The agent whose transaction the event records, if it records one (20_memory.md R72). -/
def Event.agentOf : Event → Option Agent
  | .regRd a _ _ | .regWr a _ _ | .memRd a _ _ _ | .memWr a _ _ _ => some a
  | .consume _ _ _ _ _ | .log _ _ _ | .portReply _ _ _ | .refused _ | .initDone | .quiesced
  | .devMem _ _ | .devHead _ | .devRaise _ => none

end Sys2Proof.Machine
end

