-- ==== Sys2Proof/Certificates/Slice0/Obligations.lean ====
section
/-! DEFINITION. Certificates/Slice0/Obligations.lean: the statements for the provers. Every statement
about an operation that answers a next state gives that state whole, so that every latch, register,
flag and event it does not name is as before; where it stores, it gives every byte of memory through
`Memory.read`. -/

section
open Sys2Proof Sys2Proof.Machine

/-! ## Reset and encoding -/

/-- 70_reset_and_hazards.md R271: the values after reset, and that nothing but a command can happen
then, of which every one but `CmdInit` is refused, by a step that performs no operation (30_encoding.md
R105). How a command waits is the model's (log 9). -/
def Obligations.ResetLeavesEverythingIdle : Prop :=
  (State.reset.life = 0#2 ∧ State.reset.istate = 0x00#8 ∧ State.reset.wstate = 0x00#8 ∧
    State.reset.hstate = 0x00#8 ∧ State.reset.pending = false ∧ State.reset.errSeen = false ∧
    State.reset.errCode = 0#4) ∧
  (∀ a, agentOperation a State.reset = none) ∧ acceptStep State.reset = none ∧
  (∀ c : Command, (∀ base buf, c ≠ .init base buf) →
    agentOperation .hostcmd { State.reset with cmds := [c] } = none ∧
    step { State.reset with cmds := [c], sched := [.agent .hostcmd] } =
      .next { State.reset with trace := [.refused 0#2] }) ∧
  ∀ base buf, base.toNat % 16 = 0 → base.toNat + 16 * 16 ≤ 2 ^ 64 →
    ∃ t, exec .initLatch { State.reset with cmds := [.init base buf] } = .next t ∧
      t.hstate = 0x51#8 ∧ t.trace = []

/-- 30_encoding.md R100, R101: a code decodes to an operation exactly where it is that operation's
code. -/
def Obligations.DecodeAndEncodeAgree : Prop :=
  ∀ (i : Instr) (code : Byte), decode code = .ok i ↔ code = encode i

/-- 30_encoding.md R101: one code of each family, written out bit by bit. -/
def Obligations.SampleCodesDecode : Prop :=
  decode 0b00000010#8 = .ok .rdtR ∧ decode 0b00010101#8 = .ok .advanceTail ∧
  decode 0b00101100#8 = .ok .passClrW ∧ decode 0b00110000#8 = .ok .irqAck ∧
  decode 0b01000001#8 = .ok .portRdT ∧ decode 0b01010011#8 = .ok .initDescU ∧
  decode 0b01100001#8 = .ok .quiesceWait

/-- 30_encoding.md R103: every other value names no operation, and an agent whose sequencer state is a
value 10_state.md R30 to R32 do not list has no step. -/
def Obligations.ReservedCodesNameNothing : Prop :=
  (∀ code : Byte,
    ¬ ((0x01 ≤ code.toNat ∧ code.toNat ≤ 0x09) ∨ (0x10 ≤ code.toNat ∧ code.toNat ≤ 0x17) ∨
       (0x20 ≤ code.toNat ∧ code.toNat ≤ 0x2C) ∨ (0x30 ≤ code.toNat ∧ code.toNat ≤ 0x32) ∨
       (0x40 ≤ code.toNat ∧ code.toNat ≤ 0x42) ∨ (0x50 ≤ code.toNat ∧ code.toNat ≤ 0x58) ∨
       (0x60 ≤ code.toNat ∧ code.toNat ≤ 0x61)) →
    decode code = .error (.reserved code)) ∧
  (∀ s : State, s.wstate ∉ walkerStates → agentOperation .walker s = none) ∧
  (∀ s : State, s.istate ∉ ifeStates → agentOperation .ife s = none) ∧
  (∀ s : State, s.hstate ∉ hostStates → agentOperation .hostcmd s = none ∧ acceptStep s = none)

/-! ## Steps and operations -/

/-- The model's choice (log 8): an operation performed where its rule does not enable it stops with a
fault that names it, and does nothing else. -/
def Obligations.DisabledOperationFaults : Prop :=
  ∀ (i : Instr) (s : State), enabled i s = false → exec i s = .fault (.notEnabled i)

/-- 10_state.md section 2, 20_memory.md R69: where an agent is scheduled, has the code of operation `i`
as what it does next and is enabled for it, the step is `i`, and all else a step does is to take the
entry off the schedule. -/
def Obligations.StepRunsTheSequencedOperation : Prop :=
  ∀ (s : State) (a : Agent) (rest : List Move) (code : Byte) (i : Instr),
    s.sched = .agent a :: rest → s.life ≠ lifeUnused → nextCode a s = some code →
    decode code = .ok i → a.sequences i = true → enabled i s = true →
    step s = exec i { s with sched := rest }

/-- 20_memory.md R69, 44_host_port_lifecycle.md R200, 30_encoding.md R105, and the model's choices of logs
6, 9, 10, 12: what a step is for each of the other entries of a schedule. A scheduled agent without an
operation stays as it is, but for HOSTCMD turning a command away. A computation is of ring arithmetic
only. -/
def Obligations.StepTakesTheOtherMoves : Prop :=
  (∀ s : State, s.sched = [] → step s = .next s) ∧
  (∀ (s : State) (a : Agent) (rest : List Move), s.sched = .agent a :: rest →
    agentOperation a s = none → (a = .hostcmd → acceptStep s = none) →
    step s = .next { s with sched := rest }) ∧
  (∀ (s t : State) (rest : List Move), s.sched = .agent .hostcmd :: rest →
    acceptStep { s with sched := rest } = some t → step s = .next t) ∧
  (∀ (s : State) (i : Instr) (rest : List Move), s.sched = .compute (encode i) :: rest →
    isPure i = true → enabled i s = true → step s = exec i { s with sched := rest }) ∧
  (∀ (s : State) (i : Instr) (rest : List Move), s.sched = .compute (encode i) :: rest →
    isPure i = false ∨ enabled i s = false → step s = .next { s with sched := rest }) ∧
  (∀ (s : State) (code : Byte) (rest : List Move), s.sched = .compute code :: rest →
    (∀ i, code ≠ encode i) → step s = .refused (.reservedCode code)) ∧
  (∀ (s : State) (c : Command) (rest : List Move), s.sched = .command c :: rest → c.ok s.cfg = true →
    step s = .next { s with sched := rest, cmds := s.cmds ++ [c] }) ∧
  (∀ (s : State) (c : Command) (rest : List Move), s.sched = .command c :: rest → c.ok s.cfg = false →
    step s = .next { s with sched := rest }) ∧
  (∀ (s : State) (m : DevMove) (rest : List Move), s.sched = .device m :: rest →
    step s = .next (deviceMove m { s with sched := rest }))

/-- 40_reg_accessors.md R122 to R130, 41_ring_primitives.md R144, R145, R147, their "Used by": the
operations that are transactions are enabled inside the steps that use them, with the operands those
steps pass, and nowhere else (`caller` and operands of the call port: the model's, log 10; the list of
uses: log 11). -/
def Obligations.TransactionsAreEnabledInTheirStepsOnly : Prop :=
  ∀ s : State, s.life ≠ 3#2 →
    (enabled .rdhR s = true ↔
      (s.call.caller = .walker ∧ (s.wstate = 0x21#8 ∨ s.wstate = 0x25#8)) ∨
      (s.call.caller = .hostcmd ∧ s.hstate = 0x00#8 ∧ s.life = 1#2 ∧
        ∃ len rest, s.cmds = .portRead true len :: rest ∧ 4 ≤ len)) ∧
    (enabled .rdtR s = true ↔
      (s.call.caller = .walker ∧ (s.wstate = 0x22#8 ∨ s.wstate = 0x26#8)) ∨
      (s.call.caller = .hostcmd ∧ s.hstate = 0x41#8)) ∧
    (enabled .rdtW s = true ↔
      (s.call.caller = .walker ∧ s.wstate = 0x24#8 ∧
        s.call.argIdx = nextIndex s.cfg.ringSize s.tailC) ∨
      (s.call.caller = .hostcmd ∧ s.hstate = 0x57#8 ∧
        s.call.argIdx = BitVec.ofNat 16 (s.cfg.ringSize - 1))) ∧
    (enabled .icrR s = true ↔
      s.call.caller = .ife ∧ s.life = 1#2 ∧ s.istate = 0x00#8 ∧ irq s.dev = true) ∧
    (enabled .imsW s = true ↔
      (s.call.caller = .ife ∧ s.istate = 0x32#8) ∨ (s.call.caller = .hostcmd ∧ s.hstate = 0x58#8)) ∧
    (enabled .imcW s = true ↔
      s.call.caller = .hostcmd ∧ s.hstate = 0x00#8 ∧ s.life = 1#2 ∧ s.istate = 0x00#8 ∧
        ∃ rest, s.cmds = .quiesce :: rest) ∧
    (enabled .rdbalW s = true ↔ s.call.caller = .hostcmd ∧ s.hstate = 0x55#8) ∧
    (enabled .rdbahW s = true ↔ s.call.caller = .hostcmd ∧ s.hstate = 0x54#8) ∧
    (enabled .rdlenW s = true ↔ s.call.caller = .hostcmd ∧ s.hstate = 0x56#8) ∧
    (enabled .inspect s = true ↔
      s.call.caller = .walker ∧ s.call.argIdx = s.tailC ∧
        (s.wstate = 0x27#8 ∨ s.wstate = 0x28#8 ∨ s.wstate = 0x29#8)) ∧
    (enabled .advanceTail s = true ↔
      s.call.caller = .walker ∧ s.call.argIdx = s.tailC ∧ s.wstate = 0x24#8) ∧
    (enabled .markFree s = true ↔
      s.call.caller = .walker ∧ s.call.argIdx = s.tailC ∧
        (s.wstate = 0x2B#8 ∨ s.wstate = 0x2C#8 ∧ s.call.argByte = s.clrTmp))

/-- 30_encoding.md R106 and the "Used by" lines: a step that uses such an operation has the operation's
effect on the registers, on memory and on the transactions issued, and no other, and latches the
operation's result. `s.asking a i b` is `s` with the call port set for it (log 10). -/
def Obligations.StepsPerformTheirOperations : Prop :=
  ∀ (p op : Instr) (a : Agent) (i : Half) (b : Byte) (s t u : State),
    agentOperation a s = some p → op ∈ innerOperations → enabled op (s.asking a i b) = true →
    exec op (s.asking a i b) = .next u → exec p s = .next t →
    t.dev = u.dev ∧ t.mem = u.mem ∧
    (∃ l, t.trace = l ++ u.trace ∧ ∀ e ∈ l, e.isTransaction = false) ∧
    (∃ e, u.trace = e :: s.trace ∧ e.isTransaction = true ∧ e.agentOf = some a) ∧
    (p = .passSnapH → t.headS = u.call.resIdx) ∧ (p = .passSnapT → t.tailC = u.call.resIdx) ∧
    (op = .advanceTail → t.tailC = u.call.resIdx) ∧
    (p = .passRrH → t.headLive = u.call.resIdx) ∧ (p = .portRdH → t.portH = u.call.resIdx) ∧
    (p = .portRdT → t.trace.head? = some (.portReply true 4#32 (s.portH ++ u.call.resIdx))) ∧
    (p = .irqAck → t.icrLatch = u.call.resWord) ∧
    (p = .passInspU → t.view.status = u.call.resView.status ∧ t.view.errors = u.call.resView.errors) ∧
    (p = .passInspL → t.view.length = u.call.resView.length) ∧
    (p = .passInspA → t.view.addr = u.call.resView.addr) ∧
    (p = .passClrR → t.clrTmp = u.call.resByte)

/-! ## Family REG (40_reg_accessors.md) -/

/-- R122, R123: the index is bits 15:0 of the register, whatever its upper half; nothing else changes.
That operands and results stand in the call port, here and below, is the model's (log 10). -/
def Obligations.IndexReadsTakeTheLowHalf : Prop :=
  ∀ s : State,
    (enabled .rdhR s = true → exec .rdhR s = .next { s with
      call := { s.call with resIdx := s.dev.rdh.setWidth 16 },
      trace := .regRd s.call.caller s.cfg.offRdh s.dev.rdh :: s.trace }) ∧
    (enabled .rdtR s = true → exec .rdtR s = .next { s with
      call := { s.call with resIdx := s.dev.rdt.setWidth 16 },
      trace := .regRd s.call.caller s.cfg.offRdt s.dev.rdt :: s.trace })

/-- R125: the cause read returns `cause` (in the call port, log 10) and clears it; the signal is then
deasserted, and a cause read would return 0 and change no register. -/
def Obligations.CauseReadClears : Prop :=
  ∀ s : State, enabled .icrR s = true →
    ∃ t, exec .icrR s = .next t ∧
      t = { s with
        dev := { s.dev with cause := 0#32 },
        call := { s.call with resWord := s.dev.cause },
        trace := .regRd .ife s.cfg.offIcr s.dev.cause :: s.trace } ∧
      irq t.dev = false ∧ ∀ a, ∃ u, readCause a t = .next (0#32, u) ∧ u.dev = t.dev

/-- R124, R126 to R130 (operand in the call port, log 10): what each register write leaves in the DEVICE.
RDT takes the index with an upper half of zero; IMS sets bits and IMC clears bits, one by one. -/
def Obligations.RegisterWritesReachTheDevice : Prop :=
  ∀ s : State,
    (enabled .rdtW s = true →
      ∃ v : Word, v.toNat = s.call.argIdx.toNat ∧
        exec .rdtW s = .next { s with
          dev := { s.dev with rdt := v },
          trace := .regWr s.call.caller s.cfg.offRdt v :: s.trace }) ∧
    (enabled .imsW s = true →
      ∃ m : Word, (∀ k < 32, m.getLsbD k = (s.dev.mask.getLsbD k || s.cfg.irqEnableMask.getLsbD k)) ∧
        exec .imsW s = .next { s with
          dev := { s.dev with mask := m },
          trace := .regWr s.call.caller s.cfg.offIms s.cfg.irqEnableMask :: s.trace }) ∧
    (enabled .imcW s = true →
      ∃ m : Word,
        (∀ k < 32, m.getLsbD k = (s.dev.mask.getLsbD k && !s.cfg.irqDisableMask.getLsbD k)) ∧
        exec .imcW s = .next { s with
          dev := { s.dev with mask := m },
          trace := .regWr .hostcmd s.cfg.offImc s.cfg.irqDisableMask :: s.trace }) ∧
    (∃ lo hi : Word, hi ++ lo = s.ringBase ∧
      (enabled .rdbalW s = true → exec .rdbalW s = .next { s with
        dev := { s.dev with rdbal := lo },
        trace := .regWr .hostcmd s.cfg.offRdbal lo :: s.trace }) ∧
      (enabled .rdbahW s = true → exec .rdbahW s = .next { s with
        dev := { s.dev with rdbah := hi },
        trace := .regWr .hostcmd s.cfg.offRdbah hi :: s.trace })) ∧
    (s.cfg.Ok → enabled .rdlenW s = true → ∃ n : Word, n.toNat = s.cfg.ringSize * 16 ∧
      exec .rdlenW s = .next { s with
        dev := { s.dev with rdlen := n },
        trace := .regWr .hostcmd s.cfg.offRdlen n :: s.trace })

/-- R120, R121, R131, 20_memory.md R63, R65, R78: the accesses that are no operation of RXW are refused by
name: a read of any register but RDH, RDT, ICR, a write of CTRL, STATUS, RCTL, RDH or ICR, and a memory
access that is misaligned, outside the ring, or not of 1, 4 or 8 bytes. -/
def Obligations.ForbiddenAccessesAreRefused : Prop :=
  (∀ (a : Agent) (r : Reg) (s : State), r ∉ [.rdh, .rdt, .icr] →
    rd32 a r s = .refused (.registerNotReadable r)) ∧
  (∀ (a : Agent) (r : Reg) (v : Word) (s : State), r ∈ [.ctrl, .status, .rctl, .rdh, .icr] →
    wr32 a r v s = .refused (.registerNotWritable r)) ∧
  ∀ (a : Agent) (addr v : DWord) (n : Nat) (s : State),
    (n ∉ [1, 4, 8] → memRead a addr n s = .refused (.badSize n) ∧
      memWrite a addr n v s = .refused (.badSize n)) ∧
    (n ∈ [1, 4, 8] → addr.toNat % n ≠ 0 → memRead a addr n s = .refused (.misaligned addr n) ∧
      memWrite a addr n v s = .refused (.misaligned addr n)) ∧
    (n ∈ [1, 4, 8] → addr.toNat % n = 0 →
      addr.toNat < s.ringBase.toNat ∨ s.ringBase.toNat + 16 * s.cfg.ringSize < addr.toNat + n →
      memRead a addr n s = .refused (.outsideRing addr n) ∧
        memWrite a addr n v s = .refused (.outsideRing addr n))

/-! ## Family RING (41_ring_primitives.md) -/

/-- R140, R141, R142, R146: the results of NEXT, PREV, DESC_ADDR and ISDONE as numbers and bits; they
write nothing but their result (operands and results in the call port, log 10). DESC_ADDR is asked of a
ring whose base INIT has taken: 10_state.md R37. -/
def Obligations.RingArithmeticResults : Prop :=
  ∀ s : State, s.cfg.Ok →
    (∃ r : Half, r.toNat = (s.call.argIdx.toNat + 1) % s.cfg.ringSize ∧
      exec .nextIdx s = .next { s with call := { s.call with resIdx := r } }) ∧
    (s.call.argIdx.toNat < s.cfg.ringSize → ∃ r : Half,
      r.toNat = (if s.call.argIdx.toNat = 0 then s.cfg.ringSize - 1 else s.call.argIdx.toNat - 1) ∧
      exec .prevIdx s = .next { s with call := { s.call with resIdx := r } }) ∧
    (s.life ≠ 0#2 ∨ s.hstate ∈ initStates → goodBase s.cfg s.ringBase = true →
      s.call.argIdx.toNat < s.cfg.ringSize → ∃ r : DWord,
      r.toNat = s.ringBase.toNat + 16 * s.call.argIdx.toNat ∧
      exec .descAddr s = .next { s with call := { s.call with resAddr := r } }) ∧
    (∃ r : Bool, (r = true ↔ ∀ k < 8, s.cfg.doneMask.getLsbD k = true → s.call.argByte.getLsbD k = true) ∧
      exec .isdone s = .next { s with call := { s.call with resBit := r } })

/-- R143: PENDCNT of a head and tail in range (operands and result in the call port, log 10). -/
def Obligations.PendingCountResult : Prop :=
  ∀ s : State, s.cfg.Ok →
    s.call.argIdx.toNat < s.cfg.ringSize → s.call.argIdx2.toNat < s.cfg.ringSize →
    ∃ r : Count, r.toNat =
        ((if s.call.argIdx.toNat = 0 then s.cfg.ringSize - 1 else s.call.argIdx.toNat - 1)
          + s.cfg.ringSize - s.call.argIdx2.toNat) % s.cfg.ringSize ∧
      r.toNat < s.cfg.ringSize ∧
      exec .pendcnt s = .next { s with call := { s.call with resCount := r } }

/-- R144: INSPECT reads the upper word, the lower word and the address field, each by itself in the pass
step of that part (30_encoding.md R106), and gives status, errors, length and address byte for byte; a
part writes nothing but its result (call port, log 10). Three steps of the WALKER with nothing between
give the whole view and the three reads in this order. -/
def Obligations.InspectReadsTheDescriptor : Prop :=
  ∀ s : State, s.cfg.Ok → goodBase s.cfg s.ringBase = true → s.tailC.toNat < s.cfg.ringSize →
    (enabled .inspect s = true →
      (s.wstate = 0x27#8 → exec .inspect s = .next { s with
        call := { s.call with resView := { s.call.resView with
          status := descByte s s.call.argIdx 12, errors := descByte s s.call.argIdx 13 } },
        trace := .memRd .walker (descAddress s.ringBase s.call.argIdx + 12#64) 4
          ((descWord s s.call.argIdx 12).setWidth 64) :: s.trace }) ∧
      (s.wstate = 0x28#8 → exec .inspect s = .next { s with
        call := { s.call with resView := { s.call.resView with
          length := descLength s s.call.argIdx } },
        trace := .memRd .walker (descAddress s.ringBase s.call.argIdx + 8#64) 4
          ((descWord s s.call.argIdx 8).setWidth 64) :: s.trace }) ∧
      (s.wstate = 0x29#8 → exec .inspect s = .next { s with
        call := { s.call with resView := { s.call.resView with
          addr := descAddrField s s.call.argIdx } },
        trace := .memRd .walker (descAddress s.ringBase s.call.argIdx) 8
          (descAddrField s s.call.argIdx) :: s.trace })) ∧
    (s.life ≠ 3#2 → s.wstate = 0x27#8 →
      run 3 (s.scheduled 3 .walker) = .next { s with
        sched := [],
        view := { status := descByte s s.tailC 12, errors := descByte s s.tailC 13,
                  length := descLength s s.tailC, addr := descAddrField s s.tailC },
        wstate := if descByte s s.tailC 12 &&& s.cfg.doneMask = s.cfg.doneMask then 0x2A#8 else 0x23#8,
        trace :=
          .memRd .walker (descAddress s.ringBase s.tailC) 8 (descAddrField s s.tailC) ::
          .memRd .walker (descAddress s.ringBase s.tailC + 8#64) 4
            ((descWord s s.tailC 8).setWidth 64) ::
          .memRd .walker (descAddress s.ringBase s.tailC + 12#64) 4
            ((descWord s s.tailC 12).setWidth 64) :: s.trace })

/-- R145: ADVANCE_TAIL writes the successor to RDT and returns it (call port, log 10). -/
def Obligations.AdvanceTailWritesTheSuccessor : Prop :=
  ∀ s : State, s.cfg.Ok → enabled .advanceTail s = true →
    ∃ (r : Half) (v : Word), r.toNat = (s.call.argIdx.toNat + 1) % s.cfg.ringSize ∧
      v.toNat = r.toNat ∧
      exec .advanceTail s = .next { s with
        dev := { s.dev with rdt := v },
        call := { s.call with resIdx := r },
        trace := .regWr .walker s.cfg.offRdt v :: s.trace }

/-- R147: MARK_FREE reads the status byte at `DESC_ADDR(i) + 12` and writes it back with the done bits
clear, each by itself in the pass step of that part (30_encoding.md R106); every other byte of memory is
as before (operand and result in the call port, log 10). Two steps of the WALKER with nothing between
clear the done bits of the byte in memory. -/
def Obligations.MarkFreeClearsTheDoneBits : Prop :=
  ∀ s : State, s.cfg.Ok → s.mem.wf = true → goodBase s.cfg s.ringBase = true →
    s.tailC.toNat < s.cfg.ringSize →
    (enabled .markFree s = true →
      (s.wstate = 0x2B#8 → exec .markFree s = .next { s with
        call := { s.call with resByte := descByte s s.call.argIdx 12 },
        trace := .memRd .walker (descAddress s.ringBase s.call.argIdx + 12#64) 1
          ((descByte s s.call.argIdx 12).setWidth 64) :: s.trace }) ∧
      (s.wstate = 0x2C#8 → ∃ t, exec .markFree s = .next t ∧
        t = { s with
          mem := t.mem,
          trace := .memWr .walker (descAddress s.ringBase s.call.argIdx + 12#64) 1
            ((s.call.argByte &&& ~~~s.cfg.doneMask).setWidth 64) :: s.trace } ∧
        t.mem.wf = true ∧
        ∀ x, t.mem.read x = if x = (descAddress s.ringBase s.call.argIdx + 12#64).toNat
          then s.call.argByte &&& ~~~s.cfg.doneMask else s.mem.read x)) ∧
    (s.life ≠ 3#2 → s.wstate = 0x2B#8 →
      ∃ t, run 2 (s.scheduled 2 .walker) = .next t ∧
        t = { s with
          sched := [], clrTmp := descByte s s.tailC 12, wstate := 0x23#8, mem := t.mem,
          trace := .memWr .walker (descAddress s.ringBase s.tailC + 12#64) 1
              ((descByte s s.tailC 12 &&& ~~~s.cfg.doneMask).setWidth 64) ::
            .memRd .walker (descAddress s.ringBase s.tailC + 12#64) 1
              ((descByte s s.tailC 12).setWidth 64) :: s.trace } ∧
        t.mem.wf = true ∧
        ∀ x, t.mem.read x = if x = (descAddress s.ringBase s.tailC + 12#64).toNat
          then descByte s s.tailC 12 &&& ~~~s.cfg.doneMask else s.mem.read x)

/-- R148: NEXT applied `k` times adds `k` round the ring, applied `N` times returns; PREV is its inverse;
PENDCNT is the least number of NEXTs that lead from the tail to the predecessor of the head. -/
def Obligations.RingLaws : Prop :=
  ∀ n, 2 ≤ n → n ≤ 65536 → ∀ i : Half, i.toNat < n →
    (∀ k, ((nextIndex n)^[k] i).toNat = (i.toNat + k) % n) ∧
    (nextIndex n)^[n] i = i ∧
    (∀ k, 0 < k → k < n → (nextIndex n)^[k] i ≠ i) ∧
    prevIndex n (nextIndex n i) = i ∧ nextIndex n (prevIndex n i) = i ∧
    ∀ t : Half, t.toNat < n →
      (nextIndex n)^[(pendingCount n i t).toNat] t = prevIndex n i ∧
      ∀ k, (nextIndex n)^[k] t = prevIndex n i → (pendingCount n i t).toNat ≤ k

/-- 10_state.md R46: every index is in exactly one of the two windows; the head is in the hardware window
unless it is the tail; the hardware window has `(t - h) mod N` members and the software window the rest;
the tail's is the software window; all between the tail and the head's predecessor, whose number is
PENDCNT, are software's. -/
def Obligations.WindowsShareTheRing : Prop :=
  ∀ (n : Nat) (h t i : Half), 2 ≤ n → n ≤ 65536 → h.toNat < n → t.toNat < n → i.toNat < n →
    inHardwareWindow n h t i = !inSoftwareWindow n h t i ∧
    (inHardwareWindow n h t h = true ↔ h ≠ t) ∧
    ((List.range n).filter fun j => inHardwareWindow n h t (BitVec.ofNat 16 j)).length =
      (t.toNat + n - h.toNat) % n ∧
    ((List.range n).filter fun j => inSoftwareWindow n h t (BitVec.ofNat 16 j)).length =
      n - (t.toNat + n - h.toNat) % n ∧
    inSoftwareWindow n h t t = true ∧
    (∀ k ≤ (pendingCount n h t).toNat, inSoftwareWindow n h t ((nextIndex n)^[k] t) = true)

/-! ## Family PASS (42_service_pass.md) -/

/-- R160. -/
def Obligations.PassStartTakesTheQueuedWork : Prop :=
  ∀ s : State, s.life = 1#2 → s.wstate = 0x00#8 → s.pending = true →
    exec .passStart s = .next { s with
      pending := false, iter := 0#17, passConsumed := 0#17, wstate := 0x21#8 }

/-- R161, R162: the two snapshots; an index not below `N` abandons the pass with `E_INDEX_RANGE`. -/
def Obligations.PassSnapshotsHeadAndTail : Prop :=
  (∀ s : State, s.wstate = 0x21#8 →
    exec .passSnapH s = .next { s with
      headS := s.dev.rdh.setWidth 16, wstate := 0x22#8,
      trace := .regRd .walker s.cfg.offRdh s.dev.rdh :: s.trace }) ∧
  (∀ s : State, s.cfg.Ok → s.wstate = 0x22#8 →
    (s.headS.toNat < s.cfg.ringSize → (s.dev.rdt.setWidth 16).toNat < s.cfg.ringSize →
      ∃ p : Half, p.toNat = (if s.headS.toNat = 0 then s.cfg.ringSize - 1 else s.headS.toNat - 1) ∧
        exec .passSnapT s = .next { s with
          tailC := s.dev.rdt.setWidth 16, prevHead := p, wstate := 0x23#8,
          trace := .regRd .walker s.cfg.offRdt s.dev.rdt :: s.trace }) ∧
    (s.cfg.ringSize ≤ s.headS.toNat ∨ s.cfg.ringSize ≤ (s.dev.rdt.setWidth 16).toNat →
      exec .passSnapT s = .next { s with
        tailC := s.dev.rdt.setWidth 16, errSeen := true, errCode := 1#4, wstate := 0x00#8,
        trace := .log 1#4 s.headS (s.dev.rdt.setWidth 16) ::
          .regRd .walker s.cfg.offRdt s.dev.rdt :: s.trace }))

/-- R163: completion is tested before the cap. -/
def Obligations.PassTestDecides : Prop :=
  ∀ s : State, s.wstate = 0x23#8 →
    (s.tailC = s.prevHead → exec .passTest s = .next { s with wstate := 0x00#8 }) ∧
    (s.tailC ≠ s.prevHead → s.iter.toNat < s.cfg.iterCap →
      exec .passTest s = .next { s with wstate := 0x24#8 }) ∧
    (s.tailC ≠ s.prevHead → s.cfg.iterCap ≤ s.iter.toNat →
      exec .passTest s = .next { s with
        errSeen := true, errCode := 3#4, wstate := 0x00#8,
        trace := .log 3#4 s.headS s.tailC :: s.trace })

/-- R164: the cursor and RDT take the successor, `iter` counts. -/
def Obligations.PassAdvanceWritesTheTail : Prop :=
  ∀ s : State, s.cfg.Ok → s.wstate = 0x24#8 →
    ∃ (r : Half) (v : Word), r.toNat = (s.tailC.toNat + 1) % s.cfg.ringSize ∧ v.toNat = r.toNat ∧
      exec .passAdv s = .next { s with
        tailC := r, iter := s.iter + 1#17, wstate := 0x25#8, dev := { s.dev with rdt := v },
        trace := .regWr .walker s.cfg.offRdt v :: s.trace }

/-- R165, R166: the re-reads; a head not below `N` and a tail that is not `tail_c` abandon the pass. -/
def Obligations.PassRereadsHeadAndTail : Prop :=
  (∀ s : State, s.wstate = 0x25#8 →
    ((s.dev.rdh.setWidth 16).toNat < s.cfg.ringSize →
      exec .passRrH s = .next { s with
        headLive := s.dev.rdh.setWidth 16, wstate := 0x26#8,
        trace := .regRd .walker s.cfg.offRdh s.dev.rdh :: s.trace }) ∧
    (s.cfg.ringSize ≤ (s.dev.rdh.setWidth 16).toNat →
      exec .passRrH s = .next { s with
        headLive := s.dev.rdh.setWidth 16, errSeen := true, errCode := 1#4, wstate := 0x00#8,
        trace := .log 1#4 (s.dev.rdh.setWidth 16) s.tailC ::
          .regRd .walker s.cfg.offRdh s.dev.rdh :: s.trace })) ∧
  (∀ s : State, s.wstate = 0x26#8 →
    (s.dev.rdt.setWidth 16 = s.tailC →
      exec .passRrT s = .next { s with
        wstate := 0x27#8, trace := .regRd .walker s.cfg.offRdt s.dev.rdt :: s.trace }) ∧
    (s.dev.rdt.setWidth 16 ≠ s.tailC →
      exec .passRrT s = .next { s with
        errSeen := true, errCode := 2#4, wstate := 0x00#8,
        trace := .log 2#4 s.headLive (s.dev.rdt.setWidth 16) ::
          .regRd .walker s.cfg.offRdt s.dev.rdt :: s.trace }))

/-- R167 to R169: the three reads of the descriptor at `tail_c`, byte for byte, and the branch on the
done bits. -/
def Obligations.PassInspectsTheDescriptor : Prop :=
  ∀ s : State, s.cfg.Ok → goodBase s.cfg s.ringBase = true → s.tailC.toNat < s.cfg.ringSize →
    (s.wstate = 0x27#8 →
      exec .passInspU s = .next { s with
        view := { s.view with status := descByte s s.tailC 12, errors := descByte s s.tailC 13 },
        wstate := 0x28#8,
        trace := .memRd .walker (descAddress s.ringBase s.tailC + 12#64) 4
          ((descWord s s.tailC 12).setWidth 64) :: s.trace }) ∧
    (s.wstate = 0x28#8 →
      exec .passInspL s = .next { s with
        view := { s.view with length := descLength s s.tailC },
        wstate := 0x29#8,
        trace := .memRd .walker (descAddress s.ringBase s.tailC + 8#64) 4
          ((descWord s s.tailC 8).setWidth 64) :: s.trace }) ∧
    (s.wstate = 0x29#8 →
      exec .passInspA s = .next { s with
        view := { s.view with addr := descAddrField s s.tailC },
        wstate := if s.view.status &&& s.cfg.doneMask = s.cfg.doneMask then 0x2A#8 else 0x23#8,
        trace := .memRd .walker (descAddress s.ringBase s.tailC) 8 (descAddrField s s.tailC) ::
          s.trace })

/-- R170: the `Consume` event carries the latched view. -/
def Obligations.PassConsumeReportsTheView : Prop :=
  ∀ s : State, s.wstate = 0x2A#8 →
    exec .passConsume s = .next { s with
      passConsumed := s.passConsumed + 1#17, wstate := 0x2B#8,
      trace := .consume s.tailC s.view.addr s.view.length s.view.status s.view.errors :: s.trace }

/-- R171, R172: the status byte is read afresh, and written back with the done bits clear; every other
byte of memory is as before. -/
def Obligations.PassRecyclesTheDescriptor : Prop :=
  ∀ s : State, s.cfg.Ok → s.mem.wf = true → goodBase s.cfg s.ringBase = true →
    s.tailC.toNat < s.cfg.ringSize →
    (s.wstate = 0x2B#8 →
      exec .passClrR s = .next { s with
        clrTmp := descByte s s.tailC 12, wstate := 0x2C#8,
        trace := .memRd .walker (descAddress s.ringBase s.tailC + 12#64) 1
          ((descByte s s.tailC 12).setWidth 64) :: s.trace }) ∧
    (s.wstate = 0x2C#8 →
      ∃ t, exec .passClrW s = .next t ∧
        t = { s with
          mem := t.mem, wstate := 0x23#8,
          trace := .memWr .walker (descAddress s.ringBase s.tailC + 12#64) 1
            ((s.clrTmp &&& ~~~s.cfg.doneMask).setWidth 64) :: s.trace } ∧
        t.mem.wf = true ∧
        ∀ x, t.mem.read x = if x = (descAddress s.ringBase s.tailC + 12#64).toNat
          then s.clrTmp &&& ~~~s.cfg.doneMask else s.mem.read x)

/-- R185: no pass writes RDH, any byte but the status bytes of descriptors, or RDT with anything but the
successor of its previous value: neither in what changes nor in the writes that its steps issue. -/
def Obligations.PassWritesOnlyStatusAndTail : Prop :=
  ∀ (i : Instr) (s t : State), Invariant s → i.family = 0x2#4 → exec i s = .next t →
    t.dev.rdh = s.dev.rdh ∧
    (t.dev.rdt = s.dev.rdt ∨
      t.dev.rdt.toNat = ((s.dev.rdt.setWidth 16).toNat + 1) % s.cfg.ringSize) ∧
    (∀ x, (∀ j : Half, j.toNat < s.cfg.ringSize → x ≠ s.ringBase.toNat + 16 * j.toNat + 12) →
      t.mem.read x = s.mem.read x) ∧
    ∃ l, t.trace = l ++ s.trace ∧ ∀ e ∈ l,
      (∀ a off v, e = .regWr a off v → off = s.cfg.offRdt ∧
        v.toNat = ((s.dev.rdt.setWidth 16).toNat + 1) % s.cfg.ringSize) ∧
      (∀ a addr n v, e = .memWr a addr n v → n = 1 ∧
        ∃ j : Half, j.toNat < s.cfg.ringSize ∧ addr.toNat = s.ringBase.toNat + 16 * j.toNat + 12)

/-- R175, 60_exceptions.md R231: the record of a failure changes only by an abandon, which is one of four
steps, logs what it saw, idles the WALKER, and leaves `pending`, every register of the DEVICE and every
descriptor as the step found them. -/
def Obligations.OnlyAbandonRecordsAFailure : Prop :=
  ∀ (i : Instr) (s t : State), exec i s = .next t →
    (t.errSeen = s.errSeen ∧ t.errCode = s.errCode) ∨
    ((i = .passSnapT ∨ i = .passTest ∨ i = .passRrH ∨ i = .passRrT) ∧
      t.errSeen = true ∧ t.errCode ≠ 0#4 ∧ t.errCode.toNat ≤ 3 ∧
      (∃ head tail l, t.trace = .log t.errCode head tail :: l) ∧
      t.wstate = 0x00#8 ∧ t.pending = s.pending ∧ t.dev = s.dev ∧ t.mem = s.mem)

/-! ## Family IRQ (43_irq_front_end.md) -/

/-- R190 to R192: cause read, schedule, re-arm. -/
def Obligations.FrontEndSteps : Prop :=
  (∀ s : State, s.life = 1#2 → s.istate = 0x00#8 → s.dev.cause &&& s.dev.mask ≠ 0#32 →
    exec .irqAck s = .next { s with
      icrLatch := s.dev.cause, istate := 0x31#8, dev := { s.dev with cause := 0#32 },
      trace := .regRd .ife s.cfg.offIcr s.dev.cause :: s.trace }) ∧
  (∀ s : State, s.istate = 0x31#8 →
    exec .irqSched s = .next { s with pending := true, istate := 0x32#8 }) ∧
  (∀ s : State, s.istate = 0x32#8 →
    exec .irqRearm s = .next { s with
      istate := 0x00#8, dev := { s.dev with mask := s.dev.mask ||| s.cfg.irqEnableMask },
      trace := .regWr .ife s.cfg.offIms s.cfg.irqEnableMask :: s.trace })

/-- R194: once begun, the next step of an acknowledge is enabled whatever else is the case and completes;
each of its steps contains at most one transaction; an acknowledge is three steps and two transactions.
-/
def Obligations.AcknowledgeNeverBlocks : Prop :=
  (∀ s : State, s.life ≠ lifeUnused →
    (s.istate = 0x31#8 → agentOperation .ife s = some .irqSched ∧ ∃ t, exec .irqSched s = .next t) ∧
    (s.istate = 0x32#8 → agentOperation .ife s = some .irqRearm ∧ ∃ t, exec .irqRearm s = .next t)) ∧
  (∀ (i : Instr) (s t : State), Agent.sequences .ife i = true → exec i s = .next t →
    ∃ l, t.trace = l ++ s.trace ∧ (l.filter Event.isTransaction).length ≤ 1) ∧
  ∀ s : State, s.life = 1#2 → s.istate = 0x00#8 → irq s.dev = true →
    run 3 (s.scheduled 3 .ife) = .next { s with
      sched := [], pending := true, icrLatch := s.dev.cause,
      dev := { s.dev with cause := 0#32, mask := s.dev.mask ||| s.cfg.irqEnableMask },
      trace := .regWr .ife s.cfg.offIms s.cfg.irqEnableMask ::
        .regRd .ife s.cfg.offIcr s.dev.cause :: s.trace }

/-- R193: what the front end does neither depends on nor changes the ring's base, ring memory, RDH, RDT
or any WALKER latch, and its transactions are on ICR and IMS alone. -/
def Obligations.FrontEndNeverTouchesTheRing : Prop :=
  ∀ (i : Instr) (s t u : State), Agent.sequences .ife i = true → exec i s = .next t →
    exec i (s.withRingOf u) = .next (t.withRingOf u) ∧ t = t.withRingOf s ∧
    ∃ l, t.trace = l ++ s.trace ∧ ∀ e ∈ l,
      e = .regRd .ife s.cfg.offIcr s.dev.cause ∨ e = .regWr .ife s.cfg.offIms s.cfg.irqEnableMask

/-- 60_exceptions.md R237: the signal is asserted exactly where some bit is both pending and enabled. -/
def Obligations.SignalIsPendingAndEnabled : Prop :=
  ∀ d : Device, irq d = true ↔ ∃ k < 32, d.cause.getLsbD k = true ∧ d.mask.getLsbD k = true

/-! ## Families PORT, INIT, QUIESCE (44_host_port_lifecycle.md) -/

/-- R200 rows 1 to 4, R201, R202: a port read. A command that is refused, or whose arguments are invalid,
is taken by a step that performs no operation (30_encoding.md R105). How a command waits is the model's
(log 9), and so is that nothing is done in the unused lifecycle state (log 17, DEDUCED). -/
def Obligations.PortReadReplies : Prop :=
  (∀ (s : State) (present : Bool) (len : Nat) (rest : List Command),
    s.hstate = 0x00#8 → s.cmds = .portRead present len :: rest →
    (∀ moves, s.sched = .agent .hostcmd :: moves → s.life ≠ 3#2 →
      (s.life ≠ 1#2 → agentOperation .hostcmd s = none ∧ step s = .next { s with
        sched := moves, cmds := rest, trace := .refused 0#2 :: s.trace }) ∧
      (s.life = 1#2 → present = false ∨ len ≤ 3 →
        agentOperation .hostcmd s = none ∧ step s = .next { s with
          sched := moves, cmds := rest, trace := .portReply false 0#32 0#32 :: s.trace })) ∧
    (s.life = 1#2 → present = true → 4 ≤ len → exec .portRdH s = .next { s with
      cmds := rest, portH := s.dev.rdh.setWidth 16, hstate := 0x41#8,
      trace := .regRd .hostcmd s.cfg.offRdh s.dev.rdh :: s.trace })) ∧
  (∀ s : State, s.hstate = 0x41#8 →
    exec .portRdT s = .next { s with
      hstate := 0x00#8,
      trace := .portReply true 4#32 (s.portH ++ s.dev.rdt.setWidth 16) ::
        .regRd .hostcmd s.cfg.offRdt s.dev.rdt :: s.trace })

/-- R200 rows 5 to 7, R203: a port write. A command that is refused, or whose arguments are invalid, is
taken by a step that performs no operation (30_encoding.md R105). How a command waits is the model's
(log 9), and so is that nothing is done in the unused lifecycle state (log 17, DEDUCED). -/
def Obligations.PortWriteIsAcknowledged : Prop :=
  ∀ (s : State) (present : Bool) (len : Nat) (rest : List Command),
    s.hstate = 0x00#8 → s.cmds = .portWrite present len :: rest →
    (∀ moves, s.sched = .agent .hostcmd :: moves → s.life ≠ 3#2 →
      (s.life ≠ 1#2 → agentOperation .hostcmd s = none ∧ step s = .next { s with
        sched := moves, cmds := rest, trace := .refused 0#2 :: s.trace }) ∧
      (s.life = 1#2 → present = false ∨ len = 0 →
        agentOperation .hostcmd s = none ∧ step s = .next { s with
          sched := moves, cmds := rest, trace := .portReply false 0#32 0#32 :: s.trace })) ∧
    (s.life = 1#2 → present = true → 1 ≤ len → exec .portWrite s = .next { s with
      cmds := rest, trace := .portReply true (BitVec.ofNat 32 len) 0#32 :: s.trace })

/-- 30_encoding.md R98: head in the upper half, tail in the lower, as four bytes the lowest first. -/
def Obligations.PortWordBytes : Prop :=
  ∀ head tail : Half,
    (portWord head tail).extractLsb' 16 16 = head ∧ (portWord head tail).extractLsb' 0 16 = tail ∧
    portBytes (portWord head tail) =
      [tail.extractLsb' 0 8, tail.extractLsb' 8 8, head.extractLsb' 0 8, head.extractLsb' 8 8]

/-- R200 rows 8 to 10, R207: INIT's command; `life` is tested before the base. A command that is refused is
taken by a step that performs no operation (30_encoding.md R105). How a command waits is the model's
(log 9), and so is that nothing is done in the unused lifecycle state (log 17, DEDUCED). -/
def Obligations.InitLatchTakesOrRefuses : Prop :=
  ∀ (s : State) (base : DWord) (buf : List DWord) (rest : List Command),
    s.hstate = 0x00#8 → s.cmds = .init base buf :: rest →
    (∀ moves, s.sched = .agent .hostcmd :: moves → s.life ≠ 3#2 →
      (s.life ≠ 0#2 → agentOperation .hostcmd s = none ∧ step s = .next { s with
        sched := moves, cmds := rest, trace := .refused 1#2 :: s.trace }) ∧
      (s.life = 0#2 → base.toNat % 16 ≠ 0 ∨ 2 ^ 64 < base.toNat + s.cfg.ringSize * 16 →
        agentOperation .hostcmd s = none ∧ step s = .next { s with
          sched := moves, cmds := rest, trace := .refused 2#2 :: s.trace })) ∧
    (s.life = 0#2 → base.toNat % 16 = 0 → base.toNat + s.cfg.ringSize * 16 ≤ 2 ^ 64 →
      exec .initLatch s = .next { s with
        cmds := rest, initBase := base, initBuf := buf, ringBase := base, initI := 0#17,
        hstate := 0x51#8 })

/-- R208 to R210: the three writes of one descriptor; every byte outside the one written is as before. -/
def Obligations.InitWritesOneDescriptor : Prop :=
  ∀ s : State, s.cfg.Ok → s.mem.wf = true → goodBase s.cfg s.ringBase = true →
    s.initI.toNat < s.cfg.ringSize →
    (initDescAddress s).toNat = s.ringBase.toNat + 16 * s.initI.toNat ∧
    (∀ b : DWord, s.hstate = 0x51#8 → s.initBuf[s.initI.toNat]? = some b →
      ∃ t, exec .initDescA s = .next t ∧
        t = { s with
          mem := t.mem, hstate := 0x52#8,
          trace := .memWr .hostcmd (initDescAddress s) 8 b :: s.trace } ∧
        t.mem.wf = true ∧
        (∀ k < 8, t.mem.read ((initDescAddress s).toNat + k) = b.extractLsb' (8 * k) 8) ∧
        ∀ x, x < (initDescAddress s).toNat ∨ (initDescAddress s).toNat + 8 ≤ x →
          t.mem.read x = s.mem.read x) ∧
    (s.hstate = 0x52#8 →
      ∃ t, exec .initDescL s = .next t ∧
        t = { s with
          mem := t.mem, hstate := 0x53#8,
          trace := .memWr .hostcmd (initDescAddress s + 8#64) 4 0#64 :: s.trace } ∧
        t.mem.wf = true ∧
        (∀ k < 4, t.mem.read ((initDescAddress s + 8#64).toNat + k) = 0#8) ∧
        ∀ x, x < (initDescAddress s + 8#64).toNat ∨ (initDescAddress s + 8#64).toNat + 4 ≤ x →
          t.mem.read x = s.mem.read x) ∧
    (s.hstate = 0x53#8 →
      ∃ t, exec .initDescU s = .next t ∧
        t = { s with
          mem := t.mem,
          initI := if s.initI.toNat + 1 < s.cfg.ringSize then s.initI + 1#17 else s.initI,
          hstate := if s.initI.toNat + 1 < s.cfg.ringSize then 0x51#8 else 0x54#8,
          trace := .memWr .hostcmd (initDescAddress s + 12#64) 4 0#64 :: s.trace } ∧
        t.mem.wf = true ∧
        (∀ k < 4, t.mem.read ((initDescAddress s + 12#64).toNat + k) = 0#8) ∧
        ∀ x, x < (initDescAddress s + 12#64).toNat ∨ (initDescAddress s + 12#64).toNat + 4 ≤ x →
          t.mem.read x = s.mem.read x)

/-- R211 to R215: the register writes of INIT and the arming. -/
def Obligations.InitProgramsTheRegisters : Prop :=
  ∀ s : State, s.cfg.Ok →
    (∃ lo hi : Word, hi ++ lo = s.ringBase ∧
      (s.hstate = 0x54#8 → exec .initBah s = .next { s with
        hstate := 0x55#8, dev := { s.dev with rdbah := hi },
        trace := .regWr .hostcmd s.cfg.offRdbah hi :: s.trace }) ∧
      (s.hstate = 0x55#8 → exec .initBal s = .next { s with
        hstate := 0x56#8, dev := { s.dev with rdbal := lo },
        trace := .regWr .hostcmd s.cfg.offRdbal lo :: s.trace })) ∧
    (∃ n : Word, n.toNat = s.cfg.ringSize * 16 ∧
      (s.hstate = 0x56#8 → exec .initLen s = .next { s with
        hstate := 0x57#8, dev := { s.dev with rdlen := n },
        trace := .regWr .hostcmd s.cfg.offRdlen n :: s.trace })) ∧
    (∃ v : Word, v.toNat = s.cfg.ringSize - 1 ∧
      (s.hstate = 0x57#8 → exec .initTail s = .next { s with
        hstate := 0x58#8, dev := { s.dev with rdt := v },
        trace := .regWr .hostcmd s.cfg.offRdt v :: s.trace })) ∧
    (s.hstate = 0x58#8 → exec .initArm s = .next { s with
      life := 1#2, hstate := 0x00#8,
      dev := { s.dev with mask := s.dev.mask ||| s.cfg.irqEnableMask },
      trace := .initDone :: .regWr .hostcmd s.cfg.offIms s.cfg.irqEnableMask :: s.trace })

/-- R200 rows 11 to 13, R216: the quiesce command. Refused, it is taken by a step that performs no
operation (30_encoding.md R105); with an acknowledge in flight it stays where it is. How a command waits
is the model's (log 9), and so is that nothing is done in the unused lifecycle state (log 17, DEDUCED). -/
def Obligations.QuiesceMasksAndCancels : Prop :=
  ∀ (s : State) (rest : List Command), s.hstate = 0x00#8 → s.cmds = .quiesce :: rest →
    (∀ moves, s.sched = .agent .hostcmd :: moves → s.life ≠ 3#2 →
      (s.life ≠ 1#2 → agentOperation .hostcmd s = none ∧ step s = .next { s with
        sched := moves, cmds := rest, trace := .refused 0#2 :: s.trace }) ∧
      (s.life = 1#2 → s.istate ≠ 0x00#8 →
        agentOperation .hostcmd s = none ∧ step s = .next { s with sched := moves })) ∧
    (s.life = 1#2 → s.istate = 0x00#8 → exec .quiesceMask s = .next { s with
      cmds := rest, pending := false, life := 2#2, hstate := 0x61#8,
      dev := { s.dev with mask := s.dev.mask &&& ~~~s.cfg.irqDisableMask },
      trace := .regWr .hostcmd s.cfg.offImc s.cfg.irqDisableMask :: s.trace })

/-- R217: the barrier opens only when no pass is running. -/
def Obligations.QuiesceWaitsForThePass : Prop :=
  ∀ s : State, s.hstate = 0x61#8 →
    (s.wstate = 0x00#8 → exec .quiesceWait s = .next { s with
      life := 0#2, hstate := 0x00#8, trace := .quiesced :: s.trace }) ∧
    (s.wstate ≠ 0x00#8 → agentOperation .hostcmd s = none ∧
      ∀ moves, s.sched = .agent .hostcmd :: moves → step s = .next { s with sched := moves })

/-- R219: between QUIESCE.MASK and `Quiesced` no acknowledge and no pass begins, every transaction is the
WALKER's, and what ends it is `Quiesced`, with no pass running. -/
def Obligations.QuiescingIsABarrier : Prop :=
  ∀ s t : State, Invariant s → s.life = lifeQuiescing → step s = .next t →
    t.pending = false ∧ t.istate = iIdle ∧ (s.wstate = wIdle → t.wstate = wIdle) ∧
    (t.life = lifeQuiescing ∨
      (t.life = lifeUnattached ∧ s.wstate = wIdle ∧ t.trace = .quiesced :: s.trace)) ∧
    ∃ l, t.trace = l ++ s.trace ∧ ∀ e ∈ l, ∀ a, e.agentOf = some a → a = .walker

/-! ## Who writes what -/

/-- 10_state.md R41 to R44, 20_memory.md R70, 40_reg_accessors.md R131: the only operations that can
change each register of the DEVICE and memory; none changes RDH. -/
def Obligations.RegisterWritersAreThese : Prop :=
  ∀ (i : Instr) (s t : State), exec i s = .next t →
    t.cfg = s.cfg ∧ t.sched = s.sched ∧ t.dev.rdh = s.dev.rdh ∧ t.dev.fill = s.dev.fill ∧
    (t.dev.rdt ≠ s.dev.rdt → i ∈ [.rdtW, .advanceTail, .passAdv, .initTail]) ∧
    (t.dev.cause ≠ s.dev.cause → i ∈ [.icrR, .irqAck]) ∧
    (t.dev.mask ≠ s.dev.mask → i ∈ [.imsW, .imcW, .irqRearm, .initArm, .quiesceMask]) ∧
    (t.dev.rdbal ≠ s.dev.rdbal → i ∈ [.rdbalW, .initBal]) ∧
    (t.dev.rdbah ≠ s.dev.rdbah → i ∈ [.rdbahW, .initBah]) ∧
    (t.dev.rdlen ≠ s.dev.rdlen → i ∈ [.rdlenW, .initLen]) ∧
    (t.mem ≠ s.mem → i ∈ [.markFree, .passClrW, .initDescA, .initDescL, .initDescU])

/-- 10_state.md R36: what each agent's steps leave unchanged, from the access matrix; and a step
that turns a command away leaves everything but the command taken and its answer
(44_host_port_lifecycle.md R200: "no RXW state changes"). -/
def Obligations.EachAgentWritesItsOwnState : Prop :=
  (∀ (i : Instr) (s t : State), exec i s = .next t →
    (Agent.sequences .walker i = true →
      t.ringBase = s.ringBase ∧ t.istate = s.istate ∧ t.icrLatch = s.icrLatch ∧
      t.hstate = s.hstate ∧ t.portH = s.portH ∧ t.initI = s.initI ∧ t.initBase = s.initBase ∧
      t.initBuf = s.initBuf ∧ t.life = s.life ∧ t.cmds = s.cmds ∧
      (t.pending = s.pending ∨ i = .passStart ∧ t.pending = false)) ∧
    (Agent.sequences .ife i = true →
      t = { s with
                   istate := t.istate, icrLatch := t.icrLatch, pending := t.pending, dev := t.dev,
                   trace := t.trace } ∧
      (t.pending = s.pending ∨ i = .irqSched ∧ t.pending = true)) ∧
    (Agent.sequences .hostcmd i = true →
      (t.headS = s.headS ∧ t.tailC = s.tailC ∧ t.prevHead = s.prevHead ∧ t.headLive = s.headLive ∧
        t.iter = s.iter ∧ t.passConsumed = s.passConsumed ∧ t.view = s.view ∧ t.clrTmp = s.clrTmp ∧
        t.wstate = s.wstate) ∧
      t.istate = s.istate ∧ t.icrLatch = s.icrLatch ∧ t.errSeen = s.errSeen ∧ t.errCode = s.errCode ∧
      (t.ringBase = s.ringBase ∨ i = .initLatch) ∧
      (t.pending = s.pending ∨ i = .quiesceMask ∧ t.pending = false))) ∧
  ∀ s t : State, acceptStep s = some t →
    ∃ e, t = { s with cmds := s.cmds.tail, trace := e :: s.trace } ∧ e.isTransaction = false

/-- 00_scope.md R14, 20_memory.md R67, R72, 30_encoding.md R106: the history only grows, and every step of
the machine adds at most one transaction to it. So does every operation performed by itself: R101, R144
and R147 give INSPECT three transactions and MARK_FREE two, and that `exec` performs them a part at a
time, a part being one transaction, is the model's choice (log 10, DESIGN CHOICE). -/
def Obligations.OneTransactionPerStep : Prop :=
  (∀ s t : State, step s = .next t →
    ∃ l, t.trace = l ++ s.trace ∧ (l.filter Event.isTransaction).length ≤ 1) ∧
  ∀ (i : Instr) (s t : State), exec i s = .next t →
    ∃ l, t.trace = l ++ s.trace ∧ (l.filter Event.isTransaction).length ≤ 1

/-- 20_memory.md R70, 70_reset_and_hazards.md R284, 10_state.md R42 to R44: who writes each register, and
when, over every step. RDT is written by the WALKER in PASS.ADV, with the successor, and by HOSTCMD in
INIT.TAIL, while UNATTACHED; RDBAL, RDBAH and RDLEN by HOSTCMD in their INIT steps; `cause` is cleared
by the IFE's read; the mask is written by IRQ.REARM, INIT.ARM and QUIESCE.MASK; memory by PASS.CLR_W and
INIT's descriptor writes; all else is the DEVICE's. -/
def Obligations.EveryLocationHasItsWriters : Prop :=
  ∀ s t : State, Invariant s → step s = .next t → (∀ m rest, s.sched ≠ .device m :: rest) →
    t.dev.rdh = s.dev.rdh ∧ t.dev.fill = s.dev.fill ∧
    (t.dev.rdt = s.dev.rdt ∨
      (∃ rest, s.sched = .agent .walker :: rest ∧ s.wstate = 0x24#8 ∧ s.life ≠ 0#2 ∧
        t.dev.rdt.toNat = (s.dev.tail.toNat + 1) % s.cfg.ringSize) ∨
      (∃ rest, s.sched = .agent .hostcmd :: rest ∧ s.hstate = 0x57#8 ∧ s.life = 0#2 ∧
        t.dev.rdt.toNat = s.cfg.ringSize - 1)) ∧
    (t.dev.rdbal = s.dev.rdbal ∨
      ∃ rest, s.sched = .agent .hostcmd :: rest ∧ s.hstate = 0x55#8 ∧ s.life = 0#2) ∧
    (t.dev.rdbah = s.dev.rdbah ∨
      ∃ rest, s.sched = .agent .hostcmd :: rest ∧ s.hstate = 0x54#8 ∧ s.life = 0#2) ∧
    (t.dev.rdlen = s.dev.rdlen ∨
      ∃ rest, s.sched = .agent .hostcmd :: rest ∧ s.hstate = 0x56#8 ∧ s.life = 0#2) ∧
    (t.dev.cause = s.dev.cause ∨
      ∃ rest, s.sched = .agent .ife :: rest ∧ s.istate = 0x00#8 ∧ s.life = 1#2 ∧ t.dev.cause = 0#32) ∧
    (t.dev.mask = s.dev.mask ∨
      (∃ rest, s.sched = .agent .ife :: rest ∧ s.istate = 0x32#8 ∧
        t.dev.mask = s.dev.mask ||| s.cfg.irqEnableMask) ∨
      (∃ rest, s.sched = .agent .hostcmd :: rest ∧ s.hstate = 0x58#8 ∧ s.life = 0#2 ∧
        t.dev.mask = s.dev.mask ||| s.cfg.irqEnableMask) ∨
      (∃ rest, s.sched = .agent .hostcmd :: rest ∧ s.hstate = 0x00#8 ∧ s.life = 1#2 ∧
        t.dev.mask = s.dev.mask &&& ~~~s.cfg.irqDisableMask)) ∧
    (t.mem = s.mem ∨
      (∃ rest, s.sched = .agent .walker :: rest ∧ s.wstate = 0x2C#8 ∧
        (inRange s.cfg.ringSize s.dev.head = true →
          inSoftwareWindow s.cfg.ringSize s.dev.head s.dev.tail s.tailC = true)) ∨
      (∃ rest, s.sched = .agent .hostcmd :: rest ∧ s.hstate ∈ descStates ∧ s.life = 0#2))

/-- 10_state.md R34, R50, 20_memory.md R69, 44_host_port_lifecycle.md R217, 70_reset_and_hazards.md R271,
R279: while UNATTACHED and not in INIT (after reset, and after `Quiesced` until the next `CmdInit`) the
WALKER and the IFE have no step, HOSTCMD has one only where a command waits, and no step issues a
transaction. What it means that a REG or RING transaction taken by itself, or DESC_ADDR, is enabled is
the model's: the call port and the state INIT.LATCH has written `ring_base` in (log 10, DESIGN CHOICE;
log 11, DEDUCED); the spec says of `ring_base` after `Quiesced` only that it is stale (R272). -/
def Obligations.AtRestNothingIsIssued : Prop :=
  ∀ s : State, Invariant s → s.life = 0#2 → s.hstate ∉ initStates →
    agentOperation .walker s = none ∧ agentOperation .ife s = none ∧
    (s.cmds = [] → agentOperation .hostcmd s = none ∧ acceptStep s = none) ∧
    (∀ op ∈ innerOperations, enabled op s = false) ∧ enabled .descAddr s = false ∧
    ∀ t, step s = .next t → ∃ l, t.trace = l ++ s.trace ∧ ∀ e ∈ l, e.isTransaction = false

/-! ## Invariants -/

/-- The machine right after reset has the invariant (10_state.md R50; the latches and registers R50 and
R52 leave open hold the values of logs 1, 2 and 3). -/
def Obligations.ResetMeetsTheInvariant : Prop :=
  Invariant State.reset ∧ DeviceOk State.reset ∧ SnapshotOk State.reset

/-- Every step, of any agent, of the DEVICE, of a command or of a computation, keeps the invariant: the
sequencer states stay those of 10_state.md R30 to R32 and the lifecycle state one of R34, memory stays in its
canonical form, the base, length and tail registers hold what INIT wrote, RDT holds `tail_c` inside a
pass (42_service_pass.md R180), and `iter` and `pass_consumed` stay within the ring (R148). -/
def Obligations.EveryStepKeepsTheInvariant : Prop :=
  ∀ s t : State, Invariant s → step s = .next t → Invariant t

/-- 60_exceptions.md R238 to R240: every step keeps head in range and any reception in progress at the
head; head only moves, and only by NEXT, and only while the hardware window is not empty. That it is so
across `Quiesced` and a second `CmdInit` too, with no reset of the DEVICE between, is the model's
(log 19, DESIGN CHOICE). -/
def Obligations.HeadStaysInRangeAndMovesForward : Prop :=
  ∀ s t : State, Invariant s → DeviceOk s → step s = .next t →
    DeviceOk t ∧
    (t.dev.head = s.dev.head ∨
      t.dev.head = nextIndex s.cfg.ringSize s.dev.head ∧ s.dev.head ≠ s.dev.tail)

/-- 42_service_pass.md R162, R165, R166, R182, 60_exceptions.md R231, 20_memory.md R73: with a DEVICE that
keeps its contract no pass is ever abandoned. No step logs a failure of any code, whether or not one is
already recorded (the record is sticky, 10_state.md R35), and a running pass ends at PASS.TEST only. -/
def Obligations.NoPassIsAbandonedUnderTheContract : Prop :=
  ∀ s t : State, Invariant s → DeviceOk s → SnapshotOk s → step s = .next t →
    SnapshotOk t ∧ t.errSeen = s.errSeen ∧ t.errCode = s.errCode ∧
    (∃ l, t.trace = l ++ s.trace ∧ ∀ code head tail, .log code head tail ∉ l) ∧
    (s.wstate ≠ wIdle → s.wstate ≠ wTest → t.wstate ≠ wIdle)

/-- 20_memory.md R80, 60_exceptions.md R230: every step completes, whoever moves; no memory access is
misaligned or outside the ring (20_memory.md R63, R78). Only a computation scheduled with a reserved code,
which is the model's (log 10), is refused. -/
def Obligations.EveryStepCompletes : Prop :=
  ∀ s : State, Invariant s → NoReservedNext s → ∃ t, step s = .next t

/-- 42_service_pass.md R180, over every run from a state of the invariant. -/
def Obligations.TailCursorEqualsTheRegister : Prop :=
  ∀ (k : Nat) (s t : State), Invariant s → run k s = .next t →
    t.wstate ≠ 0x00#8 → t.wstate ≠ 0x21#8 → t.wstate ≠ 0x22#8 →
    t.tailC = t.dev.rdt.setWidth 16

/-! ## Headline results -/

/-- 42_service_pass.md R182: whatever the schedule, a pass ends within `10 N - 6` steps of the WALKER. The
bound `passWork` on the steps left is `10 N - 7` after PASS.START, falls with every step the WALKER
takes, is left alone by every other step, and while it is not 0 the WALKER has an enabled step. A pass
has at most `N - 1` iterations, and no step logs `E_ITER_CAP`. -/
def Obligations.EveryPassEndsWithinTheBound : Prop :=
  ∀ s : State, Invariant s →
    (passWork s = 0 ↔ s.wstate = wIdle) ∧
    (s.wstate ≠ wIdle → ∃ i, agentOperation .walker s = some i) ∧
    (∀ t rest, step s = .next t → s.sched = .agent .walker :: rest → s.wstate ≠ wIdle →
      passWork t < passWork s) ∧
    (∀ t rest, step s = .next t → s.sched = .agent .walker :: rest → s.wstate = wIdle →
      t.wstate ≠ wIdle → passWork t + 1 = 10 * s.cfg.ringSize - 6) ∧
    (∀ t, step s = .next t → (∀ rest, s.sched ≠ .agent .walker :: rest) → passWork t = passWork s) ∧
    (s.wstate ≠ wIdle → s.iter.toNat ≤ s.cfg.ringSize - 1) ∧
    (∀ t, step s = .next t → ∃ l, t.trace = l ++ s.trace ∧ ∀ head tail, .log eIterCap head tail ∉ l)

/-- 42_service_pass.md R181, R183: a pass that runs by itself from tail `t0` with head `h0` makes
`PENDCNT(h0, t0)` iterations, ends with RDT at `PREV(h0)`, has consumed exactly the visited descriptors
whose done bits were all set, and leaves those with their done bits clear and every other byte of memory
as it was. Its `Consume` events are those descriptors in the order `NEXT(t0) .. PREV(h0)`, each with the
address, length, status and errors it had (the history is newest first, so the list stands reversed). -/
def Obligations.APassServicesWhatIsPending : Prop :=
  ∀ s : State, Invariant s → DeviceOk s → s.life = lifeReady → s.wstate = wIdle → s.pending = true →
    ∃ k t, k ≤ 10 * s.cfg.ringSize - 6 ∧ run k (s.scheduled k .walker) = .next t ∧
      t.wstate = wIdle ∧ t.pending = false ∧ t.errSeen = s.errSeen ∧ t.errCode = s.errCode ∧
      t.iter = pendingCount s.cfg.ringSize s.dev.head s.dev.tail ∧
      t.dev.tail = prevIndex s.cfg.ringSize s.dev.head ∧
      t.dev.rdh = s.dev.rdh ∧ t.dev.cause = s.dev.cause ∧ t.dev.mask = s.dev.mask ∧
      t.passConsumed.toNat =
        ((List.range (pendingCount s.cfg.ringSize s.dev.head s.dev.tail).toNat).filter fun j =>
          isDone s.cfg.doneMask
            (descByte s ((nextIndex s.cfg.ringSize)^[j + 1] s.dev.tail) 12)).length ∧
      (∃ l, t.trace = l ++ s.trace ∧ l.filter Event.isConsume =
        ((((List.range (pendingCount s.cfg.ringSize s.dev.head s.dev.tail).toNat).map fun j =>
            (nextIndex s.cfg.ringSize)^[j + 1] s.dev.tail).filter fun i =>
          isDone s.cfg.doneMask (descByte s i 12)).map fun i =>
          Event.consume i (descAddrField s i) (descLength s i) (descByte s i 12)
            (descByte s i 13)).reverse) ∧
      (∀ j < (pendingCount s.cfg.ringSize s.dev.head s.dev.tail).toNat,
        descByte t ((nextIndex s.cfg.ringSize)^[j + 1] s.dev.tail) 12 =
          if isDone s.cfg.doneMask (descByte s ((nextIndex s.cfg.ringSize)^[j + 1] s.dev.tail) 12)
          then descByte s ((nextIndex s.cfg.ringSize)^[j + 1] s.dev.tail) 12 &&& ~~~s.cfg.doneMask
          else descByte s ((nextIndex s.cfg.ringSize)^[j + 1] s.dev.tail) 12) ∧
      ∀ x, (∀ j < (pendingCount s.cfg.ringSize s.dev.head s.dev.tail).toNat,
          x ≠ (descAddress s.ringBase ((nextIndex s.cfg.ringSize)^[j + 1] s.dev.tail)).toNat + 12) →
        t.mem.read x = s.mem.read x

/-- 44_host_port_lifecycle.md R218: the state after INIT, reached in `3 N + 6` steps of HOSTCMD with
`3 N` memory writes and 5 register writes. How the command waits is the model's (log 9). -/
def Obligations.InitBuildsTheRing : Prop :=
  ∀ (s : State) (base : DWord) (buf : List DWord) (rest : List Command),
    s.cfg.Ok → s.mem.wf = true → s.life = lifeUnattached → s.hstate = hIdle → s.pending = false →
    s.cmds = .init base buf :: rest → buf.length = s.cfg.ringSize → goodBase s.cfg base = true →
    ∃ t, run (3 * s.cfg.ringSize + 6) (s.scheduled (3 * s.cfg.ringSize + 6) .hostcmd) = .next t ∧
      t.life = lifeReady ∧ t.pending = false ∧ t.hstate = hIdle ∧ t.ringBase = base ∧ t.cmds = rest ∧
      t.dev.rdbah ++ t.dev.rdbal = base ∧ t.dev.rdlen.toNat = 16 * s.cfg.ringSize ∧
      t.dev.rdt.toNat = s.cfg.ringSize - 1 ∧ t.dev.rdh = s.dev.rdh ∧
      t.dev.mask = s.dev.mask ||| s.cfg.irqEnableMask ∧
      (∀ i : Half, i.toNat < s.cfg.ringSize →
        some (descAddrField t i) = buf[i.toNat]? ∧ descWord t i 8 = 0#32 ∧ descWord t i 12 = 0#32) ∧
      (∀ x, x < base.toNat ∨ base.toNat + 16 * s.cfg.ringSize ≤ x → t.mem.read x = s.mem.read x) ∧
      ∃ l, t.trace = .initDone :: l ++ s.trace ∧ l.length = 3 * s.cfg.ringSize + 5 ∧
        (l.filter Event.isMemWrite).length = 3 * s.cfg.ringSize ∧
        (l.filter Event.isRegWrite).length = 5

/-! ## The DEVICE (60_exceptions.md R238 to R241) -/

/-- R239, 20_memory.md R71: a move of the DEVICE leaves RDT's index, the base and length registers, every
latch, every byte of a descriptor of the software window, and every descriptor's address field, as they
are; it may write a descriptor only at the head. -/
def Obligations.DeviceKeepsToItsWindow : Prop :=
  ∀ (m : DevMove) (s : State), Invariant s → s.attached →
    deviceMove m s = { s with
                              dev := (deviceMove m s).dev, mem := (deviceMove m s).mem,
                              trace := (deviceMove m s).trace } ∧
    (deviceMove m s).dev.tail = s.dev.tail ∧ (deviceMove m s).dev.mask = s.dev.mask ∧
    (deviceMove m s).dev.rdbal = s.dev.rdbal ∧ (deviceMove m s).dev.rdbah = s.dev.rdbah ∧
    (deviceMove m s).dev.rdlen = s.dev.rdlen ∧
    ∀ i : Half, i.toNat < s.cfg.ringSize → ∀ k < 16,
      i ≠ s.dev.head ∨ inSoftwareWindow s.cfg.ringSize s.dev.head s.dev.tail i = true ∨ k < 8 →
      descByte (deviceMove m s) i k = descByte s i k

/-- R238: the four transactions of a FILL at the head: the received bytes in the buffer, the length,
checksum, errors and special fields, the status byte, and head one further; nothing else. -/
def Obligations.FillCompletesADescriptor : Prop :=
  ∀ (s : State) (r : FillReq), Invariant s → DeviceOk s → s.attached → s.dev.fill = none →
    s.dev.head ≠ s.dev.tail → r.ok s.cfg = true → r.index = s.dev.head →
    outsideRingBytes s.cfg s.ringBase (descAddrField s s.dev.head) r.data.length = true →
    ∃ t, run 4 { s with
        sched := [.device (.fill r), .device .fillNext, .device .fillNext,
        .device .fillNext] } = .next t ∧
      t = { s with sched := [], mem := t.mem, trace := t.trace, dev := { s.dev with rdh := t.dev.rdh } } ∧
      t.dev.rdh.toNat = (s.dev.head.toNat + 1) % s.cfg.ringSize ∧
      (∀ k (hk : k < r.data.length),
        t.mem.read ((descAddrField s s.dev.head).toNat + k) = r.data[k]) ∧
      descAddrField t s.dev.head = descAddrField s s.dev.head ∧
      descWord t s.dev.head 8 = r.checksum ++ r.length ∧
      descWord t s.dev.head 12 = r.special ++ r.errors ++ r.status ∧
      isDone s.cfg.doneMask (descByte t s.dev.head 12) = true ∧
      ∀ x, x < (descAddrField s s.dev.head).toNat ∨
          (descAddrField s s.dev.head).toNat + r.data.length ≤ x →
        x < (descAddress s.ringBase s.dev.head).toNat + 8 ∨
          (descAddress s.ringBase s.dev.head).toNat + 16 ≤ x →
        t.mem.read x = s.mem.read x

/-- R241, R240: RAISE sets cause bits and does nothing else; what bits 31:16 of RDH and RDT read as may
change at any time, and the indices do not. -/
def Obligations.RaiseSetsCauseBits : Prop :=
  (∀ (s : State) (bits : Word), bits ≠ 0#32 →
    deviceMove (.raise bits) s = { s with
                                          dev := { s.dev with cause := s.dev.cause ||| bits },
                                          trace := .devRaise bits :: s.trace }) ∧
  (∀ (s : State) (a b : Half),
    deviceMove (.upper a b) s =
      { s with dev := { s.dev with rdh := a ++ s.dev.head, rdt := b ++ s.dev.tail } } ∧
    (deviceMove (.upper a b) s).dev.head = s.dev.head ∧
    (deviceMove (.upper a b) s).dev.tail = s.dev.tail ∧
    (deviceMove (.upper a b) s).dev.rdh.extractLsb' 16 16 = a ∧
    (deviceMove (.upper a b) s).dev.rdt.extractLsb' 16 16 = b)

end
end

