-- ==== Sys2Proof/Laws/State.lean ====
section
/-! SUPPORT. Laws/State.lean: what the named updates of State leave in each field, one lemma per field,
so that no proof unfolds them. Updates written `{ s with ... }` reduce by themselves. -/

namespace Sys2Proof.Machine

/-! ## `State.emit` (20_memory.md R72) -/

@[simp] theorem State.emit_cfg (s : State) (e : Event) : (s.emit e).cfg = s.cfg := rfl
@[simp] theorem State.emit_ringBase (s : State) (e : Event) : (s.emit e).ringBase = s.ringBase := rfl
@[simp] theorem State.emit_headS (s : State) (e : Event) : (s.emit e).headS = s.headS := rfl
@[simp] theorem State.emit_tailC (s : State) (e : Event) : (s.emit e).tailC = s.tailC := rfl
@[simp] theorem State.emit_prevHead (s : State) (e : Event) : (s.emit e).prevHead = s.prevHead := rfl
@[simp] theorem State.emit_headLive (s : State) (e : Event) : (s.emit e).headLive = s.headLive := rfl
@[simp] theorem State.emit_iter (s : State) (e : Event) : (s.emit e).iter = s.iter := rfl
@[simp] theorem State.emit_passConsumed (s : State) (e : Event) :
    (s.emit e).passConsumed = s.passConsumed := rfl
@[simp] theorem State.emit_view (s : State) (e : Event) : (s.emit e).view = s.view := rfl
@[simp] theorem State.emit_clrTmp (s : State) (e : Event) : (s.emit e).clrTmp = s.clrTmp := rfl
@[simp] theorem State.emit_icrLatch (s : State) (e : Event) : (s.emit e).icrLatch = s.icrLatch := rfl
@[simp] theorem State.emit_portH (s : State) (e : Event) : (s.emit e).portH = s.portH := rfl
@[simp] theorem State.emit_initI (s : State) (e : Event) : (s.emit e).initI = s.initI := rfl
@[simp] theorem State.emit_initBase (s : State) (e : Event) : (s.emit e).initBase = s.initBase := rfl
@[simp] theorem State.emit_initBuf (s : State) (e : Event) : (s.emit e).initBuf = s.initBuf := rfl
@[simp] theorem State.emit_wstate (s : State) (e : Event) : (s.emit e).wstate = s.wstate := rfl
@[simp] theorem State.emit_istate (s : State) (e : Event) : (s.emit e).istate = s.istate := rfl
@[simp] theorem State.emit_hstate (s : State) (e : Event) : (s.emit e).hstate = s.hstate := rfl
@[simp] theorem State.emit_pending (s : State) (e : Event) : (s.emit e).pending = s.pending := rfl
@[simp] theorem State.emit_life (s : State) (e : Event) : (s.emit e).life = s.life := rfl
@[simp] theorem State.emit_errSeen (s : State) (e : Event) : (s.emit e).errSeen = s.errSeen := rfl
@[simp] theorem State.emit_errCode (s : State) (e : Event) : (s.emit e).errCode = s.errCode := rfl
@[simp] theorem State.emit_dev (s : State) (e : Event) : (s.emit e).dev = s.dev := rfl
@[simp] theorem State.emit_mem (s : State) (e : Event) : (s.emit e).mem = s.mem := rfl
@[simp] theorem State.emit_trace (s : State) (e : Event) : (s.emit e).trace = e :: s.trace := rfl
@[simp] theorem State.emit_cmds (s : State) (e : Event) : (s.emit e).cmds = s.cmds := rfl
@[simp] theorem State.emit_sched (s : State) (e : Event) : (s.emit e).sched = s.sched := rfl
@[simp] theorem State.emit_call (s : State) (e : Event) : (s.emit e).call = s.call := rfl

/-! ## `abandon` (42_service_pass.md R175) -/

@[simp] theorem abandon_cfg (c : BitVec 4) (h t : Half) (s : State) :
    (abandon c h t s).cfg = s.cfg := rfl
@[simp] theorem abandon_ringBase (c : BitVec 4) (h t : Half) (s : State) :
    (abandon c h t s).ringBase = s.ringBase := rfl
@[simp] theorem abandon_headS (c : BitVec 4) (h t : Half) (s : State) :
    (abandon c h t s).headS = s.headS := rfl
@[simp] theorem abandon_tailC (c : BitVec 4) (h t : Half) (s : State) :
    (abandon c h t s).tailC = s.tailC := rfl
@[simp] theorem abandon_prevHead (c : BitVec 4) (h t : Half) (s : State) :
    (abandon c h t s).prevHead = s.prevHead := rfl
@[simp] theorem abandon_headLive (c : BitVec 4) (h t : Half) (s : State) :
    (abandon c h t s).headLive = s.headLive := rfl
@[simp] theorem abandon_iter (c : BitVec 4) (h t : Half) (s : State) :
    (abandon c h t s).iter = s.iter := rfl
@[simp] theorem abandon_passConsumed (c : BitVec 4) (h t : Half) (s : State) :
    (abandon c h t s).passConsumed = s.passConsumed := rfl
@[simp] theorem abandon_view (c : BitVec 4) (h t : Half) (s : State) :
    (abandon c h t s).view = s.view := rfl
@[simp] theorem abandon_clrTmp (c : BitVec 4) (h t : Half) (s : State) :
    (abandon c h t s).clrTmp = s.clrTmp := rfl
@[simp] theorem abandon_icrLatch (c : BitVec 4) (h t : Half) (s : State) :
    (abandon c h t s).icrLatch = s.icrLatch := rfl
@[simp] theorem abandon_portH (c : BitVec 4) (h t : Half) (s : State) :
    (abandon c h t s).portH = s.portH := rfl
@[simp] theorem abandon_initI (c : BitVec 4) (h t : Half) (s : State) :
    (abandon c h t s).initI = s.initI := rfl
@[simp] theorem abandon_initBase (c : BitVec 4) (h t : Half) (s : State) :
    (abandon c h t s).initBase = s.initBase := rfl
@[simp] theorem abandon_initBuf (c : BitVec 4) (h t : Half) (s : State) :
    (abandon c h t s).initBuf = s.initBuf := rfl
@[simp] theorem abandon_wstate (c : BitVec 4) (h t : Half) (s : State) :
    (abandon c h t s).wstate = wIdle := rfl
@[simp] theorem abandon_istate (c : BitVec 4) (h t : Half) (s : State) :
    (abandon c h t s).istate = s.istate := rfl
@[simp] theorem abandon_hstate (c : BitVec 4) (h t : Half) (s : State) :
    (abandon c h t s).hstate = s.hstate := rfl
@[simp] theorem abandon_pending (c : BitVec 4) (h t : Half) (s : State) :
    (abandon c h t s).pending = s.pending := rfl
@[simp] theorem abandon_life (c : BitVec 4) (h t : Half) (s : State) :
    (abandon c h t s).life = s.life := rfl
@[simp] theorem abandon_errSeen (c : BitVec 4) (h t : Half) (s : State) :
    (abandon c h t s).errSeen = true := rfl
@[simp] theorem abandon_errCode (c : BitVec 4) (h t : Half) (s : State) :
    (abandon c h t s).errCode = c := rfl
@[simp] theorem abandon_dev (c : BitVec 4) (h t : Half) (s : State) :
    (abandon c h t s).dev = s.dev := rfl
@[simp] theorem abandon_mem (c : BitVec 4) (h t : Half) (s : State) :
    (abandon c h t s).mem = s.mem := rfl
@[simp] theorem abandon_trace (c : BitVec 4) (h t : Half) (s : State) :
    (abandon c h t s).trace = .log c h t :: s.trace := rfl
@[simp] theorem abandon_cmds (c : BitVec 4) (h t : Half) (s : State) :
    (abandon c h t s).cmds = s.cmds := rfl
@[simp] theorem abandon_sched (c : BitVec 4) (h t : Half) (s : State) :
    (abandon c h t s).sched = s.sched := rfl
@[simp] theorem abandon_call (c : BitVec 4) (h t : Half) (s : State) :
    (abandon c h t s).call = s.call := rfl

/-! ## `invalidArgument` (60_exceptions.md R232) -/

theorem invalidArgument_eq_emit (s : State) : invalidArgument s = s.emit (.portReply false 0#32 0#32) := rfl
@[simp] theorem invalidArgument_cfg (s : State) : (invalidArgument s).cfg = s.cfg := rfl
@[simp] theorem invalidArgument_ringBase (s : State) : (invalidArgument s).ringBase = s.ringBase := rfl
@[simp] theorem invalidArgument_headS (s : State) : (invalidArgument s).headS = s.headS := rfl
@[simp] theorem invalidArgument_tailC (s : State) : (invalidArgument s).tailC = s.tailC := rfl
@[simp] theorem invalidArgument_prevHead (s : State) : (invalidArgument s).prevHead = s.prevHead := rfl
@[simp] theorem invalidArgument_headLive (s : State) : (invalidArgument s).headLive = s.headLive := rfl
@[simp] theorem invalidArgument_iter (s : State) : (invalidArgument s).iter = s.iter := rfl
@[simp] theorem invalidArgument_passConsumed (s : State) : (invalidArgument s).passConsumed = s.passConsumed := rfl
@[simp] theorem invalidArgument_view (s : State) : (invalidArgument s).view = s.view := rfl
@[simp] theorem invalidArgument_clrTmp (s : State) : (invalidArgument s).clrTmp = s.clrTmp := rfl
@[simp] theorem invalidArgument_icrLatch (s : State) : (invalidArgument s).icrLatch = s.icrLatch := rfl
@[simp] theorem invalidArgument_portH (s : State) : (invalidArgument s).portH = s.portH := rfl
@[simp] theorem invalidArgument_initI (s : State) : (invalidArgument s).initI = s.initI := rfl
@[simp] theorem invalidArgument_initBase (s : State) : (invalidArgument s).initBase = s.initBase := rfl
@[simp] theorem invalidArgument_initBuf (s : State) : (invalidArgument s).initBuf = s.initBuf := rfl
@[simp] theorem invalidArgument_wstate (s : State) : (invalidArgument s).wstate = s.wstate := rfl
@[simp] theorem invalidArgument_istate (s : State) : (invalidArgument s).istate = s.istate := rfl
@[simp] theorem invalidArgument_hstate (s : State) : (invalidArgument s).hstate = s.hstate := rfl
@[simp] theorem invalidArgument_pending (s : State) : (invalidArgument s).pending = s.pending := rfl
@[simp] theorem invalidArgument_life (s : State) : (invalidArgument s).life = s.life := rfl
@[simp] theorem invalidArgument_errSeen (s : State) : (invalidArgument s).errSeen = s.errSeen := rfl
@[simp] theorem invalidArgument_errCode (s : State) : (invalidArgument s).errCode = s.errCode := rfl
@[simp] theorem invalidArgument_dev (s : State) : (invalidArgument s).dev = s.dev := rfl
@[simp] theorem invalidArgument_mem (s : State) : (invalidArgument s).mem = s.mem := rfl
@[simp] theorem invalidArgument_trace (s : State) : (invalidArgument s).trace = .portReply false 0#32 0#32 :: s.trace := rfl
@[simp] theorem invalidArgument_cmds (s : State) : (invalidArgument s).cmds = s.cmds := rfl
@[simp] theorem invalidArgument_sched (s : State) : (invalidArgument s).sched = s.sched := rfl
@[simp] theorem invalidArgument_call (s : State) : (invalidArgument s).call = s.call := rfl

/-! ## `refuseCommand` (60_exceptions.md R233) -/

theorem refuseCommand_eq_emit (r : BitVec 2) (s : State) : refuseCommand r s = s.emit (.refused r) := rfl
@[simp] theorem refuseCommand_cfg (r : BitVec 2) (s : State) : (refuseCommand r s).cfg = s.cfg := rfl
@[simp] theorem refuseCommand_ringBase (r : BitVec 2) (s : State) : (refuseCommand r s).ringBase = s.ringBase := rfl
@[simp] theorem refuseCommand_headS (r : BitVec 2) (s : State) : (refuseCommand r s).headS = s.headS := rfl
@[simp] theorem refuseCommand_tailC (r : BitVec 2) (s : State) : (refuseCommand r s).tailC = s.tailC := rfl
@[simp] theorem refuseCommand_prevHead (r : BitVec 2) (s : State) : (refuseCommand r s).prevHead = s.prevHead := rfl
@[simp] theorem refuseCommand_headLive (r : BitVec 2) (s : State) : (refuseCommand r s).headLive = s.headLive := rfl
@[simp] theorem refuseCommand_iter (r : BitVec 2) (s : State) : (refuseCommand r s).iter = s.iter := rfl
@[simp] theorem refuseCommand_passConsumed (r : BitVec 2) (s : State) : (refuseCommand r s).passConsumed = s.passConsumed := rfl
@[simp] theorem refuseCommand_view (r : BitVec 2) (s : State) : (refuseCommand r s).view = s.view := rfl
@[simp] theorem refuseCommand_clrTmp (r : BitVec 2) (s : State) : (refuseCommand r s).clrTmp = s.clrTmp := rfl
@[simp] theorem refuseCommand_icrLatch (r : BitVec 2) (s : State) : (refuseCommand r s).icrLatch = s.icrLatch := rfl
@[simp] theorem refuseCommand_portH (r : BitVec 2) (s : State) : (refuseCommand r s).portH = s.portH := rfl
@[simp] theorem refuseCommand_initI (r : BitVec 2) (s : State) : (refuseCommand r s).initI = s.initI := rfl
@[simp] theorem refuseCommand_initBase (r : BitVec 2) (s : State) : (refuseCommand r s).initBase = s.initBase := rfl
@[simp] theorem refuseCommand_initBuf (r : BitVec 2) (s : State) : (refuseCommand r s).initBuf = s.initBuf := rfl
@[simp] theorem refuseCommand_wstate (r : BitVec 2) (s : State) : (refuseCommand r s).wstate = s.wstate := rfl
@[simp] theorem refuseCommand_istate (r : BitVec 2) (s : State) : (refuseCommand r s).istate = s.istate := rfl
@[simp] theorem refuseCommand_hstate (r : BitVec 2) (s : State) : (refuseCommand r s).hstate = s.hstate := rfl
@[simp] theorem refuseCommand_pending (r : BitVec 2) (s : State) : (refuseCommand r s).pending = s.pending := rfl
@[simp] theorem refuseCommand_life (r : BitVec 2) (s : State) : (refuseCommand r s).life = s.life := rfl
@[simp] theorem refuseCommand_errSeen (r : BitVec 2) (s : State) : (refuseCommand r s).errSeen = s.errSeen := rfl
@[simp] theorem refuseCommand_errCode (r : BitVec 2) (s : State) : (refuseCommand r s).errCode = s.errCode := rfl
@[simp] theorem refuseCommand_dev (r : BitVec 2) (s : State) : (refuseCommand r s).dev = s.dev := rfl
@[simp] theorem refuseCommand_mem (r : BitVec 2) (s : State) : (refuseCommand r s).mem = s.mem := rfl
@[simp] theorem refuseCommand_trace (r : BitVec 2) (s : State) : (refuseCommand r s).trace = .refused r :: s.trace := rfl
@[simp] theorem refuseCommand_cmds (r : BitVec 2) (s : State) : (refuseCommand r s).cmds = s.cmds := rfl
@[simp] theorem refuseCommand_sched (r : BitVec 2) (s : State) : (refuseCommand r s).sched = s.sched := rfl
@[simp] theorem refuseCommand_call (r : BitVec 2) (s : State) : (refuseCommand r s).call = s.call := rfl

end Sys2Proof.Machine
end

