-- ==== Sys2Proof/Laws/Memory.lean ====
section
/-! SUPPORT. Laws/Memory.lean: the laws of device-visible memory: read after write, every other byte
unchanged, the canonical form kept, and equal reads mean equal memories (log 3). -/

namespace Sys2Proof.Machine

/-! ## One byte -/

@[simp] theorem Memory.read_nil (a : Nat) : Memory.read [] a = Memory.unlisted := rfl

/-- Below the lowest address a canonical memory lists, every byte is unlisted. -/
theorem Memory.read_below : ∀ (m : Memory) (lo a : Nat), Memory.wfFrom lo m = true → a < lo →
    m.read a = Memory.unlisted
  | [], _, _, _, _ => rfl
  | (b, w) :: rest, lo, a, h, ha => by
    simp only [Memory.wfFrom, Bool.and_eq_true, decide_eq_true_eq] at h
    have hb : b ≠ a := by omega
    simp only [Memory.read, hb, if_false]
    exact Memory.read_below rest (b + 1) a h.2 (by omega)

theorem Memory.wfFrom_mono : ∀ (m : Memory) (lo lo' : Nat), lo' ≤ lo → Memory.wfFrom lo m = true →
    Memory.wfFrom lo' m = true
  | [], _, _, _, _ => rfl
  | (b, w) :: rest, lo, lo', hl, h => by
    simp only [Memory.wfFrom, Bool.and_eq_true, decide_eq_true_eq] at h ⊢
    exact ⟨⟨⟨by omega, h.1.1.2⟩, h.1.2⟩, h.2⟩

/-- The lowest entry may stand as the bound. -/
theorem Memory.wfFrom_head (b : Nat) (w : Byte) (rest : Memory) (lo : Nat)
    (h : Memory.wfFrom lo ((b, w) :: rest) = true) : Memory.wfFrom b ((b, w) :: rest) = true := by
  simp only [Memory.wfFrom, Bool.and_eq_true, decide_eq_true_eq] at h ⊢
  exact ⟨⟨⟨Nat.le_refl b, h.1.1.2⟩, h.1.2⟩, h.2⟩

/-- A byte read where one was just written is the byte written; every other byte is unchanged. -/
theorem Memory.read_write_from : ∀ (m : Memory) (lo a : Nat) (v : Byte) (x : Nat),
    Memory.wfFrom lo m = true → (m.write a v).read x = if x = a then v else m.read x
  | [], _, a, v, x, _ => by
    by_cases hv : v = Memory.unlisted
    · by_cases hx : x = a <;> simp [Memory.write, hv, hx]
    · by_cases hx : x = a
      · simp [Memory.write, hv, Memory.read, hx]
      · simp [Memory.write, hv, Memory.read, Ne.symm hx, hx]
  | (b, w) :: rest, lo, a, v, x, h => by
    have h' := h
    simp only [Memory.wfFrom, Bool.and_eq_true, decide_eq_true_eq] at h
    have below := fun y (hy : y < b + 1) => Memory.read_below rest (b + 1) y h.2 hy
    rcases Nat.lt_trichotomy a b with hab | hab | hab
    · have hw : Memory.read ((b, w) :: rest) a = Memory.unlisted :=
        Memory.read_below _ b a (Memory.wfFrom_head b w rest lo h') hab
      by_cases hv : v = Memory.unlisted
      · simp only [Memory.write, hab, if_true, hv]
        by_cases hx : x = a
        · subst hx; simp [hw]
        · simp [hx]
      · simp only [Memory.write, hab, if_true, hv, if_false]
        by_cases hx : x = a
        · simp [Memory.read, hx]
        · simp [Memory.read, Ne.symm hx, hx]
    · subst hab
      by_cases hv : v = Memory.unlisted
      · simp only [Memory.write, Nat.lt_irrefl, if_false, if_true, hv]
        by_cases hx : x = a
        · subst hx; simp [below x (by omega)]
        · simp [Memory.read, Ne.symm hx, hx]
      · simp only [Memory.write, Nat.lt_irrefl, if_false, if_true, hv]
        by_cases hx : x = a
        · simp [Memory.read, hx]
        · simp [Memory.read, Ne.symm hx, hx]
    · have h1 : ¬ a < b := by omega
      have h2 : a ≠ b := by omega
      simp only [Memory.write, h1, h2, if_false]
      by_cases hbx : b = x
      · subst hbx; simp [Memory.read, h2.symm]
      · simp only [Memory.read, hbx, if_false]
        exact Memory.read_write_from rest (b + 1) a v x h.2

theorem Memory.write_wfFrom : ∀ (m : Memory) (lo a : Nat) (v : Byte), lo ≤ a → a < 2 ^ 64 →
    Memory.wfFrom lo m = true → Memory.wfFrom lo (m.write a v) = true
  | [], lo, a, v, h1, h2, _ => by
    by_cases hv : v = Memory.unlisted
    · simp [Memory.write, hv, Memory.wfFrom]
    · simp only [Memory.write, hv, if_false, Memory.wfFrom, Bool.and_eq_true, decide_eq_true_eq]
      exact ⟨⟨⟨h1, h2⟩, by simpa using hv⟩, trivial⟩
  | (b, w) :: rest, lo, a, v, h1, h2, h => by
    have h' := h
    simp only [Memory.wfFrom, Bool.and_eq_true, decide_eq_true_eq] at h
    rcases Nat.lt_trichotomy a b with hab | hab | hab
    · by_cases hv : v = Memory.unlisted
      · simpa only [Memory.write, hab, if_true, hv] using h'
      · simp only [Memory.write, hab, if_true, hv, if_false, Memory.wfFrom, Bool.and_eq_true,
          decide_eq_true_eq]
        exact ⟨⟨⟨h1, h2⟩, by simpa using hv⟩, ⟨⟨by omega, h.1.1.2⟩, h.1.2⟩, h.2⟩
    · subst hab
      by_cases hv : v = Memory.unlisted
      · simp only [Memory.write, Nat.lt_irrefl, if_false, if_true, hv]
        exact Memory.wfFrom_mono rest (a + 1) lo (by omega) h.2
      · simp only [Memory.write, Nat.lt_irrefl, if_false, if_true, hv, Memory.wfFrom,
          Bool.and_eq_true, decide_eq_true_eq]
        exact ⟨⟨⟨h1, h2⟩, by simpa using hv⟩, h.2⟩
    · have h3 : ¬ a < b := by omega
      have h4 : a ≠ b := by omega
      simp only [Memory.write, h3, h4, if_false, Memory.wfFrom, Bool.and_eq_true, decide_eq_true_eq]
      exact ⟨⟨⟨h.1.1.1, h.1.1.2⟩, h.1.2⟩, Memory.write_wfFrom rest (b + 1) a v (by omega) h2 h.2⟩

/-- Read after write, for a memory in canonical form. -/
theorem Memory.read_write (m : Memory) (a : Nat) (v : Byte) (x : Nat) (h : m.wf = true) :
    (m.write a v).read x = if x = a then v else m.read x :=
  Memory.read_write_from m 0 a v x h

/-- A write keeps the canonical form. -/
theorem Memory.write_wf (m : Memory) (a : Nat) (v : Byte) (ha : a < 2 ^ 64) (h : m.wf = true) :
    (m.write a v).wf = true :=
  Memory.write_wfFrom m 0 a v (Nat.zero_le a) ha h

theorem Memory.ext_from : ∀ (m m' : Memory) (lo : Nat), Memory.wfFrom lo m = true →
    Memory.wfFrom lo m' = true → (∀ a, m.read a = m'.read a) → m = m'
  | [], [], _, _, _, _ => rfl
  | [], (b, w) :: rest, lo, _, h, hr => by
    simp only [Memory.wfFrom, Bool.and_eq_true, decide_eq_true_eq] at h
    exact absurd (by simpa [Memory.read] using (hr b).symm) h.1.2
  | (b, w) :: rest, [], lo, h, _, hr => by
    simp only [Memory.wfFrom, Bool.and_eq_true, decide_eq_true_eq] at h
    exact absurd (by simpa [Memory.read] using hr b) h.1.2
  | (b, w) :: rest, (b', w') :: rest', lo, h, h', hr => by
    have g := h
    have g' := h'
    simp only [Memory.wfFrom, Bool.and_eq_true, decide_eq_true_eq] at h h'
    have hb : b = b' := by
      rcases Nat.lt_trichotomy b b' with hlt | heq | hgt
      · have h1 := hr b
        have h2 : Memory.read ((b', w') :: rest') b = Memory.unlisted :=
          Memory.read_below _ b' b (Memory.wfFrom_head b' w' rest' lo g') hlt
        rw [h2] at h1
        exact absurd (by simpa [Memory.read] using h1) h.1.2
      · exact heq
      · have h1 := hr b'
        have h2 : Memory.read ((b, w) :: rest) b' = Memory.unlisted :=
          Memory.read_below _ b b' (Memory.wfFrom_head b w rest lo g) hgt
        rw [h2] at h1
        exact absurd (by simpa [Memory.read] using h1.symm) h'.1.2
    subst hb
    have hw : w = w' := by simpa [Memory.read] using hr b
    subst hw
    have hrest : rest = rest' := by
      refine Memory.ext_from rest rest' (b + 1) h.2 h'.2 fun a => ?_
      by_cases hab : b = a
      · subst hab
        rw [Memory.read_below rest (b + 1) b h.2 (by omega),
          Memory.read_below rest' (b + 1) b h'.2 (by omega)]
      · simpa [Memory.read, hab] using hr a
    rw [hrest]

/-- Memories in canonical form that read alike are the same data. -/
theorem Memory.ext (m m' : Memory) (h : m.wf = true) (h' : m'.wf = true)
    (hr : ∀ a, m.read a = m'.read a) : m = m' :=
  Memory.ext_from m m' 0 h h' hr

/-! ## Several bytes -/

@[simp] theorem Memory.writeBytes_nil (m : Memory) (addr : DWord) : m.writeBytes addr [] = m := rfl

/-- Writing bytes keeps the canonical form. -/
theorem Memory.writeBytes_wf : ∀ (bs : List Byte) (m : Memory) (addr : DWord), m.wf = true →
    (m.writeBytes addr bs).wf = true
  | [], _, _, h => h
  | v :: rest, m, addr, h =>
    Memory.writeBytes_wf rest _ _ (Memory.write_wf m addr.toNat v addr.isLt h)

/-- A byte outside the ones written is unchanged. -/
theorem Memory.read_writeBytes_other : ∀ (bs : List Byte) (m : Memory) (addr : DWord) (x : Nat),
    m.wf = true → (∀ k < bs.length, x ≠ (addr + BitVec.ofNat 64 k).toNat) →
    (m.writeBytes addr bs).read x = m.read x
  | [], _, _, _, _, _ => rfl
  | v :: rest, m, addr, x, h, hx => by
    have h0 : x ≠ addr.toNat := by simpa using hx 0 (by simp)
    have step : ∀ k < rest.length, x ≠ (addr + 1#64 + BitVec.ofNat 64 k).toNat := by
      intro k hk
      have := hx (k + 1) (by simpa using hk)
      rwa [show addr + 1#64 + BitVec.ofNat 64 k = addr + BitVec.ofNat 64 (k + 1) by
        rw [BitVec.add_assoc, Nat.add_comm k 1, BitVec.ofNat_add]]
    show ((m.write addr.toNat v).writeBytes (addr + 1#64) rest).read x = m.read x
    rw [Memory.read_writeBytes_other rest _ _ x (Memory.write_wf m _ v addr.isLt h) step,
      Memory.read_write m _ v x h, if_neg h0]

/-- Byte `j` of the ones written, where they do not run past the top of the address space. -/
theorem Memory.read_writeBytes_at : ∀ (bs : List Byte) (m : Memory) (addr : DWord) (j : Nat)
    (hj : j < bs.length), m.wf = true → addr.toNat + bs.length ≤ 2 ^ 64 →
    (m.writeBytes addr bs).read (addr.toNat + j) = bs[j]
  | [], _, _, j, hj, _, _ => absurd hj (Nat.not_lt_zero j)
  | v :: rest, m, addr, j, hj, h, hlen => by
    have hw := Memory.write_wf m addr.toNat v addr.isLt h
    simp only [List.length_cons] at hlen hj
    show ((m.write addr.toNat v).writeBytes (addr + 1#64) rest).read (addr.toNat + j) = (v :: rest)[j]
    cases j with
    | zero =>
      rw [Memory.read_writeBytes_other rest _ _ _ hw]
      · simp [Memory.read_write m _ v _ h]
      · intro k hk
        have e : addr + 1#64 + BitVec.ofNat 64 k = addr + BitVec.ofNat 64 (k + 1) := by
          rw [BitVec.add_assoc, Nat.add_comm k 1, BitVec.ofNat_add]
        rw [e, BitVec.toNat_add, BitVec.toNat_ofNat, Nat.add_mod_mod, Nat.mod_eq_of_lt (by omega)]
        omega
    | succ j =>
      have e : (addr + 1#64).toNat = addr.toNat + 1 := by
        cases rest with
        | nil => simp at hj
        | cons _ _ =>
          simp only [List.length_cons] at hlen
          rw [BitVec.toNat_add, BitVec.toNat_ofNat, Nat.add_mod_mod, Nat.mod_eq_of_lt (by omega)]
      have := Memory.read_writeBytes_at rest (m.write addr.toNat v) (addr + 1#64) j (by omega) hw
        (by omega)
      rw [e, Nat.add_assoc, Nat.add_comm 1 j] at this
      simpa using this

@[simp] theorem bytesLE_length : ∀ (n : Nat) (v : DWord), (bytesLE v n).length = n
  | 0, _ => rfl
  | n + 1, v => by simp [bytesLE, bytesLE_length n]

/-- Reading is decided by the bytes read. -/
theorem Memory.readLE_congr : ∀ (n : Nat) (m m' : Memory) (addr : DWord),
    (∀ k < n, m.read (addr + BitVec.ofNat 64 k).toNat = m'.read (addr + BitVec.ofNat 64 k).toNat) →
    m.readLE addr n = m'.readLE addr n
  | 0, _, _, _, _ => rfl
  | n + 1, m, m', addr, h => by
    have h0 : m.read addr.toNat = m'.read addr.toNat := by simpa using h 0 (Nat.succ_pos n)
    have hs : m.readLE (addr + 1#64) n = m'.readLE (addr + 1#64) n := by
      refine Memory.readLE_congr n m m' (addr + 1#64) fun k hk => ?_
      have := h (k + 1) (by omega)
      rwa [show addr + 1#64 + BitVec.ofNat 64 k = addr + BitVec.ofNat 64 (k + 1) by
        rw [BitVec.add_assoc, Nat.add_comm k 1, BitVec.ofNat_add]]
    simp only [Memory.readLE, h0, hs]

/-- Byte `k` of an assembled value is the byte `k` above the address (20_memory.md R61). -/
theorem Memory.readLE_byte : ∀ (n : Nat) (m : Memory) (addr : DWord) (k : Nat), k < n → n ≤ 8 →
    (m.readLE addr n).extractLsb' (8 * k) 8 = m.read (addr + BitVec.ofNat 64 k).toNat
  | 0, _, _, _, hk, _ => absurd hk (Nat.not_lt_zero _)
  | n + 1, m, addr, 0, _, _ => by
    ext j hj
    simp only [Memory.readLE, BitVec.getElem_extractLsb', BitVec.getLsbD_or, BitVec.getLsbD_shiftLeft,
      BitVec.getLsbD_setWidth, Nat.mul_zero, Nat.zero_add, BitVec.add_zero]
    simp [show j < 64 by omega, hj]
  | n + 1, m, addr, k + 1, hk, hn => by
    have ih := Memory.readLE_byte n m (addr + 1#64) k (by omega) (by omega)
    rw [show addr + 1#64 + BitVec.ofNat 64 k = addr + BitVec.ofNat 64 (k + 1) by
      rw [BitVec.add_assoc, Nat.add_comm k 1, BitVec.ofNat_add]] at ih
    rw [← ih]
    ext j hj
    simp only [Memory.readLE, BitVec.getElem_extractLsb', BitVec.getLsbD_or, BitVec.getLsbD_shiftLeft,
      BitVec.getLsbD_setWidth]
    have h1 : 8 * (k + 1) + j < 64 := by omega
    have h2 : ¬ 8 * (k + 1) + j < 8 := by omega
    have h3 : 8 * (k + 1) + j - 8 = 8 * k + j := by omega
    have h4 : (m.read addr.toNat).getLsbD (8 * (k + 1) + j) = false := BitVec.getLsbD_of_ge _ _ (by omega)
    simp [h1, h2, h3, h4]

/-- Byte `k` of the bytes of a value (20_memory.md R62). -/
theorem bytesLE_getElem : ∀ (n : Nat) (v : DWord) (k : Nat) (hk : k < (bytesLE v n).length),
    (bytesLE v n)[k] = v.extractLsb' (8 * k) 8
  | 0, _, k, hk => absurd hk (Nat.not_lt_zero k)
  | n + 1, v, 0, _ => by ext j hj; simp [bytesLE]
  | n + 1, v, k + 1, hk => by
    have ih := bytesLE_getElem n (v >>> 8) k (by simpa [bytesLE] using hk)
    simp only [bytesLE, List.getElem_cons_succ, ih]
    ext j hj
    simp only [BitVec.getElem_extractLsb', BitVec.getLsbD_ushiftRight]
    congr 1; omega

/-- Reset memory has the canonical form: it lists nothing (10_state.md R50, log 3). -/
theorem State.reset_mem_wf : State.reset.mem.wf = true := rfl

end Sys2Proof.Machine
end

