-- ==== Sys2Proof/Laws/Ops.lean ====
section
/-! SUPPORT. Laws/Ops.lean: what each shared operation can do, said once: sequencing, the enabling
condition, the nine accessors of family REG, and the memory transactions. -/

namespace Sys2Proof.Machine

/-! ## Sequencing and the enabling condition -/

section Sequencing
variable {α β : Type}

@[simp] theorem andThen_next (x : α) (k : α → Host.Outcome β Fault Refusal) :
    andThen (.next x) k = k x := rfl

@[simp] theorem andThen_fault (r : Fault) (k : α → Host.Outcome β Fault Refusal) :
    andThen (.fault r) k = .fault r := rfl

@[simp] theorem andThen_refused (r : Refusal) (k : α → Host.Outcome β Fault Refusal) :
    andThen (.refused r) k = .refused r := rfl

/-- A sequence answers a next state exactly where both parts do. -/
theorem andThen_eq_next {o : Host.Outcome α Fault Refusal} {k : α → Host.Outcome β Fault Refusal}
    {y : β} : andThen o k = .next y ↔ ∃ x, o = .next x ∧ k x = .next y := by
  cases o <;> simp [andThen]

end Sequencing

/-- Where the operation is enabled it does what its meaning says. -/
theorem whenEnabled_of_enabled {i : Instr} {s : State} {e : Host.Outcome State Fault Refusal}
    (h : enabled i s = true) : whenEnabled i s e = e := by
  simp [whenEnabled, h]

/-- Where the operation is not enabled it faults. -/
theorem whenEnabled_of_not_enabled {i : Instr} {s : State} {e : Host.Outcome State Fault Refusal}
    (h : enabled i s = false) : whenEnabled i s e = .fault (.notEnabled i) := by
  simp [whenEnabled, h]

/-- A next state comes only from an enabled operation, and from its meaning. -/
theorem whenEnabled_eq_next {i : Instr} {s t : State} {e : Host.Outcome State Fault Refusal} :
    whenEnabled i s e = .next t ↔ enabled i s = true ∧ e = .next t := by
  cases h : enabled i s <;> simp [whenEnabled, h]

/-! ## The accessors of family REG: each is one transaction that completes -/

@[simp] theorem readHead_eq (a : Agent) (s : State) :
    readHead a s = .next (indexOfWord s.dev.rdh, s.emit (.regRd a s.cfg.offRdh s.dev.rdh)) := rfl

@[simp] theorem readTail_eq (a : Agent) (s : State) :
    readTail a s = .next (indexOfWord s.dev.rdt, s.emit (.regRd a s.cfg.offRdt s.dev.rdt)) := rfl

@[simp] theorem writeTail_eq (a : Agent) (i : Half) (s : State) :
    writeTail a i s = .next ({ s with dev := { s.dev with rdt := wordOfIndex i } }.emit
      (.regWr a s.cfg.offRdt (wordOfIndex i))) := rfl

@[simp] theorem readCause_eq (a : Agent) (s : State) :
    readCause a s = .next (s.dev.cause, { s with dev := { s.dev with cause := 0#32 } }.emit
      (.regRd a s.cfg.offIcr s.dev.cause)) := rfl

@[simp] theorem writeMaskSet_eq (a : Agent) (s : State) :
    writeMaskSet a s = .next ({ s with dev := { s.dev with
      mask := s.dev.mask ||| s.cfg.irqEnableMask } }.emit
        (.regWr a s.cfg.offIms s.cfg.irqEnableMask)) := rfl

@[simp] theorem writeMaskClear_eq (a : Agent) (s : State) :
    writeMaskClear a s = .next ({ s with dev := { s.dev with
      mask := s.dev.mask &&& ~~~s.cfg.irqDisableMask } }.emit
        (.regWr a s.cfg.offImc s.cfg.irqDisableMask)) := rfl

@[simp] theorem writeBaseLow_eq (a : Agent) (s : State) :
    writeBaseLow a s = .next ({ s with dev := { s.dev with rdbal := baseLow s.ringBase } }.emit
      (.regWr a s.cfg.offRdbal (baseLow s.ringBase))) := rfl

@[simp] theorem writeBaseHigh_eq (a : Agent) (s : State) :
    writeBaseHigh a s = .next ({ s with dev := { s.dev with rdbah := baseHigh s.ringBase } }.emit
      (.regWr a s.cfg.offRdbah (baseHigh s.ringBase))) := rfl

@[simp] theorem writeRingLength_eq (a : Agent) (s : State) :
    writeRingLength a s = .next ({ s with dev := { s.dev with rdlen := ringLength s.cfg } }.emit
      (.regWr a s.cfg.offRdlen (ringLength s.cfg))) := rfl

/-- ADVANCE_TAIL is NEXT, then RDT.W (30_encoding.md R106). -/
@[simp] theorem advanceTail_eq (a : Agent) (t : Half) (s : State) :
    advanceTail a t s = .next (nextIndex s.cfg.ringSize t,
      { s with dev := { s.dev with rdt := wordOfIndex (nextIndex s.cfg.ringSize t) } }.emit
        (.regWr a s.cfg.offRdt (wordOfIndex (nextIndex s.cfg.ringSize t)))) := rfl

/-! ## The memory transactions -/

/-- `MemRead` answers only an access the ring admits; it changes nothing but the history. -/
theorem memRead_eq_next {a : Agent} {addr : DWord} {n : Nat} {s : State} {p : DWord × State} :
    memRead a addr n s = .next p ↔ accessRefusal s addr n = none ∧
      p = (s.mem.readLE addr n, s.emit (.memRd a addr n (s.mem.readLE addr n))) := by
  cases h : accessRefusal s addr n <;> simp [memRead, h, eq_comm]

/-- `MemRead` never faults. -/
theorem memRead_ne_fault {a : Agent} {addr : DWord} {n : Nat} {s : State} {r : Fault} :
    memRead a addr n s ≠ .fault r := by
  cases h : accessRefusal s addr n <;> simp [memRead, h]

/-- `MemWrite` answers only an access the ring admits; it changes the bytes written and the history. -/
theorem memWrite_eq_next {a : Agent} {addr : DWord} {n : Nat} {v : DWord} {s t : State} :
    memWrite a addr n v s = .next t ↔ accessRefusal s addr n = none ∧
      t = { s with mem := s.mem.writeBytes addr (bytesLE v n) }.emit (.memWr a addr n v) := by
  cases h : accessRefusal s addr n <;> simp [memWrite, h, eq_comm]

/-- `MemWrite` never faults. -/
theorem memWrite_ne_fault {a : Agent} {addr : DWord} {n : Nat} {v : DWord} {s : State} {r : Fault} :
    memWrite a addr n v s ≠ .fault r := by
  cases h : accessRefusal s addr n <;> simp [memWrite, h]

/-- An access is refused by size, alignment and the ring's place alone. -/
theorem accessRefusal_congr {s t : State} (hc : t.cfg = s.cfg) (hb : t.ringBase = s.ringBase)
    (addr : DWord) (n : Nat) : accessRefusal t addr n = accessRefusal s addr n := by
  simp only [accessRefusal, hc, hb]

/-- An aligned access of an admitted size inside the ring is not refused. -/
theorem accessRefusal_none {s : State} {addr : DWord} {n : Nat} (hn : n = 1 ∨ n = 4 ∨ n = 8)
    (ha : addr.toNat % n = 0) (hi : insideRing s.cfg s.ringBase addr n = true) :
    accessRefusal s addr n = none := by
  simp [accessRefusal, hn, ha, hi]

/-! ## Abnormal ends -/

/-- `abandon` writes its record, its event and `wstate`, and nothing else (42_service_pass.md R175). -/
theorem abandon_eq (code : BitVec 4) (head tail : Half) (s : State) :
    abandon code head tail s =
      { s with errSeen := true, errCode := code, wstate := wIdle,
               trace := .log code head tail :: s.trace } := rfl

end Sys2Proof.Machine
end

