-- ==== Sys2Proof/Laws/Ring.lean ====
section
/-! SUPPORT. Laws/Ring.lean: ring index arithmetic and descriptor addresses as numbers
(41_ring_primitives.md R140 to R143, R148, R150). -/

namespace Sys2Proof.Machine

/-! ## Indices -/

theorem nextIndex_toNat {n : Nat} (hn : 0 < n) (hn' : n ≤ 65536) (i : Half) :
    (nextIndex n i).toNat = (i.toNat + 1) % n := by
  have := Nat.mod_lt (i.toNat + 1) hn
  simp only [nextIndex, BitVec.toNat_ofNat]
  omega

theorem prevIndex_toNat {n : Nat} (hn : 0 < n) (hn' : n ≤ 65536) (i : Half) :
    (prevIndex n i).toNat = if i.toNat = 0 then n - 1 else i.toNat - 1 := by
  have hi := i.isLt
  by_cases h : i = 0#16
  · subst h
    simp only [prevIndex, if_true, BitVec.toNat_ofNat, Nat.zero_mod]
    omega
  · have h0 : i.toNat ≠ 0 := fun e => h (BitVec.eq_of_toNat_eq (by simpa using e))
    simp only [prevIndex, h, h0, if_false, BitVec.toNat_sub, BitVec.toNat_ofNat]
    omega

theorem prevIndex_lt {n : Nat} (hn : 0 < n) (hn' : n ≤ 65536) {i : Half} (hi : i.toNat < n) :
    (prevIndex n i).toNat < n := by
  rw [prevIndex_toNat hn hn']; split <;> omega

theorem nextIndex_lt {n : Nat} (hn : 0 < n) (hn' : n ≤ 65536) (i : Half) :
    (nextIndex n i).toNat < n := by
  rw [nextIndex_toNat hn hn']; exact Nat.mod_lt _ hn

theorem inRange_iff {n : Nat} {i : Half} : inRange n i = true ↔ i.toNat < n := by
  simp [inRange]

/-- The distance round the ring from one index of it to another, without `mod`. -/
theorem ringDistance_eq {n : Nat} {a b : Half} (_ : a.toNat < n) (hb : b.toNat < n) :
    ringDistance n a b = if a.toNat ≤ b.toNat then b.toNat - a.toNat else b.toNat + n - a.toNat := by
  unfold ringDistance
  split
  · rw [show b.toNat + n - a.toNat = (b.toNat - a.toNat) + n by omega, Nat.add_mod_right,
      Nat.mod_eq_of_lt (by omega)]
  · rw [Nat.mod_eq_of_lt (by omega)]

theorem ringDistance_lt {n : Nat} (hn : 0 < n) (a b : Half) : ringDistance n a b < n :=
  Nat.mod_lt _ hn

theorem ringDistance_eq_zero {n : Nat} {a b : Half} (ha : a.toNat < n) (hb : b.toNat < n) :
    ringDistance n a b = 0 ↔ a = b := by
  rw [ringDistance_eq ha hb, ← BitVec.toNat_inj]
  split <;> omega

/-- One NEXT towards another index is one step less to go. -/
theorem ringDistance_next {n : Nat} (hn : 0 < n) (hn' : n ≤ 65536) {a b : Half} (ha : a.toNat < n)
    (hb : b.toNat < n) (hab : a ≠ b) :
    ringDistance n (nextIndex n a) b + 1 = ringDistance n a b := by
  have hne : a.toNat ≠ b.toNat := fun e => hab (BitVec.eq_of_toNat_eq e)
  rw [ringDistance_eq ha hb, ringDistance_eq (nextIndex_lt hn hn' a) hb, nextIndex_toNat hn hn']
  by_cases h : a.toNat + 1 = n
  · rw [h, Nat.mod_self]; split <;> split <;> omega
  · rw [Nat.mod_eq_of_lt (by omega)]; split <;> split <;> omega

/-- PENDCNT of a head and tail in range is the distance from the tail to the head's predecessor. -/
theorem pendingCount_toNat {n : Nat} (hn : 0 < n) (hn' : n ≤ 65536) {h t : Half} (hh : h.toNat < n)
    (ht : t.toNat < n) : (pendingCount n h t).toNat = ringDistance n t (prevIndex n h) := by
  have hp := prevIndex_lt hn hn' hh
  have := Nat.mod_lt ((prevIndex n h).toNat + n - t.toNat) hn
  rw [pendingCount, if_pos (by omega), BitVec.toNat_ofNat, ringDistance]
  omega

/-! ## Indices in register words -/

@[simp] theorem indexOfWord_wordOfIndex (i : Half) : indexOfWord (wordOfIndex i) = i := by
  apply BitVec.eq_of_toNat_eq
  have := i.isLt
  simp only [indexOfWord, wordOfIndex, BitVec.extractLsb'_toNat, BitVec.toNat_setWidth,
    Nat.shiftRight_zero]
  omega

/-- Whatever the upper half of a register word, the index is its lower half. -/
@[simp] theorem indexOfWord_append (upper i : Half) : indexOfWord (upper ++ i) = i := by
  unfold indexOfWord
  ext j hj
  rw [BitVec.getElem_extractLsb', BitVec.getLsbD_append]
  simp [hj]

/-! ## Descriptor addresses -/

theorem goodBase_iff {cfg : Config} {base : DWord} :
    goodBase cfg base = true ↔ base.toNat % 16 = 0 ∧ base.toNat + cfg.ringSize * 16 ≤ 2 ^ 64 := by
  simp only [goodBase, Bool.and_eq_true, beq_iff_eq, Config.ringBytes, descSize,
    ← BitVec.toNat_inj, BitVec.extractLsb'_toNat, Nat.shiftRight_zero, BitVec.toNat_ofNat]
  norm_num

/-- DESC_ADDR does not wrap for a base INIT accepts (41_ring_primitives.md R142). -/
theorem descAddress_toNat {cfg : Config} {base : DWord} {i : Half} (hb : goodBase cfg base = true)
    (hi : i.toNat < cfg.ringSize) : (descAddress base i).toNat = base.toNat + 16 * i.toNat := by
  have h := goodBase_iff.1 hb
  have := i.isLt
  simp only [descAddress, BitVec.toNat_add, BitVec.toNat_shiftLeft, BitVec.toNat_setWidth,
    Nat.shiftLeft_eq]
  omega

/-- A field's address does not wrap either. -/
theorem fieldAddress_toNat {cfg : Config} {base : DWord} {i : Half} (off : DWord)
    (hb : goodBase cfg base = true) (hi : i.toNat < cfg.ringSize) (ho : off.toNat < 16) :
    (descAddress base i + off).toNat = base.toNat + 16 * i.toNat + off.toNat := by
  have h := goodBase_iff.1 hb
  rw [BitVec.toNat_add, descAddress_toNat hb hi]
  omega

/-- A field of a descriptor of the ring, at an offset its size divides, is an access that completes
(20_memory.md R63, R78). -/
theorem accessRefusal_field {s : State} {i : Half} (off : DWord) {n : Nat}
    (hb : goodBase s.cfg s.ringBase = true) (hi : i.toNat < s.cfg.ringSize)
    (hn : n = 1 ∨ n = 4 ∨ n = 8) (ho : off.toNat % n = 0) (hon : off.toNat + n ≤ 16) :
    accessRefusal s (descAddress s.ringBase i + off) n = none := by
  have h := goodBase_iff.1 hb
  have ha := fieldAddress_toNat (cfg := s.cfg) off hb hi (by omega)
  refine accessRefusal_none hn ?_ ?_
  · rw [ha]; rcases hn with rfl | rfl | rfl <;> omega
  · simp only [insideRing, decide_eq_true_eq, ha, Config.ringBytes, descSize]; omega

/-- INIT's 17-bit index names the same descriptor as the 16-bit one (44_host_port_lifecycle.md R208). -/
theorem initDescAddress_eq {s : State} (h : s.initI.toNat < 65536) :
    initDescAddress s = descAddress s.ringBase (s.initI.setWidth 16) := by
  simp only [initDescAddress, descAddress]
  congr 2
  apply BitVec.eq_of_toNat_eq
  simp only [BitVec.toNat_setWidth]
  omega

end Sys2Proof.Machine
end

