-- ==== Sys2Proof/Laws/Desc.lean ====
section
/-! SUPPORT. Laws/Desc.lean: a descriptor read as words is its bytes (20_memory.md R60, 30_encoding.md
R91 to R95): the little-endian reads of INSPECT and MARK_FREE through `descByte` and `descWord`. -/

namespace Sys2Proof.Machine

theorem fieldByte_toNat {cfg : Config} {base : DWord} {i : Half} (hb : goodBase cfg base = true) (hi :
     i.toNat < cfg.ringSize) (off k : Nat) (h : off + k < 16) :
    (descAddress base i + BitVec.ofNat 64 off + BitVec.ofNat 64 k).toNat =
        (descAddress base i).toNat + (off + k) := by
  have e : descAddress base i + BitVec.ofNat 64 off + BitVec.ofNat 64 k =
      descAddress base i + BitVec.ofNat 64 (off + k) := by
    rw [BitVec.add_assoc, BitVec.ofNat_add]
  rw [e, fieldAddress_toNat _ hb hi (by simp; omega), descAddress_toNat hb hi]; simp; omega

theorem Memory.readLE_high : ∀ (n : Nat) (m : Memory) (a : DWord) (j : Nat),
    8 * n ≤ j → j < 64 → (m.readLE a n).getLsbD j = false
  | 0, _, _, _, _, _ => by simp [Memory.readLE]
  | n + 1, m, a, j, h, hj => by
    simp only [Memory.readLE, BitVec.getLsbD_or, BitVec.getLsbD_shiftLeft, BitVec.getLsbD_setWidth]
    rw [Memory.readLE_high n m (a + 1#64) (j - 8) (by omega) (by omega)]
    rw [BitVec.getLsbD_of_ge (m.read a.toNat) j (by omega)]; simp

theorem Memory.readLE_bit (m : Memory) (a : DWord) (n j : Nat) (hn : n ≤ 8) (h : j < 8 * n) :
    (m.readLE a n).getLsbD j = (m.read (a + BitVec.ofNat 64 (j / 8)).toNat).getLsbD (j % 8) := by
  rw [← Memory.readLE_byte n m a (j / 8) (by omega) hn, BitVec.getLsbD_extractLsb']
  simp [show j % 8 < 8 by omega, show 8 * (j / 8) + j % 8 = j by omega]

theorem descWord_bit (s : State) (i : Half) (k j : Nat) (h : j < 32) : (descWord s i k).getLsbD j =
    (descByte s i (k + j / 8)).getLsbD (j % 8) := by
  unfold descWord
  simp only [BitVec.getLsbD_append]
  by_cases h1 : j < 8
  · simp [h1, show j / 8 = 0 by omega, show j % 8 = j by omega]
  · by_cases h2 : j < 16
    · simp [h1, show j - 8 < 8 by omega, show j / 8 = 1 by omega, show j % 8 = j - 8 by omega]
    · by_cases h3 : j < 24
      · simp [h1, show ¬ j - 8 < 8 by omega, show j - 8 - 8 < 8 by omega, show j / 8 = 2 by omega,
          show j % 8 = j - 8 - 8 by omega]
      · simp [h1, show ¬ j - 8 < 8 by omega, show ¬ j - 8 - 8 < 8 by omega, show j / 8 = 3 by omega,
          show j % 8 = j - 8 - 8 - 8 by omega]

theorem readLE_descWord {s : State} {i : Half} (hb : goodBase s.cfg s.ringBase = true) (hi :
     i.toNat < s.cfg.ringSize) (off : Nat) (h : off ≤ 12) :
    s.mem.readLE (descAddress s.ringBase i + BitVec.ofNat 64 off) 4 =
        (descWord s i off).setWidth 64 := by
  apply BitVec.eq_of_getLsbD_eq
  intro j hj
  simp only [BitVec.getLsbD_setWidth, hj, decide_true, Bool.true_and]
  by_cases h1 : j < 32
  · rw [Memory.readLE_bit _ _ _ _ (by omega) (by omega), descWord_bit _ _ _ _ h1,
      fieldByte_toNat hb hi _ _ (by omega)]; rfl
  · rw [Memory.readLE_high _ _ _ _ (by omega) hj, BitVec.getLsbD_of_ge _ _ (by omega)]

theorem readLE_descAddrField {s : State} {i : Half} (hb : goodBase s.cfg s.ringBase = true) (hi :
     i.toNat < s.cfg.ringSize) :
    s.mem.readLE (descAddress s.ringBase i) 8 = descAddrField s i := by
  apply BitVec.eq_of_getLsbD_eq
  intro j hj
  have := fieldByte_toNat hb hi 0 (j / 8) (by omega)
  simp only [BitVec.add_zero, Nat.zero_add] at this
  rw [Memory.readLE_bit _ _ _ _ (by omega) (by omega), this, descAddrField, BitVec.getLsbD_append]
  split
  · rw [descWord_bit _ _ _ _ (by assumption)]; simp [descByte]
  · rw [descWord_bit _ _ _ _ (by omega)]; simp [descByte, show 4 + (j - 32) / 8 = j / 8 by omega,
      show (j-32) % 8 = j % 8 by omega]

theorem upperStatus_descWord (s : State) (i : Half) (k) : upperStatus ((descWord s i k).setWidth 64) =
    descByte s i k := by
  apply BitVec.eq_of_getLsbD_eq; intro j hj
  simp only [upperStatus, BitVec.getLsbD_extractLsb', BitVec.getLsbD_setWidth, Nat.zero_add]
  rw [descWord_bit _ _ _ _ (by omega)]; simp [show j / 8 = 0 by omega, show j % 8 = j by omega,
      hj]; intro h; omega

theorem upperErrors_descWord (s : State) (i : Half) (k) : upperErrors ((descWord s i k).setWidth 64) =
    descByte s i (k+1) := by
  apply BitVec.eq_of_getLsbD_eq; intro j hj
  simp only [upperErrors, BitVec.getLsbD_extractLsb', BitVec.getLsbD_setWidth]
  rw [descWord_bit _ _ _ _ (by omega)]; simp [show (8+j) / 8 = 1 by omega, show j % 8 = j by omega,
      hj]; intro h; omega

theorem lowerLength_descWord (s : State) (i : Half) : lowerLength ((descWord s i 8).setWidth 64) =
    descLength s i := by
  apply BitVec.eq_of_getLsbD_eq; intro j hj
  simp only [lowerLength, BitVec.getLsbD_extractLsb', BitVec.getLsbD_setWidth, Nat.zero_add, descLength]
  rw [descWord_bit _ _ _ _ (by omega), BitVec.getLsbD_append]
  split
  · simp [show j / 8 = 0 by omega, show j % 8 = j by omega, hj]; intro h; omega
  · simp [show j / 8 = 1 by omega, show j % 8 = j - 8 by omega, hj]; intro h; omega

theorem accessRefusal_at {s : State} {i : Half} (off n : Nat) (hb : goodBase s.cfg s.ringBase = true)
    (hi : i.toNat < s.cfg.ringSize)
    (hn : n = 1 ∨ n = 4 ∨ n = 8) (ho : off % n = 0) (hon : off + n ≤ 16) :
    accessRefusal s (descAddress s.ringBase i + BitVec.ofNat 64 off) n = none := by
  have e : (BitVec.ofNat 64 off).toNat = off := by simp; omega
  apply accessRefusal_field _ hb hi hn <;> rw [e] <;> omega

theorem accessRefusal_descriptor {s : State} {i : Half} (hb : goodBase s.cfg s.ringBase = true) (hi :
     i.toNat < s.cfg.ringSize) :
    accessRefusal s (descAddress s.ringBase i) 8 = none := by
  have := accessRefusal_at 0 8 hb hi (by simp) (by simp) (by simp); simpa using this

end Sys2Proof.Machine
end

