-- ==== Sys2Proof/Laws/Exec.lean ====
section
/-! SUPPORT. Laws/Exec.lean: one inversion lemma for each operation: exactly when it
answers a next state, and which. A proof about every step cites these and unfolds no meaning. The state
is on the left of the last equation, so that `subst` puts it in place of the next state. -/

namespace Sys2Proof.Machine

/-! ## Family REG (40_reg_accessors.md R122 to R130) -/

theorem execRdhR_next {s t} : execRdhR s = .next t ↔ enabled .rdhR s = true ∧
    { s with
        call := { s.call with resIdx := indexOfWord s.dev.rdh },
        trace := .regRd s.call.caller s.cfg.offRdh s.dev.rdh :: s.trace } = t := by
  simp [execRdhR, whenEnabled_eq_next, State.emit]

theorem execRdtR_next {s t} : execRdtR s = .next t ↔ enabled .rdtR s = true ∧
    { s with
        call := { s.call with resIdx := indexOfWord s.dev.rdt },
        trace := .regRd s.call.caller s.cfg.offRdt s.dev.rdt :: s.trace } = t := by
  simp [execRdtR, whenEnabled_eq_next, State.emit]

theorem execRdtW_next {s t} : execRdtW s = .next t ↔ enabled .rdtW s = true ∧
    { s with
        dev := { s.dev with rdt := wordOfIndex s.call.argIdx },
        trace := .regWr s.call.caller s.cfg.offRdt (wordOfIndex s.call.argIdx) :: s.trace } = t := by
  simp [execRdtW, whenEnabled_eq_next, State.emit]

theorem execIcrR_next {s t} : execIcrR s = .next t ↔ enabled .icrR s = true ∧
    { s with
        dev := { s.dev with cause := 0#32 }, call := { s.call with resWord := s.dev.cause },
        trace := .regRd s.call.caller s.cfg.offIcr s.dev.cause :: s.trace } = t := by
  simp [execIcrR, whenEnabled_eq_next, State.emit]

theorem execImsW_next {s t} : execImsW s = .next t ↔ enabled .imsW s = true ∧
    { s with
        dev := { s.dev with mask := s.dev.mask ||| s.cfg.irqEnableMask },
        trace := .regWr s.call.caller s.cfg.offIms s.cfg.irqEnableMask :: s.trace } = t := by
  simp [execImsW, whenEnabled_eq_next, State.emit]

theorem execImcW_next {s t} : execImcW s = .next t ↔ enabled .imcW s = true ∧
    { s with
        dev := { s.dev with mask := s.dev.mask &&& ~~~s.cfg.irqDisableMask },
        trace := .regWr s.call.caller s.cfg.offImc s.cfg.irqDisableMask :: s.trace } = t := by
  simp [execImcW, whenEnabled_eq_next, State.emit]

theorem execRdbalW_next {s t} : execRdbalW s = .next t ↔ enabled .rdbalW s = true ∧
    { s with
        dev := { s.dev with rdbal := baseLow s.ringBase },
        trace := .regWr s.call.caller s.cfg.offRdbal (baseLow s.ringBase) :: s.trace } = t := by
  simp [execRdbalW, whenEnabled_eq_next, State.emit]

theorem execRdbahW_next {s t} : execRdbahW s = .next t ↔ enabled .rdbahW s = true ∧
    { s with
        dev := { s.dev with rdbah := baseHigh s.ringBase },
        trace := .regWr s.call.caller s.cfg.offRdbah (baseHigh s.ringBase) :: s.trace } = t := by
  simp [execRdbahW, whenEnabled_eq_next, State.emit]

theorem execRdlenW_next {s t} : execRdlenW s = .next t ↔ enabled .rdlenW s = true ∧
    { s with
        dev := { s.dev with rdlen := ringLength s.cfg },
        trace := .regWr s.call.caller s.cfg.offRdlen (ringLength s.cfg) :: s.trace } = t := by
  simp [execRdlenW, whenEnabled_eq_next, State.emit]

/-! ## The transactions of family RING (41_ring_primitives.md R144, R145, R147), part by part -/

theorem execInspect_next {s t} : execInspect s = .next t ↔ enabled .inspect s = true ∧
    (if s.wstate = wInspU then
      accessRefusal s (descAddress s.ringBase s.call.argIdx + upperOff) 4 = none ∧
      { s with
          call := { s.call with resView := { s.call.resView with
            status := upperStatus (s.mem.readLE (descAddress s.ringBase s.call.argIdx + upperOff) 4),
            errors := upperErrors (s.mem.readLE (descAddress s.ringBase s.call.argIdx + upperOff) 4) } },
          trace := .memRd s.call.caller (descAddress s.ringBase s.call.argIdx + upperOff) 4
            (s.mem.readLE (descAddress s.ringBase s.call.argIdx + upperOff) 4) :: s.trace } = t
    else if s.wstate = wInspL then
      accessRefusal s (descAddress s.ringBase s.call.argIdx + lowerOff) 4 = none ∧
      { s with
          call := { s.call with resView := { s.call.resView with
            length := lowerLength (s.mem.readLE (descAddress s.ringBase s.call.argIdx + lowerOff) 4) } },
          trace := .memRd s.call.caller (descAddress s.ringBase s.call.argIdx + lowerOff) 4
            (s.mem.readLE (descAddress s.ringBase s.call.argIdx + lowerOff) 4) :: s.trace } = t
    else
      accessRefusal s (descAddress s.ringBase s.call.argIdx) 8 = none ∧
      { s with
          call := { s.call with resView := { s.call.resView with
            addr := s.mem.readLE (descAddress s.ringBase s.call.argIdx) 8 } },
          trace := .memRd s.call.caller (descAddress s.ringBase s.call.argIdx) 8
            (s.mem.readLE (descAddress s.ringBase s.call.argIdx) 8) :: s.trace } = t) := by
  simp only [execInspect, whenEnabled_eq_next]
  refine and_congr_right fun _ => ?_
  split
  · simp [inspectUpper, andThen_eq_next, memRead_eq_next, State.emit]
  · split <;> simp [inspectLower, inspectAddr, andThen_eq_next, memRead_eq_next, State.emit]

theorem execAdvanceTail_next {s t} : execAdvanceTail s = .next t ↔ enabled .advanceTail s = true ∧
    { s with
        dev := { s.dev with rdt := wordOfIndex (nextIndex s.cfg.ringSize s.call.argIdx) },
        call := { s.call with resIdx := nextIndex s.cfg.ringSize s.call.argIdx },
        trace := .regWr s.call.caller s.cfg.offRdt
          (wordOfIndex (nextIndex s.cfg.ringSize s.call.argIdx)) :: s.trace } = t := by
  simp [execAdvanceTail, whenEnabled_eq_next, State.emit]

theorem execMarkFree_next {s t} : execMarkFree s = .next t ↔ enabled .markFree s = true ∧
    accessRefusal s (descAddress s.ringBase s.call.argIdx + upperOff) 1 = none ∧
    (if s.wstate = wClrR then
      { s with
          call := { s.call with resByte :=
            (s.mem.readLE (descAddress s.ringBase s.call.argIdx + upperOff) 1).setWidth 8 },
          trace := .memRd s.call.caller (descAddress s.ringBase s.call.argIdx + upperOff) 1
            (s.mem.readLE (descAddress s.ringBase s.call.argIdx + upperOff) 1) :: s.trace }
    else
      { s with
          mem := s.mem.writeBytes (descAddress s.ringBase s.call.argIdx + upperOff)
            (bytesLE ((clearedStatus s.cfg.doneMask s.call.argByte).setWidth 64) 1),
          trace := .memWr s.call.caller (descAddress s.ringBase s.call.argIdx + upperOff) 1
            ((clearedStatus s.cfg.doneMask s.call.argByte).setWidth 64) :: s.trace }) = t := by
  simp only [execMarkFree, whenEnabled_eq_next]
  refine and_congr_right fun _ => ?_
  split
  · simp [statusRead, andThen_eq_next, memRead_eq_next, State.emit]
  · rw [statusClear, memWrite_eq_next, eq_comm (a := t)]; rfl

/-! ## Family PASS (42_service_pass.md R160 to R172) -/

theorem execPassStart_next {s t} : execPassStart s = .next t ↔
    (s.life = lifeReady ∧ s.wstate = wIdle ∧ s.pending = true) ∧
    { s with pending := false, iter := 0#17, passConsumed := 0#17, wstate := wSnapH } = t := by
  simp [execPassStart, whenEnabled_eq_next, enabled, stepEnabled, and_assoc]

theorem execPassSnapH_next {s t} : execPassSnapH s = .next t ↔ s.wstate = wSnapH ∧
    { s with
        headS := indexOfWord s.dev.rdh, wstate := wSnapT,
        trace := .regRd .walker s.cfg.offRdh s.dev.rdh :: s.trace } = t := by
  simp [execPassSnapH, whenEnabled_eq_next, enabled, stepEnabled, State.emit]

theorem execPassSnapT_next {s t} : execPassSnapT s = .next t ↔ s.wstate = wSnapT ∧
    (if inRange s.cfg.ringSize s.headS && inRange s.cfg.ringSize (indexOfWord s.dev.rdt)
     then { s with
         tailC := indexOfWord s.dev.rdt, prevHead := prevIndex s.cfg.ringSize s.headS,
         wstate := wTest, trace := .regRd .walker s.cfg.offRdt s.dev.rdt :: s.trace }
     else { s with
         tailC := indexOfWord s.dev.rdt, errSeen := true, errCode := eIndexRange, wstate := wIdle,
         trace := .log eIndexRange s.headS (indexOfWord s.dev.rdt) ::
         .regRd .walker s.cfg.offRdt s.dev.rdt :: s.trace}) = t := by
  simp only [execPassSnapT, whenEnabled_eq_next, enabled, stepEnabled, readTail_eq, andThen_next, beq_iff_eq,
      State.emit]
  refine and_congr_right fun _ => ?_
  split <;> simp_all [abandon, State.emit]

theorem execPassTest_next {s t} : execPassTest s = .next t ↔ s.wstate = wTest ∧
    (if s.tailC = s.prevHead then { s with wstate := wIdle }
     else if s.cfg.iterCap ≤ s.iter.toNat then { s with
         errSeen := true, errCode := eIterCap, wstate := wIdle,
         trace := .log eIterCap s.headS s.tailC :: s.trace}
     else { s with wstate := wAdv }) = t := by
  simp only [execPassTest, whenEnabled_eq_next, enabled, stepEnabled, beq_iff_eq]
  refine and_congr_right fun _ => ?_
  split
  · simp_all
  · split <;> simp_all [abandon, State.emit]

theorem execPassAdv_next {s t} : execPassAdv s = .next t ↔ s.wstate = wAdv ∧
    { s with
        tailC := nextIndex s.cfg.ringSize s.tailC, iter := s.iter + 1#17, wstate := wRrH,
        dev := { s.dev with rdt := wordOfIndex (nextIndex s.cfg.ringSize s.tailC) },
        trace := .regWr .walker s.cfg.offRdt (wordOfIndex (nextIndex s.cfg.ringSize s.tailC)) ::
        s.trace } = t := by
  simp [execPassAdv, whenEnabled_eq_next, enabled, stepEnabled, State.emit]

theorem execPassRrH_next {s t} : execPassRrH s = .next t ↔ s.wstate = wRrH ∧
    (if inRange s.cfg.ringSize (indexOfWord s.dev.rdh) then
     { s with
         headLive := indexOfWord s.dev.rdh, wstate := wRrT,
         trace := .regRd .walker s.cfg.offRdh s.dev.rdh :: s.trace }
     else { s with
         headLive := indexOfWord s.dev.rdh, errSeen := true, errCode := eIndexRange, wstate := wIdle,
         trace := .log eIndexRange (indexOfWord s.dev.rdh) s.tailC ::
         .regRd .walker s.cfg.offRdh s.dev.rdh :: s.trace}) = t := by
  simp only [execPassRrH, whenEnabled_eq_next, enabled, stepEnabled, readHead_eq, andThen_next, beq_iff_eq,
      State.emit]
  refine and_congr_right fun _ => ?_
  split <;> simp_all [abandon, State.emit]

theorem execPassRrT_next {s t} : execPassRrT s = .next t ↔ s.wstate = wRrT ∧
    (if indexOfWord s.dev.rdt = s.tailC then
     { s with wstate := wInspU, trace := .regRd .walker s.cfg.offRdt s.dev.rdt :: s.trace }
     else { s with
         errSeen := true, errCode := eTailReadback, wstate := wIdle,
         trace := .log eTailReadback s.headLive (indexOfWord s.dev.rdt) ::
         .regRd .walker s.cfg.offRdt s.dev.rdt :: s.trace}) = t := by
  simp only [execPassRrT, whenEnabled_eq_next, enabled, stepEnabled, readTail_eq, andThen_next, beq_iff_eq,
      State.emit]
  refine and_congr_right fun _ => ?_
  split <;> simp_all [abandon, State.emit]

theorem execPassInspU_next {s t} : execPassInspU s = .next t ↔ s.wstate = wInspU ∧
    accessRefusal s (descAddress s.ringBase s.tailC + upperOff) 4 = none ∧
    { s with
        view := { s.view with
          status := upperStatus (s.mem.readLE (descAddress s.ringBase s.tailC + upperOff) 4),
          errors := upperErrors (s.mem.readLE (descAddress s.ringBase s.tailC + upperOff) 4) },
        wstate := wInspL,
        trace := .memRd .walker (descAddress s.ringBase s.tailC + upperOff) 4
          (s.mem.readLE (descAddress s.ringBase s.tailC + upperOff) 4) :: s.trace } = t := by
  simp [execPassInspU, whenEnabled_eq_next, enabled, stepEnabled, inspectUpper, andThen_eq_next, memRead_eq_next,
      State.emit]

theorem execPassInspL_next {s t} : execPassInspL s = .next t ↔ s.wstate = wInspL ∧
    accessRefusal s (descAddress s.ringBase s.tailC + lowerOff) 4 = none ∧
    { s with
        view := { s.view with
          length := lowerLength (s.mem.readLE (descAddress s.ringBase s.tailC + lowerOff) 4) },
        wstate := wInspA,
        trace := .memRd .walker (descAddress s.ringBase s.tailC + lowerOff) 4
          (s.mem.readLE (descAddress s.ringBase s.tailC + lowerOff) 4) :: s.trace } = t := by
  simp [execPassInspL, whenEnabled_eq_next, enabled, stepEnabled, inspectLower, andThen_eq_next, memRead_eq_next,
      State.emit]

theorem execPassInspA_next {s t} : execPassInspA s = .next t ↔ s.wstate = wInspA ∧
    accessRefusal s (descAddress s.ringBase s.tailC) 8 = none ∧
    { s with
        view := { s.view with addr := s.mem.readLE (descAddress s.ringBase s.tailC) 8 },
        wstate := if isDone s.cfg.doneMask s.view.status then wConsume else wTest,
        trace := .memRd .walker (descAddress s.ringBase s.tailC) 8
          (s.mem.readLE (descAddress s.ringBase s.tailC) 8) :: s.trace } = t := by
  simp [execPassInspA, whenEnabled_eq_next, enabled, stepEnabled, inspectAddr, andThen_eq_next, memRead_eq_next,
      State.emit]

theorem execPassConsume_next {s t} : execPassConsume s = .next t ↔ s.wstate = wConsume ∧
    { s with
        passConsumed := s.passConsumed + 1#17, wstate := wClrR,
        trace := .consume s.tailC s.view.addr s.view.length s.view.status s.view.errors :: s.trace } =
        t := by
  simp [execPassConsume, whenEnabled_eq_next, enabled, stepEnabled, State.emit]

theorem execPassClrR_next {s t} : execPassClrR s = .next t ↔ s.wstate = wClrR ∧
    accessRefusal s (descAddress s.ringBase s.tailC + upperOff) 1 = none ∧
    { s with
        clrTmp := (s.mem.readLE (descAddress s.ringBase s.tailC + upperOff) 1).setWidth 8,
        wstate := wClrW,
        trace := .memRd .walker (descAddress s.ringBase s.tailC + upperOff) 1
          (s.mem.readLE (descAddress s.ringBase s.tailC + upperOff) 1) :: s.trace } = t := by
  simp [execPassClrR, whenEnabled_eq_next, enabled, stepEnabled, statusRead, andThen_eq_next, memRead_eq_next,
      State.emit]

theorem execPassClrW_next {s t} : execPassClrW s = .next t ↔ s.wstate = wClrW ∧
    accessRefusal s (descAddress s.ringBase s.tailC + upperOff) 1 = none ∧
    { s with
        mem := s.mem.writeBytes (descAddress s.ringBase s.tailC + upperOff)
          (bytesLE ((clearedStatus s.cfg.doneMask s.clrTmp).setWidth 64) 1),
        wstate := wTest,
        trace := .memWr .walker (descAddress s.ringBase s.tailC + upperOff) 1
          ((clearedStatus s.cfg.doneMask s.clrTmp).setWidth 64) :: s.trace } = t := by
  simp [execPassClrW, whenEnabled_eq_next, enabled, stepEnabled, statusClear, andThen_eq_next, memWrite_eq_next,
      State.emit]

/-! ## Family IRQ (43_irq_front_end.md R190 to R192) -/

theorem execIrqAck_next {s t} : execIrqAck s = .next t ↔ (s.life = lifeReady ∧ s.istate = iIdle ∧
    irq s.dev = true) ∧
    { s with
        icrLatch := s.dev.cause, istate := iSched, dev := { s.dev with cause := 0#32 },
        trace := .regRd .ife s.cfg.offIcr s.dev.cause :: s.trace } = t := by
  simp [execIrqAck, whenEnabled_eq_next, enabled, stepEnabled, State.emit, and_assoc]

theorem execIrqSched_next {s t} : execIrqSched s = .next t ↔ s.istate = iSched ∧
    { s with pending := true, istate := iRearm } = t := by
  simp [execIrqSched, whenEnabled_eq_next, enabled, stepEnabled]

theorem execIrqRearm_next {s t} : execIrqRearm s = .next t ↔ s.istate = iRearm ∧
    { s with
        istate := iIdle, dev := { s.dev with mask := s.dev.mask ||| s.cfg.irqEnableMask },
        trace := .regWr .ife s.cfg.offIms s.cfg.irqEnableMask :: s.trace } = t := by
  simp [execIrqRearm, whenEnabled_eq_next, enabled, stepEnabled, State.emit]

/-! ## Families PORT, INIT, QUIESCE (44_host_port_lifecycle.md R200 to R217) -/

/-- R200 row 4. -/
theorem portReadAccepted_iff {s} : portReadAccepted s = true ↔
    s.life = lifeReady ∧ ∃ l rest, s.cmds = .portRead true l :: rest ∧ 4 ≤ l := by
  unfold portReadAccepted; split <;> simp_all [and_assoc]

/-- R200 row 7. -/
theorem portWriteAccepted_iff {s} : portWriteAccepted s = true ↔
    s.life = lifeReady ∧ ∃ l rest, s.cmds = .portWrite true l :: rest ∧ 1 ≤ l := by
  unfold portWriteAccepted; split <;> simp_all [and_assoc]

/-- R200 row 10. -/
theorem initAccepted_iff {s} : initAccepted s = true ↔
    s.life = lifeUnattached ∧ ∃ base buf rest, s.cmds = .init base buf :: rest ∧
      goodBase s.cfg base = true := by
  unfold initAccepted; split <;> simp_all

/-- R200, last row. -/
theorem quiesceAccepted_iff {s} : quiesceAccepted s = true ↔
    s.life = lifeReady ∧ s.istate = iIdle ∧ ∃ rest, s.cmds = .quiesce :: rest := by
  unfold quiesceAccepted; split <;> simp_all

theorem execPortRdH_next {s t} : execPortRdH s = .next t ↔ s.hstate = hIdle ∧ s.life = lifeReady ∧
    ∃ l rest, s.cmds = .portRead true l :: rest ∧ 4 ≤ l ∧
    { s with
        cmds := rest, portH := indexOfWord s.dev.rdh, hstate := hPortT,
        trace := .regRd .hostcmd s.cfg.offRdh s.dev.rdh :: s.trace } = t := by
  simp only [execPortRdH, whenEnabled_eq_next, enabled, stepEnabled, Bool.and_eq_true, beq_iff_eq,
    portReadAccepted_iff, and_assoc, readHead_eq, andThen_next, Host.Outcome.next.injEq]
  constructor
  · rintro ⟨hh, hl, ⟨l, rest, hc, h4⟩, h⟩
    rw [hc] at h; exact ⟨hh, hl, l, rest, hc, h4, h⟩
  · rintro ⟨hh, hl, l, rest, hc, h4, h⟩
    refine ⟨hh, hl, ⟨l, rest, hc, h4⟩, ?_⟩
    rw [hc]; exact h

theorem execPortRdT_next {s t} : execPortRdT s = .next t ↔ s.hstate = hPortT ∧
    { s with
        hstate := hIdle, trace := .portReply true 4#32 (portWord s.portH (indexOfWord s.dev.rdt)) ::
        .regRd .hostcmd s.cfg.offRdt s.dev.rdt :: s.trace } = t := by
  simp [execPortRdT, whenEnabled_eq_next, enabled, stepEnabled, State.emit]

theorem execPortWrite_next {s t} : execPortWrite s = .next t ↔ s.hstate = hIdle ∧ s.life = lifeReady ∧
    ∃ l rest, s.cmds = .portWrite true l :: rest ∧ 1 ≤ l ∧
    { s with cmds := rest, trace := .portReply true (BitVec.ofNat 32 l) 0#32 :: s.trace } = t := by
  simp only [execPortWrite, whenEnabled_eq_next, enabled, stepEnabled, Bool.and_eq_true, beq_iff_eq,
    portWriteAccepted_iff, and_assoc]
  constructor
  · rintro ⟨hh, hl, ⟨l, rest, hc, h1⟩, h⟩
    rw [hc, Host.Outcome.next.injEq] at h; exact ⟨hh, hl, l, rest, hc, h1, h⟩
  · rintro ⟨hh, hl, l, rest, hc, h1, h⟩
    refine ⟨hh, hl, ⟨l, rest, hc, h1⟩, ?_⟩
    rw [hc, Host.Outcome.next.injEq]; exact h

theorem execInitLatch_next {s t} : execInitLatch s = .next t ↔ s.hstate = hIdle ∧
    s.life = lifeUnattached ∧ ∃ base buf rest, s.cmds = .init base buf :: rest ∧
    goodBase s.cfg base = true ∧
    { s with
        cmds := rest, initBase := base, initBuf := buf, ringBase := base, initI := 0#17,
        hstate := hDescA } = t := by
  simp only [execInitLatch, whenEnabled_eq_next, enabled, stepEnabled, Bool.and_eq_true, beq_iff_eq,
    initAccepted_iff, and_assoc]
  constructor
  · rintro ⟨hh, hl, ⟨b, buf, rest, hc, hb⟩, h⟩
    rw [hc, Host.Outcome.next.injEq] at h; exact ⟨hh, hl, b, buf, rest, hc, hb, h⟩
  · rintro ⟨hh, hl, b, buf, rest, hc, hb, h⟩
    refine ⟨hh, hl, ⟨b, buf, rest, hc, hb⟩, ?_⟩
    rw [hc, Host.Outcome.next.injEq]; exact h

theorem execInitDescA_next {s t} : execInitDescA s = .next t ↔ s.hstate = hDescA ∧ ∃ b,
    s.initBuf[s.initI.toNat]? = some b ∧
    accessRefusal s (initDescAddress s) 8 = none ∧
    { s with
        hstate := hDescL, mem := s.mem.writeBytes (initDescAddress s) (bytesLE b 8),
        trace := .memWr .hostcmd (initDescAddress s) 8 b :: s.trace } = t := by
  simp only [execInitDescA, whenEnabled_eq_next, enabled, stepEnabled, beq_iff_eq]
  refine and_congr_right fun _ => ?_
  cases h : s.initBuf[s.initI.toNat]? <;> simp [andThen_eq_next, memWrite_eq_next, State.emit]

theorem execInitDescL_next {s t} : execInitDescL s = .next t ↔ s.hstate = hDescL ∧
    accessRefusal s (initDescAddress s + lowerOff) 4 = none ∧
    { s with
        hstate := hDescU, mem := s.mem.writeBytes (initDescAddress s + lowerOff) (bytesLE 0#64 4),
        trace := .memWr .hostcmd (initDescAddress s + lowerOff) 4 0#64 :: s.trace } = t := by
  simp [execInitDescL, whenEnabled_eq_next, enabled, stepEnabled, andThen_eq_next, memWrite_eq_next, State.emit]

theorem execInitDescU_next {s t} : execInitDescU s = .next t ↔ s.hstate = hDescU ∧
    accessRefusal s (initDescAddress s + upperOff) 4 = none ∧
    (if s.initI.toNat + 1 < s.cfg.ringSize then
    { s with
        hstate := hDescA, initI := s.initI + 1#17,
        mem := s.mem.writeBytes (initDescAddress s + upperOff) (bytesLE 0#64 4),
        trace := .memWr .hostcmd (initDescAddress s + upperOff) 4 0#64 :: s.trace }
    else { s with
        hstate := hBah, mem := s.mem.writeBytes (initDescAddress s + upperOff) (bytesLE 0#64 4),
        trace := .memWr .hostcmd (initDescAddress s + upperOff) 4 0#64 :: s.trace }) = t := by
  simp [execInitDescU, whenEnabled_eq_next, enabled, stepEnabled, andThen_eq_next, memWrite_eq_next, State.emit]
  intro _ _; split <;> simp

theorem execInitBah_next {s t} : execInitBah s = .next t ↔ s.hstate = hBah ∧
    { s with
        hstate := hBal, dev := { s.dev with rdbah := baseHigh s.ringBase },
        trace := .regWr .hostcmd s.cfg.offRdbah (baseHigh s.ringBase) :: s.trace } = t := by
  simp [execInitBah, whenEnabled_eq_next, enabled, stepEnabled, State.emit]

theorem execInitBal_next {s t} : execInitBal s = .next t ↔ s.hstate = hBal ∧
    { s with
        hstate := hLen, dev := { s.dev with rdbal := baseLow s.ringBase },
        trace := .regWr .hostcmd s.cfg.offRdbal (baseLow s.ringBase) :: s.trace } = t := by
  simp [execInitBal, whenEnabled_eq_next, enabled, stepEnabled, State.emit]

theorem execInitLen_next {s t} : execInitLen s = .next t ↔ s.hstate = hLen ∧
    { s with
        hstate := hTail, dev := { s.dev with rdlen := ringLength s.cfg },
        trace := .regWr .hostcmd s.cfg.offRdlen (ringLength s.cfg) :: s.trace } = t := by
  simp [execInitLen, whenEnabled_eq_next, enabled, stepEnabled, State.emit]

theorem execInitTail_next {s t} : execInitTail s = .next t ↔ s.hstate = hTail ∧
    { s with
        hstate := hArm,
        dev := { s.dev with rdt := wordOfIndex (BitVec.ofNat 16 (s.cfg.ringSize - 1)) },
        trace := .regWr .hostcmd s.cfg.offRdt (wordOfIndex (BitVec.ofNat 16 (s.cfg.ringSize - 1))) ::
        s.trace } = t := by
  simp [execInitTail, whenEnabled_eq_next, enabled, stepEnabled, State.emit]

theorem execInitArm_next {s t} : execInitArm s = .next t ↔ s.hstate = hArm ∧
    { s with
        hstate := hIdle, life := lifeReady,
        dev := { s.dev with mask := s.dev.mask ||| s.cfg.irqEnableMask }, trace := .initDone ::
        .regWr .hostcmd s.cfg.offIms s.cfg.irqEnableMask :: s.trace } = t := by
  simp [execInitArm, whenEnabled_eq_next, enabled, stepEnabled, State.emit]

theorem execQuiesceMask_next {s t} : execQuiesceMask s = .next t ↔ s.hstate = hIdle ∧
    s.life = lifeReady ∧ s.istate = iIdle ∧ ∃ rest, s.cmds = .quiesce :: rest ∧
    { s with
        cmds := rest, pending := false, life := lifeQuiescing, hstate := hQwait,
        dev := { s.dev with mask := s.dev.mask &&& ~~~s.cfg.irqDisableMask },
        trace := .regWr .hostcmd s.cfg.offImc s.cfg.irqDisableMask :: s.trace } = t := by
  simp only [execQuiesceMask, whenEnabled_eq_next, enabled, stepEnabled, Bool.and_eq_true, beq_iff_eq,
    quiesceAccepted_iff, and_assoc, writeMaskClear_eq, andThen_next, Host.Outcome.next.injEq]
  constructor
  · rintro ⟨hh, hl, hi, ⟨rest, hc⟩, h⟩
    rw [hc] at h; exact ⟨hh, hl, hi, rest, hc, h⟩
  · rintro ⟨hh, hl, hi, rest, hc, h⟩
    refine ⟨hh, hl, hi, ⟨rest, hc⟩, ?_⟩
    rw [hc]; exact h

theorem execQuiesceWait_next {s t} : execQuiesceWait s = .next t ↔ (s.hstate = hQwait ∧ s.wstate =
    wIdle) ∧
    { s with life := lifeUnattached, hstate := hIdle, trace := .quiesced :: s.trace } = t := by
  simp [execQuiesceWait, whenEnabled_eq_next, enabled, stepEnabled, State.emit, and_assoc]

/-! ## The step that turns a command away (R200, 30_encoding.md R105) -/

/-- A command that is turned away adds one event, a `Refused` or an invalid-argument reply, and changes
nothing else. -/
theorem turnAway_some {c : Command} {s t : State} (h : turnAway c s = some t) :
    ∃ e, t = s.emit e ∧ ((∃ r, e = .refused r) ∨ e = .portReply false 0#32 0#32) := by
  cases c <;> simp only [turnAway] at h
  all_goals
    repeat' split at h
    all_goals first
      | simp only [reduceCtorEq] at h
      | (cases h; exact ⟨_, refuseCommand_eq_emit _ _, Or.inl ⟨_, rfl⟩⟩)
      | (cases h; exact ⟨_, invalidArgument_eq_emit _, Or.inr rfl⟩)

/-- HOSTCMD turns a command away exactly where it is idle and R200 turns the oldest waiting one away. -/
theorem acceptStep_eq_some {s t : State} : acceptStep s = some t ↔
    s.life ≠ lifeUnused ∧ s.hstate = hIdle ∧
      ∃ c rest, s.cmds = c :: rest ∧ turnAway c { s with cmds := rest } = some t := by
  unfold acceptStep
  split
  · rename_i h; simp only [reduceCtorEq, false_iff]; tauto
  · rename_i h
    simp only [not_or, not_not] at h
    split <;> simp_all

/-- What turning a command away leaves: the command taken, one event more. -/
theorem acceptStep_cases {s t : State} (h : acceptStep s = some t) :
    s.life ≠ lifeUnused ∧ s.hstate = hIdle ∧ ∃ c rest e, s.cmds = c :: rest ∧
      t = { s with cmds := rest, trace := e :: s.trace } ∧
      ((∃ r, e = .refused r) ∨ e = .portReply false 0#32 0#32) := by
  obtain ⟨hl, hh, c, rest, hc, h⟩ := acceptStep_eq_some.1 h
  obtain ⟨e, ht, he⟩ := turnAway_some h
  exact ⟨hl, hh, c, rest, e, hc, ht, he⟩

/-- A command that begins an operation is not turned away. -/
theorem acceptStep_of_accepted {s : State} (h : portReadAccepted s = true ∨ portWriteAccepted s = true ∨
    initAccepted s = true ∨ quiesceAccepted s = true) : acceptStep s = none := by
  rw [portReadAccepted_iff, portWriteAccepted_iff, initAccepted_iff, quiesceAccepted_iff] at h
  unfold acceptStep
  split
  · rfl
  · rcases h with ⟨hl, l, r, hc, h4⟩ | ⟨hl, l, r, hc, h4⟩ | ⟨hl, b, f, r, hc, hb⟩ | ⟨hl, -, r, hc⟩ <;>
      simp_all [turnAway]
    all_goals omega

end Sys2Proof.Machine
end

