-- ==== Sys2Proof/Laws/PerInstr.lean ====
section
/-! SUPPORT. Laws/PerInstr.lean: one lemma per operation of 30_encoding.md R101. Family `CodeNibbles`:
the operation is well formed and its code is made of its family nibble, one of 0x0 to 0x6, above its
index nibble (R100). -/

namespace Sys2Proof.Laws.CodeNibbles

/-- The code of a well-formed operation reads back as its family and its index (30_encoding.md R100). -/
def Statement (i : Instr) : Prop :=
  i.wf = true ∧ i.family.toNat ≤ 6 ∧
    (encode i).extractLsb' 4 4 = i.family ∧ (encode i).extractLsb' 0 4 = i.index

theorem rdhR : Statement .rdhR := by unfold Statement; decide
theorem rdtR : Statement .rdtR := by unfold Statement; decide
theorem rdtW : Statement .rdtW := by unfold Statement; decide
theorem icrR : Statement .icrR := by unfold Statement; decide
theorem imsW : Statement .imsW := by unfold Statement; decide
theorem imcW : Statement .imcW := by unfold Statement; decide
theorem rdbalW : Statement .rdbalW := by unfold Statement; decide
theorem rdbahW : Statement .rdbahW := by unfold Statement; decide
theorem rdlenW : Statement .rdlenW := by unfold Statement; decide
theorem nextIdx : Statement .nextIdx := by unfold Statement; decide
theorem prevIdx : Statement .prevIdx := by unfold Statement; decide
theorem descAddr : Statement .descAddr := by unfold Statement; decide
theorem pendcnt : Statement .pendcnt := by unfold Statement; decide
theorem inspect : Statement .inspect := by unfold Statement; decide
theorem advanceTail : Statement .advanceTail := by unfold Statement; decide
theorem isdone : Statement .isdone := by unfold Statement; decide
theorem markFree : Statement .markFree := by unfold Statement; decide
theorem passStart : Statement .passStart := by unfold Statement; decide
theorem passSnapH : Statement .passSnapH := by unfold Statement; decide
theorem passSnapT : Statement .passSnapT := by unfold Statement; decide
theorem passTest : Statement .passTest := by unfold Statement; decide
theorem passAdv : Statement .passAdv := by unfold Statement; decide
theorem passRrH : Statement .passRrH := by unfold Statement; decide
theorem passRrT : Statement .passRrT := by unfold Statement; decide
theorem passInspU : Statement .passInspU := by unfold Statement; decide
theorem passInspL : Statement .passInspL := by unfold Statement; decide
theorem passInspA : Statement .passInspA := by unfold Statement; decide
theorem passConsume : Statement .passConsume := by unfold Statement; decide
theorem passClrR : Statement .passClrR := by unfold Statement; decide
theorem passClrW : Statement .passClrW := by unfold Statement; decide
theorem irqAck : Statement .irqAck := by unfold Statement; decide
theorem irqSched : Statement .irqSched := by unfold Statement; decide
theorem irqRearm : Statement .irqRearm := by unfold Statement; decide
theorem portRdH : Statement .portRdH := by unfold Statement; decide
theorem portRdT : Statement .portRdT := by unfold Statement; decide
theorem portWrite : Statement .portWrite := by unfold Statement; decide
theorem initLatch : Statement .initLatch := by unfold Statement; decide
theorem initDescA : Statement .initDescA := by unfold Statement; decide
theorem initDescL : Statement .initDescL := by unfold Statement; decide
theorem initDescU : Statement .initDescU := by unfold Statement; decide
theorem initBah : Statement .initBah := by unfold Statement; decide
theorem initBal : Statement .initBal := by unfold Statement; decide
theorem initLen : Statement .initLen := by unfold Statement; decide
theorem initTail : Statement .initTail := by unfold Statement; decide
theorem initArm : Statement .initArm := by unfold Statement; decide
theorem quiesceMask : Statement .quiesceMask := by unfold Statement; decide
theorem quiesceWait : Statement .quiesceWait := by unfold Statement; decide

end Sys2Proof.Laws.CodeNibbles
end

