-- ==== Sys2Proof/Laws/Step.lean ====
section
/-! SUPPORT. Laws/Step.lean: everything one step of the machine can be, said once. A proof about every
step takes its cases from `step_cases`. -/

namespace Sys2Proof.Machine

/-- What it means that an agent has an enabled step. -/
theorem agentOperation_some {a : Agent} {s : State} {i : Instr} (h : agentOperation a s = some i) :
    s.life ≠ lifeUnused ∧ a.sequences i = true ∧ stepEnabled i s = true ∧
      ∃ c, nextCode a s = some c ∧ decode c = .ok i := by
  unfold agentOperation at h
  split at h
  · simp at h
  · split at h
    · simp at h
    · split at h
      · simp at h
      · rename_i hl _ c hc _ i' hd
        split at h
        · rename_i hh
          simp only [Bool.and_eq_true] at hh
          cases h
          exact ⟨hl, hh.1, hh.2, c, hc, hd⟩
        · simp at h

/-- An agent's next step is an operation exactly where the agent sequences it and its rule enables it: the
sequencer state, or the waiting command, names no other (30_encoding.md R101). -/
theorem agentOperation_eq_some {a : Agent} {s : State} {i : Instr} :
    agentOperation a s = some i ↔
      s.life ≠ lifeUnused ∧ a.sequences i = true ∧ stepEnabled i s = true := by
  refine ⟨fun h => ⟨(agentOperation_some h).1, (agentOperation_some h).2.1, (agentOperation_some h).2.2.1⟩,
    fun ⟨hl, hs, he⟩ => ?_⟩
  have hn : nextCode a s = some (encode i) := by
    cases a <;> cases i <;> (try exact absurd hs (by decide)) <;>
      simp only [stepEnabled, Bool.and_eq_true, beq_iff_eq, portReadAccepted_iff, portWriteAccepted_iff,
        initAccepted_iff, quiesceAccepted_iff, and_assoc] at he
    case hostcmd.portRdH | hostcmd.portWrite =>
      obtain ⟨h1, -, l, r, hc, -⟩ := he; simp only [nextCode, h1, hc]; rfl
    case hostcmd.initLatch => obtain ⟨h1, -, b, f, r, hc, -⟩ := he; simp only [nextCode, h1, hc]; rfl
    case hostcmd.quiesceMask => obtain ⟨h1, -, -, r, hc⟩ := he; simp only [nextCode, h1, hc]; rfl
    all_goals simp only [nextCode, he]; rfl
  have hd : decode (encode i) = .ok i := by cases i <;> rfl
  simp [agentOperation, hl, hn, hd, hs, he]

/-- A sequencer's step is enabled by its own rule. -/
theorem enabled_of_sequences {a : Agent} {i : Instr} {s : State} (h : a.sequences i = true) :
    enabled i s = stepEnabled i s := by
  cases a <;> cases i <;> first | rfl | exact absurd h (by decide)

/-- HOSTCMD's step is an operation or turns a command away, never both. -/
theorem acceptStep_of_agentOperation {s : State} {i : Instr} (h : agentOperation .hostcmd s = some i) :
    acceptStep s = none := by
  obtain ⟨-, hs, he⟩ := agentOperation_eq_some.1 h
  cases i <;> first | exact absurd hs (by decide) | simp only [stepEnabled, Bool.and_eq_true, beq_iff_eq] at he
  case portRdH | portWrite | initLatch | quiesceMask => exact acceptStep_of_accepted (by simp [he.2])
  all_goals exact if_pos (Or.inr (by simp only [he]; decide))

/-- Where HOSTCMD turns a command away it has no operation (30_encoding.md R105). -/
theorem agentOperation_of_acceptStep {s t : State} (h : acceptStep s = some t) :
    agentOperation .hostcmd s = none := by
  rw [Option.eq_none_iff_forall_ne_some]
  intro i hi
  rw [acceptStep_of_agentOperation hi] at h
  cases h

/-- A step that turns a command away is the whole step of the machine. -/
theorem step_of_acceptStep {s t : State} {rest : List Move} (hs : s.sched = .agent .hostcmd :: rest)
    (h : acceptStep { s with sched := rest } = some t) : step s = .next t := by
  simp [step, hs, agentStep, agentOperation_of_acceptStep h, h]

/-- A scheduled agent stays as it is, performs the operation it has an enabled step for, or, if it is
HOSTCMD, turns a command away. -/
theorem agentStep_cases {a : Agent} {s t : State} (e : agentStep a s = .next t) :
    t = s ∨ (∃ i, agentOperation a s = some i ∧ exec i s = .next t) ∨
      a = .hostcmd ∧ acceptStep s = some t := by
  unfold agentStep at e
  split at e
  · rename_i i hi; exact Or.inr (Or.inl ⟨i, hi, e⟩)
  · cases a
    · cases e; exact Or.inl rfl
    · cases e; exact Or.inl rfl
    · rcases h : acceptStep s with _ | u
      · simp [h] at e; exact Or.inl e.symm
      · simp [h] at e; exact Or.inr (Or.inr ⟨rfl, by rw [e]⟩)

/-- A result of ring arithmetic changes nothing but the call port (log 10). -/
theorem exec_isPure {i : Instr} {s t : State} (h : isPure i = true) (e : exec i s = .next t) :
    t = { s with call := t.call } := by
  cases i <;> first
    | exact absurd h (by decide)
    | (simp only [exec, execNextIdx, execPrevIdx, execDescAddr, execPendcnt, execIsdone,
        whenEnabled_eq_next, Host.Outcome.next.injEq] at e
       rw [← e.2])

/-- A computation changes nothing but the call port (log 10). -/
theorem computeStep_cases {code : Byte} {s t : State} (e : computeStep code s = .next t) :
    t = { s with call := t.call } := by
  unfold computeStep at e
  split at e
  · simp at e
  · split at e
    · rename_i hh
      simp only [Bool.and_eq_true] at hh
      exact exec_isPure hh.1 e
    · cases e; rfl

/-- Every next state of a step: `l` is what is left of the schedule. -/
theorem step_cases {s t : State} (e : step s = .next t) :
    ∃ l, t = { s with sched := l } ∨
      (∃ a i, s.sched = .agent a :: l ∧ agentOperation a { s with sched := l } = some i ∧
        exec i { s with sched := l } = .next t) ∨
      (s.sched = .agent .hostcmd :: l ∧ acceptStep { s with sched := l } = some t) ∨
      (∃ code, s.sched = .compute code :: l ∧ t = { s with sched := l, call := t.call }) ∨
      (∃ c, s.sched = .command c :: l ∧ t = presentCommand c { s with sched := l }) ∨
      ∃ m, s.sched = .device m :: l ∧ t = deviceMove m { s with sched := l } := by
  unfold step at e
  split at e
  · cases e; exact ⟨s.sched, Or.inl rfl⟩
  · rename_i a rest hs
    rcases agentStep_cases e with rfl | ⟨i, h, e⟩ | ⟨rfl, h⟩
    · exact ⟨rest, Or.inl rfl⟩
    · exact ⟨rest, Or.inr (Or.inl ⟨a, i, hs, h, e⟩)⟩
    · exact ⟨rest, Or.inr (Or.inr (Or.inl ⟨hs, h⟩))⟩
  · rename_i code rest hs
    exact ⟨rest, Or.inr (Or.inr (Or.inr (Or.inl ⟨code, hs, computeStep_cases e⟩)))⟩
  · rename_i c rest hs
    cases e; exact ⟨rest, Or.inr (Or.inr (Or.inr (Or.inr (Or.inl ⟨c, hs, rfl⟩))))⟩
  · rename_i m rest hs
    cases e; exact ⟨rest, Or.inr (Or.inr (Or.inr (Or.inr (Or.inr ⟨m, hs, rfl⟩))))⟩

end Sys2Proof.Machine
end

