-- ==== Sys2Proof/Tests/Slice0.lean ====
section
/-! SUPPORT. Tests/Slice0.lean: one-step tests, every expected value taken from spec/ (the table or
vector each cites, most of 95_test_vectors.md), and for every obligation with hypotheses a concrete
state and operands that meet them, at the boundary values of each clause. -/

namespace Sys2Proof.Tests

open Sys2Proof Sys2Proof.Machine

/-! ## The fixture of 95_test_vectors.md section 0 -/

/-- The parameters of the fixture for a ring of `n`. -/
def fixCfg (n : Nat) : Config :=
  { Config.standard with
    ringSize := n, iterCap := n, irqEnableMask := 0x80#32, irqDisableMask := 0xFFFFFFFF#32,
    regWindowSize := 0x281C }

/-- The four descriptors of vector S1 before the pass (every byte not listed is 0). -/
def s1Mem : Memory :=
  [(0x10002, 0x02#8), (0x10008, 0x3C#8), (0x1000C, 0x03#8),
   (0x10011, 0x08#8), (0x10012, 0x02#8), (0x10018, 0xEA#8), (0x10019, 0x05#8), (0x1001C, 0x03#8),
   (0x10021, 0x10#8), (0x10022, 0x02#8), (0x10031, 0x18#8), (0x10032, 0x02#8)]

/-- The state vector S1 starts from: a ring of 4 with descriptors 0 and 1 filled and a pass queued. -/
def s1 : State :=
  { State.reset with
    cfg := fixCfg 4, ringBase := 0x10000#64, life := lifeReady, pending := true, mem := s1Mem,
    dev := { Device.reset with rdh := 2#32, rdt := 3#32, mask := 0x80#32, rdbal := 0x10000#32,
                               rdlen := 0x40#32 } }

/-- The same ring with the WALKER in a state of the loop, at descriptor `t`, RDT the same. -/
def inPass (w : Byte) (t : Half) : State :=
  { s1 with pending := false, wstate := w, headS := 2#16, prevHead := 1#16, headLive := 2#16,
            tailC := t, iter := if t = 3#16 then 0#17 else 1#17,
            view := { status := 0x03#8, errors := 0x20#8, length := 60#16, addr := 0x20000#64 },
            clrTmp := 0x03#8, dev := { s1.dev with rdt := t.setWidth 32 } }

/-- HOSTCMD inside INIT, at index `i` of a ring of 4, memory still empty. -/
def inInit (h : Byte) (i : Count) : State :=
  { s1 with life := lifeUnattached, pending := false, hstate := h, initI := i, initBase := 0x10000#64,
            initBuf := [0x20000#64, 0x20800#64, 0x21000#64, 0x21800#64], mem := [],
            dev := { s1.dev with rdh := 0#32, mask := 0#32 } }

/-- The ring with commands waiting. -/
def waiting (l : BitVec 2) (cs : List Command) : State :=
  { s1 with life := l, pending := false, cmds := cs }

/-- Operands of ring arithmetic on the ring of S1. -/
def callOf (i j : Half) (b : Byte) : State :=
  { s1 with call := { CallPort.reset with argIdx := i, argIdx2 := j, argByte := b } }

/-- INIT's state with the call port set for HOSTCMD. -/
def hostAsks (h : Byte) : State := (inInit h 3).asking .hostcmd 0 0

/-- What one looks at of a next state; nothing of a stop. -/
def seen {α : Type} (f : State → α) (o : Host.Outcome State Fault Refusal) : Option α :=
  match o with
  | .next s => some (f s)
  | .fault _ => none
  | .refused _ => none

/-- The step answered a next state. -/
def isNext (o : Host.Outcome State Fault Refusal) : Bool := (seen (fun _ => ()) o).isSome

/-- One step of the machine with HOSTCMD scheduled. -/
def hostMoves (s : State) : Host.Outcome State Fault Refusal := step { s with sched := [.agent .hostcmd] }

/-- A machine word's code, bit by bit, most significant first, as 30_encoding.md R100 and R101 give
it. -/
def code (b7 b6 b5 b4 b3 b2 b1 b0 : Bool) : Byte :=
  BitVec.ofBool b7 ++ BitVec.ofBool b6 ++ BitVec.ofBool b5 ++ BitVec.ofBool b4 ++
    BitVec.ofBool b3 ++ BitVec.ofBool b2 ++ BitVec.ofBool b1 ++ BitVec.ofBool b0

/-! ## Well-formedness: each check refuses an ill-formed term (00_scope.md R7, 30_encoding.md R107,
60_exceptions.md R238, R241) -/

theorem test_wf_fixture : (fixCfg 4).Ok := by decide
theorem test_wf_ring_smallest : (fixCfg 2).Ok := by decide
theorem test_wf_ring_largest : (fixCfg 65536).Ok := by decide
theorem test_wf_ring_too_small : ¬ (fixCfg 1).Ok := by decide
theorem test_wf_ring_too_large : ¬ (fixCfg 65537).Ok := by decide
theorem test_wf_done_mask_zero : ¬ ({ fixCfg 4 with doneMask := 0#8 }).Ok := by decide
theorem test_wf_iter_cap : ¬ ({ fixCfg 4 with iterCap := 2 }).Ok ∧ ({ fixCfg 4 with iterCap := 3 }).Ok := by
  decide
theorem test_wf_offset_not_word : ¬ ({ fixCfg 4 with offRdt := 0x2816 }).Ok := by decide
theorem test_wf_offset_outside_window : ¬ ({ fixCfg 4 with regWindowSize := 0x281B }).Ok := by decide
theorem test_wf_enable_mask_zero : ¬ ({ fixCfg 4 with irqEnableMask := 0#32 }).Ok := by decide
theorem test_wf_disable_mask_misses_a_bit : ¬ ({ fixCfg 4 with irqDisableMask := 0x7F#32 }).Ok := by decide
theorem test_wf_init_short_of_buffers :
    Command.ok (fixCfg 4) (.init 0x10000#64 [0#64, 0#64, 0#64]) = false ∧
    Command.ok (fixCfg 4) (.init 0x10000#64 [0#64, 0#64, 0#64, 0#64]) = true := by decide

/-- A reception of one byte into descriptor 2. -/
def fill2 : FillReq :=
  { index := 2#16, data := [0x55#8], length := 1#16, checksum := 0xABCD#16, status := 0x03#8,
    errors := 0x20#8, special := 0xAA55#16 }

theorem test_wf_fill : fill2.ok (fixCfg 4) = true := by decide
theorem test_wf_fill_more_than_length : ({ fill2 with length := 0#16 }).ok (fixCfg 4) = false := by decide
theorem test_wf_fill_more_than_buffer : fill2.ok { fixCfg 4 with bufSize := 0 } = false := by decide
theorem test_wf_fill_not_done : ({ fill2 with status := 0x01#8 }).ok (fixCfg 4) = false := by decide
theorem test_wf_raise_nothing : DevMove.ok (fixCfg 4) (.raise 0#32) = false := by decide

/-! ## Decoding: every code of 30_encoding.md R101, its bits written out from the operation map -/

theorem test_decode_reg :
    decode (code false false false false false false false true) = .ok .rdhR ∧
    decode (code false false false false false false true false) = .ok .rdtR ∧
    decode (code false false false false false false true true) = .ok .rdtW ∧
    decode (code false false false false false true false false) = .ok .icrR ∧
    decode (code false false false false false true false true) = .ok .imsW ∧
    decode (code false false false false false true true false) = .ok .imcW ∧
    decode (code false false false false false true true true) = .ok .rdbalW ∧
    decode (code false false false false true false false false) = .ok .rdbahW ∧
    decode (code false false false false true false false true) = .ok .rdlenW := by decide

theorem test_decode_ring :
    decode (code false false false true false false false false) = .ok .nextIdx ∧
    decode (code false false false true false false false true) = .ok .prevIdx ∧
    decode (code false false false true false false true false) = .ok .descAddr ∧
    decode (code false false false true false false true true) = .ok .pendcnt ∧
    decode (code false false false true false true false false) = .ok .inspect ∧
    decode (code false false false true false true false true) = .ok .advanceTail ∧
    decode (code false false false true false true true false) = .ok .isdone ∧
    decode (code false false false true false true true true) = .ok .markFree := by decide

theorem test_decode_pass :
    decode (code false false true false false false false false) = .ok .passStart ∧
    decode (code false false true false false false false true) = .ok .passSnapH ∧
    decode (code false false true false false false true false) = .ok .passSnapT ∧
    decode (code false false true false false false true true) = .ok .passTest ∧
    decode (code false false true false false true false false) = .ok .passAdv ∧
    decode (code false false true false false true false true) = .ok .passRrH ∧
    decode (code false false true false false true true false) = .ok .passRrT ∧
    decode (code false false true false false true true true) = .ok .passInspU ∧
    decode (code false false true false true false false false) = .ok .passInspL ∧
    decode (code false false true false true false false true) = .ok .passInspA ∧
    decode (code false false true false true false true false) = .ok .passConsume ∧
    decode (code false false true false true false true true) = .ok .passClrR ∧
    decode (code false false true false true true false false) = .ok .passClrW := by decide

theorem test_decode_irq_port :
    decode (code false false true true false false false false) = .ok .irqAck ∧
    decode (code false false true true false false false true) = .ok .irqSched ∧
    decode (code false false true true false false true false) = .ok .irqRearm ∧
    decode (code false true false false false false false false) = .ok .portRdH ∧
    decode (code false true false false false false false true) = .ok .portRdT ∧
    decode (code false true false false false false true false) = .ok .portWrite := by decide

theorem test_decode_init_quiesce :
    decode (code false true false true false false false false) = .ok .initLatch ∧
    decode (code false true false true false false false true) = .ok .initDescA ∧
    decode (code false true false true false false true false) = .ok .initDescL ∧
    decode (code false true false true false false true true) = .ok .initDescU ∧
    decode (code false true false true false true false false) = .ok .initBah ∧
    decode (code false true false true false true false true) = .ok .initBal ∧
    decode (code false true false true false true true false) = .ok .initLen ∧
    decode (code false true false true false true true true) = .ok .initTail ∧
    decode (code false true false true true false false false) = .ok .initArm ∧
    decode (code false true true false false false false false) = .ok .quiesceMask ∧
    decode (code false true true false false false false true) = .ok .quiesceWait := by decide

/-- Reserved values (R103) at the edges of each family. -/
theorem test_decode_reserved :
    [0x00#8, 0x0A#8, 0x0F#8, 0x18#8, 0x1F#8, 0x2D#8, 0x33#8, 0x43#8, 0x59#8, 0x62#8, 0x70#8, 0xFF#8].all
      (fun c => decide (decode c = .error (.reserved c))) = true := by decide

/-- A table word of 8 bits is a code; the bits above are none of it. -/
theorem test_table_word : decodeTableWord 8 0x2C = some .passClrW ∧ decodeTableWord 8 0x2D = none := by
  decide

/-- Each of the 47 codes, placed after reset, is enabled there, and the very next step performs it. -/
theorem test_placed_operation_runs :
    opRows.all (fun r => enabled r.2 (State.reset.withFetchWord 8 r.1.toNat) &&
      isNext (step (State.reset.withFetchWord 8 r.1.toNat)) &&
      decide (seen (fun s => s.sched) (step (State.reset.withFetchWord 8 r.1.toNat)) = some [])) = true := by
  decide

/-! ## Family REG (95_test_vectors.md 2.1) -/

theorem test_rdhR_upper_half_ignored :
    seen (fun s => s.call.resIdx)
      (exec .rdhR ({ inPass wSnapH 3 with dev := { s1.dev with rdh := 0xABCD0005#32 } }.asking .walker 0 0)) =
      some 5#16 := by decide
theorem test_rdtR_upper_half_ignored :
    seen (fun s => s.call.resIdx)
      (exec .rdtR ({ s1 with hstate := hPortT, dev := { s1.dev with rdt := 0x12340004#32 } }.asking
        .hostcmd 0 0)) = some 4#16 := by decide
theorem test_rdtW_word :
    seen (fun s => (s.dev.rdt, s.trace))
      (exec .rdtW ({ inInit hTail 3 with cfg := fixCfg 65536 }.asking .hostcmd 0xFFFF#16 0)) =
      some (0xFFFF#32, [.regWr .hostcmd 0x2818 0xFFFF#32]) := by decide
theorem test_icrR_clears :
    seen (fun s => (s.call.resWord, s.dev.cause, s.trace))
      (exec .icrR ({ s1 with dev := { s1.dev with cause := 0x84#32 } }.asking .ife 0 0)) =
      some (0x84#32, 0#32, [.regRd .ife 0xC0 0x84#32]) := by decide
theorem test_imsW_sets :
    seen (fun s => s.dev.mask)
      (exec .imsW ({ s1 with istate := iRearm, dev := { s1.dev with mask := 4#32 } }.asking .ife 0 0)) =
      some 0x84#32 := by decide
theorem test_imcW_clears :
    seen (fun s => s.dev.mask)
      (exec .imcW ({ waiting lifeReady [.quiesce] with
        cfg := { fixCfg 4 with irqDisableMask := 0x80#32 },
        dev := { s1.dev with mask := 0x85#32 } }.asking .hostcmd 0 0)) = some 5#32 := by decide
theorem test_rdbalW_word :
    seen (fun s => s.dev.rdbal)
      (exec .rdbalW { hostAsks hBal with ringBase := 0xFFFFFFFFFFFFFF00#64 }) =
      some 0xFFFFFF00#32 := by decide
theorem test_rdbahW_word :
    seen (fun s => s.dev.rdbah)
      (exec .rdbahW { hostAsks hBah with ringBase := 0x0000000100010000#64 }) = some 1#32 := by decide
theorem test_rdlenW_word :
    seen (fun s => s.dev.rdlen) (exec .rdlenW { hostAsks hLen with cfg := fixCfg 65536 }) =
      some 0x100000#32 := by decide
/-- Outside its steps an accessor is not performed: RDT.W has two writers (20_memory.md R70), and after
reset there is none (10_state.md R50). -/
theorem test_rdtW_only_in_its_steps :
    exec .rdtW (s1.asking .walker 0 0) = .fault (.notEnabled .rdtW) ∧
    exec .rdtW ((inPass wAdv 3).asking .walker 1 0) = .fault (.notEnabled .rdtW) ∧
    exec .icrR (State.reset.asking .ife 0 0) = .fault (.notEnabled .icrR) := ⟨rfl, rfl, rfl⟩

/-! ## Family RING (95_test_vectors.md 2.2, S6, S7) -/

theorem test_next_wraps :
    seen (fun s => s.call.resIdx) (exec .nextIdx (callOf 3 0 0)) = some 0#16 ∧
    nextIndex 65536 65535#16 = 0#16 ∧ nextIndex 16 8#16 = 9#16 := by decide
theorem test_prev_wraps :
    seen (fun s => s.call.resIdx) (exec .prevIdx (callOf 0 0 0)) = some 3#16 ∧
    prevIndex 65536 0#16 = 65535#16 ∧ prevIndex 16 15#16 = 14#16 := by decide
theorem test_descAddr_top :
    seen (fun s => s.call.resAddr)
      (exec .descAddr { callOf 0xFFFF 0 0 with
        cfg := fixCfg 65536, ringBase := 0xFFFFFFFFFFF00000#64 }) = some 0xFFFFFFFFFFFFFFF0#64 := by decide
/-- `ring_base` is not read before INIT.LATCH has written it (10_state.md R37). -/
theorem test_descAddr_before_init : exec .descAddr State.reset = .fault (.notEnabled .descAddr) :=
  rfl
theorem test_pendcnt_scenario :
    seen (fun s => s.call.resCount) (exec .pendcnt (callOf 2 3 0)) = some 2#17 := by decide
theorem test_pendcnt_table :
    pendingCount 4 3#16 3#16 = 3#17 ∧ pendingCount 16 7#16 8#16 = 14#17 ∧
    pendingCount 65536 0#16 0#16 = 65535#17 ∧ pendingCount 2 1#16 0#16 = 0#17 := by decide
/-- The last row of the INSPECT table, part by part. -/
theorem test_inspect_fields :
    let s : State := { inPass wInspU 0 with mem := Memory.writeBytes [] 0x10000#64 [
       0xEF#8, 0xCD#8, 0xAB#8, 0x89#8, 0x67#8, 0x45#8, 0x23#8, 0x01#8, 0x34#8, 0x12#8, 0xCD#8, 0xAB#8,
       0x07#8, 0x80#8, 0x55#8, 0xAA#8] }
    seen (fun t => (t.call.resView.status, t.call.resView.errors)) (exec .inspect (s.asking .walker 0 0)) =
      some (0x07#8, 0x80#8) ∧
    seen (fun t => t.call.resView.length) (exec .inspect ({ s with wstate := wInspL }.asking .walker 0 0)) =
      some 4660#16 ∧
    seen (fun t => t.call.resView.addr) (exec .inspect ({ s with wstate := wInspA }.asking .walker 0 0)) =
      some 0x0123456789ABCDEF#64 := by decide
/-- Each part is one read (20_memory.md R67, 92_eei_decisions.md D14). -/
theorem test_inspect_parts :
    seen (fun t => t.trace) (exec .inspect ((inPass wInspU 1).asking .walker 1 0)) =
      some [.memRd .walker 0x1001C#64 4 3#64] ∧
    seen (fun t => t.trace) (exec .inspect ((inPass wInspL 1).asking .walker 1 0)) =
      some [.memRd .walker 0x10018#64 4 0x5EA#64] ∧
    seen (fun t => t.trace) (exec .inspect ((inPass wInspA 1).asking .walker 1 0)) =
      some [.memRd .walker 0x10010#64 8 0x20800#64] := by decide
theorem test_advanceTail_wraps :
    seen (fun s => (s.call.resIdx, s.dev.rdt)) (exec .advanceTail ((inPass wAdv 3).asking .walker 3 0)) =
      some (0#16, 0#32) := by decide
theorem test_isdone_table :
    isDone 3#8 0x83#8 = true ∧ isDone 3#8 0xFE#8 = false ∧ isDone 1#8 3#8 = true ∧
    seen (fun s => s.call.resBit) (exec .isdone (callOf 0 0 0x07)) = some true ∧
    seen (fun s => s.call.resBit) (exec .isdone (callOf 0 0 0x01)) = some false := by decide
/-- Each part is one transaction of one byte (41_ring_primitives.md R147: status 0x27 becomes 0x24). -/
theorem test_markFree_parts :
    seen (fun t => (t.call.resByte, t.mem, t.trace))
      (exec .markFree ({ inPass wClrR 1 with mem := [(0x1001C, 0x27#8), (0x1001D, 0x80#8)] }.asking
        .walker 1 0)) =
      some (0x27#8, [(0x1001C, 0x27#8), (0x1001D, 0x80#8)], [.memRd .walker 0x1001C#64 1 0x27#64]) ∧
    seen (fun t => (t.mem, t.trace))
      (exec .markFree ({ inPass wClrW 1 with
        clrTmp := 0x27#8, mem := [(0x1001C, 0x27#8), (0x1001D, 0x80#8)] }.asking .walker 1 0x27)) =
      some ([(0x1001C, 0x24#8), (0x1001D, 0x80#8)], [.memWr .walker 0x1001C#64 1 0x24#64]) := by decide
/-- The DEVICE may move between the parts (20_memory.md R67): its RAISE stands between R and W. -/
theorem test_device_moves_between_the_parts :
    seen (fun t => (t.wstate, t.mem.read 0x1001C, t.trace))
      (run 3 { inPass wClrR 1 with sched := [.agent .walker, .device (.raise 4#32), .agent .walker] }) =
      some (wTest, 0x00#8,
        [.memWr .walker 0x1001C#64 1 0#64, .devRaise 4#32, .memRd .walker 0x1001C#64 1 3#64]) := by decide

/-! ## Family PASS: the lines of trace S1, and the abandons of 42_service_pass.md R162 to R166 -/

theorem test_passStart :
    seen (fun s => (s.pending, s.wstate)) (exec .passStart s1) = some (false, wSnapH) := by decide
theorem test_passSnapH :
    seen (fun s => (s.headS, s.trace)) (exec .passSnapH (inPass wSnapH 3)) =
      some (2#16, [.regRd .walker 0x2810 2#32]) := by decide
theorem test_passSnapT :
    seen (fun s => (s.tailC, s.prevHead, s.wstate)) (exec .passSnapT (inPass wSnapT 3)) =
      some (3#16, 1#16, wTest) := by decide
theorem test_passSnapT_head_range :
    seen (fun s => (s.errSeen, s.errCode, s.wstate, s.trace.head?))
      (exec .passSnapT { inPass wSnapT 3 with headS := 4#16 }) =
      some (true, eIndexRange, wIdle, some (.log eIndexRange 4#16 3#16)) := by decide
theorem test_passTest_completion_before_cap :
    seen (fun s => (s.wstate, s.errSeen))
      (exec .passTest { inPass wTest 1 with cfg := { fixCfg 4 with iterCap := 1 } }) =
      some (wIdle, false) := by decide
theorem test_passTest_cap :
    seen (fun s => (s.wstate, s.errCode))
      (exec .passTest { inPass wTest 0 with cfg := { fixCfg 4 with iterCap := 1 } }) =
      some (wIdle, eIterCap) := by decide
theorem test_passAdv :
    seen (fun s => (s.tailC, s.iter, s.dev.rdt, s.trace)) (exec .passAdv (inPass wAdv 3)) =
      some (0#16, 1#17, 0#32, [.regWr .walker 0x2818 0#32]) := by decide
theorem test_passRrH :
    seen (fun s => (s.headLive, s.wstate)) (exec .passRrH (inPass wRrH 0)) = some (2#16, wRrT) := by decide
theorem test_passRrH_range :
    seen (fun s => (s.errCode, s.wstate, s.pending))
      (exec .passRrH { inPass wRrH 0 with pending := true, dev := { s1.dev with rdh := 0xFFFFFFFF#32 } }) =
      some (eIndexRange, wIdle, true) := by decide
theorem test_passRrT :
    seen (fun s => s.wstate) (exec .passRrT (inPass wRrT 0)) = some wInspU := by decide
theorem test_passRrT_readback :
    seen (fun s => (s.errCode, s.trace.head?)) (exec .passRrT { inPass wRrT 0 with tailC := 1#16 }) =
      some (eTailReadback, some (.log eTailReadback 2#16 0#16)) := by decide
theorem test_passInspU :
    seen (fun s => (s.view.status, s.view.errors, s.view.length, s.trace)) (exec .passInspU (inPass wInspU 1)) =
      some (0x03#8, 0x00#8, 60#16, [.memRd .walker 0x1001C#64 4 3#64]) := by decide
theorem test_passInspL :
    seen (fun s => (s.view.length, s.trace)) (exec .passInspL (inPass wInspL 1)) =
      some (1514#16, [.memRd .walker 0x10018#64 4 0x5EA#64]) := by decide
theorem test_passInspA_done :
    seen (fun s => (s.view.addr, s.wstate)) (exec .passInspA (inPass wInspA 1)) =
      some (0x20800#64, wConsume) := by decide
/-- Vector A5: status 0x01 under DONE_MASK 0x03 is not done. -/
theorem test_passInspA_not_done :
    seen (fun s => s.wstate)
      (exec .passInspA { inPass wInspA 1 with view := { View.zero with status := 0x01#8 } }) =
      some wTest := by decide
theorem test_passConsume :
    seen (fun s => (s.passConsumed, s.trace)) (exec .passConsume (inPass wConsume 0)) =
      some (1#17, [.consume 0#16 0x20000#64 60#16 0x03#8 0x20#8]) := by decide
theorem test_passClrR :
    seen (fun s => (s.clrTmp, s.trace)) (exec .passClrR (inPass wClrR 1)) =
      some (0x03#8, [.memRd .walker 0x1001C#64 1 3#64]) := by decide
theorem test_passClrW :
    seen (fun s => (s.mem.read 0x1001C, s.mem.read 0x1000C, s.trace))
      (exec .passClrW (inPass wClrW 1)) =
      some (0x00#8, 0x03#8, [.memWr .walker 0x1001C#64 1 0#64]) := by decide

/-! ## Family IRQ (95_test_vectors.md S9, 2.1 interrupt line) -/

/-- The ring of S1 with a cause pending and enabled. -/
def signalled : State := { s1 with pending := false, dev := { s1.dev with cause := 0x84#32 } }

theorem test_irqAck :
    seen (fun s => (s.icrLatch, s.dev.cause, s.istate, s.trace)) (exec .irqAck signalled) =
      some (0x84#32, 0#32, iSched, [.regRd .ife 0xC0 0x84#32]) := by decide
theorem test_irq_line :
    irq { Device.reset with cause := 0x84#32, mask := 0x80#32 } = true ∧
    irq { Device.reset with cause := 4#32, mask := 0x80#32 } = false ∧
    irq { Device.reset with cause := 0x80#32 } = false := by decide
theorem test_irqSched_idempotent :
    seen (fun s => (s.pending, s.istate, s.trace)) (exec .irqSched { s1 with istate := iSched }) =
      some (true, iRearm, []) := by decide
theorem test_irqRearm :
    seen (fun s => (s.dev.mask, s.istate, s.trace))
      (exec .irqRearm { s1 with istate := iRearm, dev := Device.reset }) =
      some (0x80#32, iIdle, [.regWr .ife 0xD0 0x80#32]) := by decide

/-! ## Families PORT, INIT, QUIESCE (44_host_port_lifecycle.md R200 to R217; 95_test_vectors.md S7, S8,
I1) -/

theorem test_portRdH :
    seen (fun s => (s.portH, s.hstate, s.cmds)) (exec .portRdH (waiting lifeReady [.portRead true 4])) =
      some (2#16, hPortT, []) := by decide
theorem test_portRdH_short_buffer :
    seen (fun s => (s.hstate, s.trace)) (hostMoves (waiting lifeReady [.portRead true 3])) =
      some (hIdle, [.portReply false 0#32 0#32]) := by decide
theorem test_portRdT_word :
    seen (fun s => (s.hstate, s.trace.head?))
      (exec .portRdT { s1 with hstate := hPortT, portH := 5#16, dev := { s1.dev with rdt := 4#32 } }) =
      some (hIdle, some (.portReply true 4#32 0x00050004#32)) := by decide
theorem test_port_bytes :
    portBytes 0x00050004#32 = [0x04#8, 0x00#8, 0x05#8, 0x00#8] ∧
    portBytes (portWord 2#16 1#16) = [0x01#8, 0x00#8, 0x02#8, 0x00#8] := by decide
theorem test_portWrite :
    seen (fun s => s.trace) (exec .portWrite (waiting lifeReady [.portWrite true 7])) =
      some [.portReply true 7#32 0#32] := by decide
theorem test_portWrite_not_ready :
    seen (fun s => s.trace) (hostMoves (waiting lifeQuiescing [.portWrite true 7])) =
      some [.refused notReady] := by decide
theorem test_initLatch :
    seen (fun s => (s.ringBase, s.initI, s.hstate))
      (exec .initLatch (waiting lifeUnattached [.init 0x40000#64 [0#64, 0#64, 0#64, 0#64]])) =
      some (0x40000#64, 0#17, hDescA) := by decide
theorem test_initLatch_refusals :
    seen (fun s => s.trace) (hostMoves (waiting lifeReady [.init 1#64 []])) =
      some [.refused alreadyAttached] ∧
    seen (fun s => s.trace) (hostMoves (waiting lifeUnattached [.init 0x40008#64 []])) =
      some [.refused badBase] := by decide
theorem test_initDescA :
    seen (fun s => (s.mem, s.hstate)) (exec .initDescA (inInit hDescA 3)) =
      some ([(0x10031, 0x18#8), (0x10032, 0x02#8)], hDescL) := by decide
theorem test_initDescL :
    seen (fun s => (s.mem, s.hstate))
      (exec .initDescL { inInit hDescL 1 with mem := [(0x10017, 1#8), (0x10018, 2#8), (0x1001C, 3#8)] }) =
      some ([(0x10017, 1#8), (0x1001C, 3#8)], hDescU) := by decide
theorem test_initDescU_next :
    seen (fun s => (s.mem, s.initI, s.hstate))
      (exec .initDescU { inInit hDescU 2 with mem := [(0x1002B, 1#8), (0x1002F, 2#8), (0x10030, 3#8)] }) =
      some ([(0x1002B, 1#8), (0x10030, 3#8)], 3#17, hDescA) := by decide
theorem test_initDescU_last :
    seen (fun s => (s.initI, s.hstate)) (exec .initDescU (inInit hDescU 3)) = some (3#17, hBah) := by decide
theorem test_initBah :
    seen (fun s => (s.dev.rdbah, s.hstate))
      (exec .initBah { inInit hBah 3 with ringBase := 0x100010000#64 }) = some (1#32, hBal) := by decide
theorem test_initBal :
    seen (fun s => (s.dev.rdbal, s.hstate))
      (exec .initBal { inInit hBal 3 with ringBase := 0x100020000#64 }) = some (0x20000#32, hLen) := by decide
theorem test_initLen :
    seen (fun s => (s.dev.rdlen, s.hstate)) (exec .initLen { inInit hLen 3 with cfg := fixCfg 16 }) =
      some (0x100#32, hTail) := by decide
theorem test_initTail :
    seen (fun s => (s.dev.rdt, s.hstate)) (exec .initTail { inInit hTail 3 with cfg := fixCfg 65536 }) =
      some (0xFFFF#32, hArm) := by decide
theorem test_initArm :
    seen (fun s => (s.life, s.dev.mask, s.hstate, s.trace)) (exec .initArm (inInit hArm 3)) =
      some (lifeReady, 0x80#32, hIdle, [.initDone, .regWr .hostcmd 0xD0 0x80#32]) := by decide
theorem test_quiesceMask :
    seen (fun s => (s.pending, s.life, s.dev.mask, s.hstate))
      (exec .quiesceMask { waiting lifeReady [.quiesce] with pending := true }) =
      some (false, lifeQuiescing, 0#32, hQwait) := by decide
/-- 44_host_port_lifecycle.md R216: not while an acknowledge is in flight. -/
theorem test_quiesceMask_waits_for_ack :
    agentOperation .hostcmd { waiting lifeReady [.quiesce] with istate := iSched } = none ∧
    agentOperation .hostcmd (waiting lifeReady [.quiesce]) = some .quiesceMask := by decide
/-- 95_test_vectors.md S5: the barrier opens only when no pass is running. -/
theorem test_quiesceWait :
    seen (fun s => (s.life, s.hstate, s.trace))
      (exec .quiesceWait { s1 with life := lifeQuiescing, hstate := hQwait }) =
      some (lifeUnattached, hIdle, [.quiesced]) ∧
    agentOperation .hostcmd { inPass wInspA 0 with life := lifeQuiescing, hstate := hQwait } = none := by
  decide

/-! ## The DEVICE (60_exceptions.md R238 to R240) -/

theorem test_fill_first_transaction :
    (deviceMove (.fill fill2) s1).mem.read 0x21000 = 0x55#8 ∧
    (deviceMove (.fill fill2) s1).dev.head = 2#16 ∧
    (deviceMove (.fill fill2) s1).dev.fill = some { req := fill2, phase := .lengthWord } := by decide
theorem test_fill_not_at_head : deviceMove (.fill { fill2 with index := 1#16 }) s1 = s1 := by decide
theorem test_fill_empty_window :
    deviceMove (.fill { fill2 with index := 3#16 }) { s1 with dev := { s1.dev with rdh := 3#32 } } =
      { s1 with dev := { s1.dev with rdh := 3#32 } } := by decide

/-! ## States that meet the hypotheses of the obligations -/

/-- Parameters, base and indices in range, as the statements about ring arithmetic ask. -/
abbrev CallOk (s : State) : Prop :=
  s.cfg.Ok ∧ goodBase s.cfg s.ringBase = true ∧ s.life ≠ 0#2 ∧ s.call.argIdx.toNat < s.cfg.ringSize ∧
    s.call.argIdx2.toNat < s.cfg.ringSize

theorem test_s1_invariant : Invariant s1 := by constructor <;> decide
theorem test_inPass_invariant : Invariant (inPass wTest 3) := by constructor <;> decide
theorem test_advancing_invariant : Invariant (inPass wAdv 3) := by constructor <;> decide
theorem test_snapshot_invariant : Invariant (inPass wSnapT 3) := by constructor <;> decide

/-- The ring of S1 while HOSTCMD waits at the barrier, with no pass running. -/
def quiescing : State :=
  { s1 with life := lifeQuiescing, hstate := hQwait, pending := false,
            dev := { s1.dev with mask := 0#32 } }

theorem test_quiescing_invariant : Invariant quiescing := by constructor <;> decide

theorem test_deviceOk : DeviceOk s1 := ⟨by decide, fun f h => absurd h (by simp [s1, Device.reset])⟩
theorem test_deviceOk_inPass : DeviceOk (inPass wSnapT 3) :=
  ⟨by decide, fun f h => absurd h (by simp [inPass, s1, Device.reset])⟩

theorem witness_ResetLeavesEverythingIdle :
    (∀ base buf, Command.portRead true 4 ≠ .init base buf) ∧
    (0xFFFFFFFFFFFFFF00#64).toNat % 16 = 0 ∧ (0xFFFFFFFFFFFFFF00#64).toNat + 16 * 16 ≤ 2 ^ 64 :=
  ⟨fun _ _ h => Command.noConfusion h, by decide⟩

theorem witness_ReservedCodesNameNothing :
    (¬ ((0x01 ≤ (0x2D#8).toNat ∧ (0x2D#8).toNat ≤ 0x09) ∨ (0x10 ≤ (0x2D#8).toNat ∧ (0x2D#8).toNat ≤ 0x17) ∨
       (0x20 ≤ (0x2D#8).toNat ∧ (0x2D#8).toNat ≤ 0x2C) ∨ (0x30 ≤ (0x2D#8).toNat ∧ (0x2D#8).toNat ≤ 0x32) ∨
       (0x40 ≤ (0x2D#8).toNat ∧ (0x2D#8).toNat ≤ 0x42) ∨ (0x50 ≤ (0x2D#8).toNat ∧ (0x2D#8).toNat ≤ 0x58) ∨
       (0x60 ≤ (0x2D#8).toNat ∧ (0x2D#8).toNat ≤ 0x61))) ∧
    (inPass 0x20#8 3).wstate ∉ walkerStates ∧
    ({ s1 with istate := 0x30#8 } : State).istate ∉ ifeStates ∧
    (inInit 0x59#8 0).hstate ∉ hostStates := by decide

theorem witness_DisabledOperationFaults : enabled .passTest s1 = false ∧ enabled .imcW s1 = false ∧
    enabled .descAddr State.reset = false := by decide

theorem witness_StepRunsTheSequencedOperation :
    ∃ (s : State) (rest : List Move), s.sched = .agent .walker :: rest ∧ s.life ≠ lifeUnused ∧
      nextCode .walker s = some 0x24#8 ∧ decode 0x24#8 = .ok .passAdv ∧
      Agent.sequences .walker .passAdv = true ∧ enabled .passAdv s = true :=
  ⟨{ inPass wAdv 3 with sched := [.agent .walker] }, [], by decide⟩

/-- One schedule for each clause, in the clauses' order. -/
theorem witness_StepTakesTheOtherMoves :
    s1.sched = [] ∧
    ({ s1 with sched := [.agent .hostcmd] }.sched = [.agent .hostcmd] ∧
      agentOperation .hostcmd { s1 with sched := [.agent .hostcmd] } = none ∧
      acceptStep { s1 with sched := [.agent .hostcmd] } = none) ∧
    (acceptStep (waiting lifeUnattached [.quiesce])).isSome = true ∧
    (isPure .pendcnt = true ∧ enabled .pendcnt State.reset = true ∧ enabled .descAddr s1 = true) ∧
    (isPure .icrR = false ∧ isPure .passAdv = false ∧ enabled .descAddr State.reset = false) ∧
    (∀ i, 0x0A#8 ≠ encode i) ∧
    (Command.ok s1.cfg .quiesce = true ∧ Command.ok s1.cfg (.init 0#64 []) = false) :=
  ⟨by decide, by decide, by decide, by decide, by decide, fun i => by cases i <;> decide, by decide⟩

/-- Each clause of `TransactionsAreEnabledInTheirStepsOnly`, every caller, and so the hypotheses of
`IndexReadsTakeTheLowHalf`, `CauseReadClears` and `RegisterWritesReachTheDevice`. -/
theorem witness_RegFamily :
    (enabled .rdhR ((inPass wSnapH 3).asking .walker 0 0) = true ∧
      enabled .rdhR ((inPass wRrH 3).asking .walker 0 0) = true ∧
      enabled .rdhR ((waiting lifeReady [.portRead true 4]).asking .hostcmd 0 0) = true ∧
      enabled .rdhR ((waiting lifeReady [.portRead true 3]).asking .hostcmd 0 0) = false) ∧
    (enabled .rdtR ((inPass wSnapT 3).asking .walker 0 0) = true ∧
      enabled .rdtR ((inPass wRrT 3).asking .walker 0 0) = true ∧
      enabled .rdtR ({ s1 with hstate := hPortT }.asking .hostcmd 0 0) = true) ∧
    (enabled .rdtW ((inPass wAdv 3).asking .walker 0 0) = true ∧
      enabled .rdtW ((inInit hTail 3).asking .hostcmd 3 0) = true) ∧
    enabled .icrR ({ s1 with dev := { s1.dev with cause := 0x84#32 } }.asking .ife 0 0) = true ∧
    (enabled .imsW ({ s1 with istate := iRearm }.asking .ife 0 0) = true ∧
      enabled .imsW (hostAsks hArm) = true) ∧
    (enabled .imcW ((waiting lifeReady [.quiesce]).asking .hostcmd 0 0) = true ∧
      enabled .imcW ((waiting lifeUnattached [.quiesce]).asking .hostcmd 0 0) = false) ∧
    (enabled .rdbalW (hostAsks hBal) = true ∧ enabled .rdbahW (hostAsks hBah) = true ∧
      enabled .rdlenW (hostAsks hLen) = true) := by decide

/-- `RegisterWritesReachTheDevice`: its last clause. -/
theorem witness_RegisterWritesReachTheDevice : (hostAsks hLen).cfg.Ok := by decide

/-- `StepsPerformTheirOperations`: a register operation, a part of INSPECT and a part of MARK_FREE. -/
theorem witness_StepsPerformTheirOperations :
    (agentOperation .walker (inPass wSnapH 3) = some .passSnapH ∧ .rdhR ∈ innerOperations ∧
      isNext (exec .rdhR ((inPass wSnapH 3).asking .walker 0 0)) = true ∧
      isNext (exec .passSnapH (inPass wSnapH 3)) = true) ∧
    (agentOperation .walker (inPass wInspL 3) = some .passInspL ∧
      isNext (exec .inspect ((inPass wInspL 3).asking .walker 3 0)) = true ∧
      isNext (exec .passInspL (inPass wInspL 3)) = true) ∧
    (agentOperation .walker (inPass wClrW 3) = some .passClrW ∧
      isNext (exec .markFree ((inPass wClrW 3).asking .walker 3 3)) = true ∧
      isNext (exec .passClrW (inPass wClrW 3)) = true) := by decide

/-- Every clause of the memory part: a size, a misalignment, one byte before the ring, one past it. -/
theorem witness_ForbiddenAccessesAreRefused :
    2 ∉ [1, 4, 8] ∧ (0x10002#64).toNat % 4 ≠ 0 ∧
    ((0xFFFF#64).toNat % 1 = 0 ∧ (0xFFFF#64).toNat < s1.ringBase.toNat) ∧
    ((0x10040#64).toNat % 4 = 0 ∧
      s1.ringBase.toNat + 16 * s1.cfg.ringSize < (0x10040#64).toNat + 4) := by decide

/-- `RingArithmeticResults`, `PendingCountResult`: both ends of the index range; DESC_ADDR inside INIT
too. -/
theorem witness_RingArithmetic :
    CallOk (callOf 0 3 0) ∧ CallOk (callOf 3 0 0) ∧ (inInit hDescA 3).hstate ∈ initStates := by
  refine ⟨⟨by decide, ?_⟩, ⟨by decide, ?_⟩, ?_⟩ <;> decide

/-- The same in the highest and largest ring there is, at its last index. -/
theorem witness_RingArithmetic_top :
    CallOk { callOf 65535 0 0 with cfg := fixCfg 65536, ringBase := 0xFFFFFFFFFFF00000#64, mem := [] } := by
  refine ⟨by decide, ?_⟩; decide

/-- `InspectReadsTheDescriptor`, `AdvanceTailWritesTheSuccessor`, `MarkFreeClearsTheDoneBits`: every part,
at both ends of the index range. -/
theorem witness_RingTransactions :
    ([0#16, 3#16].all fun i =>
      enabled .inspect ((inPass wInspU i).asking .walker i 0) &&
      enabled .inspect ((inPass wInspL i).asking .walker i 0) &&
      enabled .inspect ((inPass wInspA i).asking .walker i 0) &&
      enabled .advanceTail ((inPass wAdv i).asking .walker i 0) &&
      enabled .markFree ((inPass wClrR i).asking .walker i 0) &&
      enabled .markFree ((inPass wClrW i).asking .walker i 3)) = true ∧
    ((inPass wInspU 3).cfg.Ok ∧ goodBase s1.cfg s1.ringBase = true ∧ s1.mem.wf = true ∧
      (inPass wInspU 3).tailC.toNat < s1.cfg.ringSize ∧ (inPass wInspU 3).life ≠ 3#2) := by
  refine ⟨by decide, by decide, ?_⟩; decide

/-- `RingLaws` and `WindowsShareTheRing`, in the smallest and the largest ring. -/
theorem witness_RingLaws :
    (2 ≤ 2 ∧ 2 ≤ 65536 ∧ (1#16).toNat < 2 ∧ (0#16).toNat < 2) ∧
    (2 ≤ 65536 ∧ 65536 ≤ 65536 ∧ (65535#16).toNat < 65536 ∧ (0#16).toNat < 65536) := by decide

theorem witness_PassStartTakesTheQueuedWork : s1.life = 1#2 ∧ s1.wstate = 0x00#8 ∧ s1.pending = true := by
  decide

/-- In range at N - 1, out of range at N, for head and for tail. -/
theorem witness_PassSnapshotsHeadAndTail :
    (inPass wSnapT 3).cfg.Ok ∧ (inPass wSnapT 3).wstate = 0x22#8 ∧
    ({ inPass wSnapT 3 with headS := 3#16 } : State).headS.toNat < 4 ∧
    ((inPass wSnapT 3).dev.rdt.setWidth 16).toNat < 4 ∧
    4 ≤ ({ inPass wSnapT 3 with headS := 4#16 } : State).headS.toNat ∧
    4 ≤ ((inPass wSnapT 4).dev.rdt.setWidth 16).toNat := by
  refine ⟨by decide, ?_⟩; decide

/-- Complete; an advance left below the cap; an advance left at the cap. -/
theorem witness_PassTestDecides :
    (inPass wTest 1).tailC = (inPass wTest 1).prevHead ∧
    ((inPass wTest 3).tailC ≠ (inPass wTest 3).prevHead ∧ (inPass wTest 3).iter.toNat < 4) ∧
    ((inPass wTest 0).tailC ≠ (inPass wTest 0).prevHead ∧ 1 ≤ (inPass wTest 0).iter.toNat) := by decide

/-- A head in range at N - 1 and out of it at N; a tail that is `tail_c` and one that is not. -/
theorem witness_PassRereadsHeadAndTail :
    ((3#32).setWidth 16 : Half).toNat < 4 ∧ 4 ≤ ((4#32).setWidth 16 : Half).toNat ∧
    (inPass wRrT 0).dev.rdt.setWidth 16 = (inPass wRrT 0).tailC ∧
    ({ inPass wRrT 0 with tailC := 1#16 } : State).dev.rdt.setWidth 16 ≠ 1#16 := by decide

/-- `PassAdvanceWritesTheTail`, `PassInspectsTheDescriptor`, `PassConsumeReportsTheView`,
`PassRecyclesTheDescriptor`: the states of a pass, at the last index of the ring. -/
theorem witness_PassInspectsAndRecycles :
    ([wAdv, wInspU, wInspL, wInspA, wConsume, wClrR, wClrW].all fun w =>
      goodBase (inPass w 3).cfg (inPass w 3).ringBase && (inPass w 3).mem.wf &&
      decide ((inPass w 3).tailC.toNat < (inPass w 3).cfg.ringSize) &&
      decide ((inPass w 3).wstate = w)) = true ∧ (inPass wInspU 3).cfg.Ok := by
  refine ⟨by decide, ?_⟩; decide

theorem witness_PassWritesOnlyStatusAndTail :
    ∃ t, Invariant (inPass wAdv 3) ∧ Instr.family .passAdv = 0x2#4 ∧ exec .passAdv (inPass wAdv 3) = .next t :=
  ⟨_, test_advancing_invariant, by decide, rfl⟩

/-- An operation that records a failure, and one that does not. -/
theorem witness_OnlyAbandonRecordsAFailure :
    seen (fun t => t.errSeen) (exec .passRrT { inPass wRrT 0 with tailC := 1#16 }) = some true ∧
    seen (fun t => t.errSeen) (exec .passRrT (inPass wRrT 0)) = some false := by decide

/-- `FrontEndSteps`, `AcknowledgeNeverBlocks`. -/
theorem witness_FrontEnd :
    signalled.life = 1#2 ∧ signalled.istate = 0x00#8 ∧ signalled.dev.cause &&& signalled.dev.mask ≠ 0#32 ∧
    irq signalled.dev = true ∧ signalled.life ≠ lifeUnused ∧
    ({ signalled with istate := iSched } : State).istate = 0x31#8 ∧
    ({ signalled with istate := iRearm } : State).istate = 0x32#8 := by decide

theorem witness_FrontEndNeverTouchesTheRing :
    Agent.sequences .ife .irqAck = true ∧ isNext (exec .irqAck signalled) = true := by decide

/-- `PortReadReplies`, `PortWriteIsAcknowledged`, `InitLatchTakesOrRefuses`, `QuiesceMasksAndCancels`:
the rows of 44_host_port_lifecycle.md R200, the bases at their edges. -/
theorem witness_HostCommands :
    { waiting lifeReady [.portRead true 3] with sched := [.agent .hostcmd] }.sched = .agent .hostcmd :: [] ∧
    ((waiting lifeReady [.portRead true 4]).hstate = 0x00#8 ∧
      (waiting lifeReady [.portRead true 4]).cmds = [.portRead true 4] ∧
      (waiting lifeReady [.portRead true 4]).life = 1#2) ∧
    ((waiting lifeReady [.portWrite true 1]).hstate = 0x00#8 ∧
      (waiting lifeReady [.portWrite true 1]).cmds = [.portWrite true 1]) ∧
    (waiting lifeQuiescing [.portRead true 4]).life ≠ 1#2 ∧
    ((waiting lifeReady [.portRead false 4]).cmds = [.portRead false 4] ∧
      (waiting lifeReady [.portRead false 4]).life = 1#2 ∧ 3 ≤ 3 ∧
      (waiting lifeReady [.portRead true 3]).cmds = [.portRead true 3]) ∧
    ((waiting lifeReady [.portWrite true 0]).cmds = [.portWrite true 0] ∧
      (waiting lifeReady [.portWrite false 7]).cmds = [.portWrite false 7] ∧
      (waiting lifeReady [.portWrite false 7]).life = 1#2 ∧
      (waiting lifeUnattached [.portWrite true 7]).life ≠ 1#2) ∧
    ({ s1 with hstate := hPortT } : State).hstate = 0x41#8 ∧
    ((waiting lifeReady [.init 0x40000#64 []]).life ≠ 0#2 ∧
      (waiting lifeReady [.init 0x40000#64 []]).cmds = [.init 0x40000#64 []]) ∧
    (waiting lifeUnattached [.init 0x40000#64 []]).life = 0#2 ∧
    ((0x40008#64).toNat % 16 ≠ 0 ∧ 2 ^ 64 < (0xFFFFFFFFFFFFFFD0#64).toNat + 4 * 16 ∧
      (0xFFFFFFFFFFFFFFC0#64).toNat % 16 = 0 ∧ (0xFFFFFFFFFFFFFFC0#64).toNat + 4 * 16 ≤ 2 ^ 64) ∧
    ({ waiting lifeReady [.quiesce] with istate := iSched } : State).istate ≠ 0x00#8 ∧
    (waiting lifeReady [.quiesce]).istate = 0x00#8 ∧
    ((waiting lifeUnattached [.quiesce]).hstate = 0x00#8 ∧
      (waiting lifeUnattached [.quiesce]).cmds = [.quiesce] ∧
      (waiting lifeUnattached [.quiesce]).life ≠ 1#2 ∧
      (waiting lifeQuiescing [.quiesce]).life ≠ 1#2) := by decide

/-- The rows that refuse, or find arguments invalid (44_host_port_lifecycle.md R200 rows 1 to 3, 5, 6,
11). -/
theorem test_commands_turned_away :
    seen (fun s => s.trace) (hostMoves (waiting lifeUnattached [.portRead true 4])) =
      some [.refused notReady] ∧
    seen (fun s => s.trace) (hostMoves (waiting lifeReady [.portRead false 4])) =
      some [.portReply false 0#32 0#32] ∧
    seen (fun s => s.trace) (hostMoves (waiting lifeReady [.portWrite true 0])) =
      some [.portReply false 0#32 0#32] ∧
    seen (fun s => s.trace) (hostMoves (waiting lifeReady [.portWrite false 7])) =
      some [.portReply false 0#32 0#32] ∧
    seen (fun s => (s.trace, s.cmds)) (hostMoves (waiting lifeUnattached [.quiesce, .quiesce])) =
      some ([.refused notReady], [.quiesce]) := by decide
/-- A command that is turned away performs no operation (30_encoding.md R105); R201 and its like enable the
operation in their own row of R200 only. -/
theorem test_turned_away_is_no_operation :
    agentOperation .hostcmd (waiting lifeReady [.portRead true 3]) = none ∧
    exec .portRdH (waiting lifeReady [.portRead true 3]) = .fault (.notEnabled .portRdH) ∧
    agentOperation .hostcmd (waiting lifeReady [.portRead true 4]) = some .portRdH :=
  ⟨by decide, rfl, by decide⟩

theorem witness_InitWritesOneDescriptor :
    ([hDescA, hDescL, hDescU].all fun h =>
      goodBase (inInit h 3).cfg (inInit h 3).ringBase && (inInit h 3).mem.wf &&
      decide ((inInit h 3).initI.toNat < (inInit h 3).cfg.ringSize) && decide ((inInit h 3).hstate = h)) = true ∧
    (inInit hDescA 3).initBuf[(inInit hDescA 3).initI.toNat]? = some 0x21800#64 ∧ (inInit hDescA 3).cfg.Ok := by
  refine ⟨by decide, by decide, ?_⟩; decide

/-- `InitProgramsTheRegisters`: each of its five states. -/
theorem witness_InitProgramsTheRegisters :
    (inInit hBah 3).cfg.Ok ∧ (inInit hBah 3).hstate = 0x54#8 ∧ (inInit hBal 3).hstate = 0x55#8 ∧
    (inInit hLen 3).hstate = 0x56#8 ∧ (inInit hTail 3).hstate = 0x57#8 ∧ (inInit hArm 3).hstate = 0x58#8 := by
  refine ⟨by decide, ?_⟩; decide

theorem witness_QuiesceWaitsForThePass :
    quiescing.hstate = 0x61#8 ∧ quiescing.wstate = 0x00#8 ∧
    ({ quiescing with wstate := wInspA } : State).wstate ≠ 0x00#8 := by decide

theorem witness_QuiescingIsABarrier :
    ∃ t, Invariant { quiescing with sched := [.agent .hostcmd] } ∧ quiescing.life = lifeQuiescing ∧
      step { quiescing with sched := [.agent .hostcmd] } = .next t ∧ t.life = lifeUnattached :=
  ⟨_, by constructor <;> decide, rfl, rfl, rfl⟩

/-- Also the witness of `RegisterWritersAreThese` and of the second part of `OneTransactionPerStep`. -/
theorem witness_EachAgentWritesItsOwnState :
    (Agent.sequences .walker .passStart = true ∧ isNext (exec .passStart s1) = true) ∧
    (Agent.sequences .ife .irqAck = true ∧ isNext (exec .irqAck signalled) = true) ∧
    (Agent.sequences .hostcmd .initArm = true ∧ isNext (exec .initArm (inInit hArm 3)) = true) ∧
    (acceptStep (waiting lifeReady [.portWrite true 0])).isSome = true := by decide

/-- Also the witness of `EveryPassEndsWithinTheBound`, `EveryStepCompletes` and the first part of
`OneTransactionPerStep`. -/
theorem witness_EveryStepKeepsTheInvariant :
    ∃ t, Invariant { s1 with sched := [.agent .walker] } ∧
      step { s1 with sched := [.agent .walker] } = .next t ∧ t.wstate = wSnapH ∧
      NoReservedNext { s1 with sched := [.agent .walker] } :=
  ⟨_, by constructor <;> decide, rfl, rfl, fun _ _ h => by simp at h⟩

/-- `EveryStepCompletes`: a computation that names an operation. -/
theorem witness_EveryStepCompletes :
    Invariant { s1 with sched := [.compute 0x13#8] } ∧ NoReservedNext { s1 with sched := [.compute 0x13#8] } :=
  ⟨by constructor <;> decide, fun _ _ h => ⟨.pendcnt, by cases h; rfl⟩⟩

/-- `EveryLocationHasItsWriters`: RDT's first writer at work, the mask's and the cause's; none of these
steps is the DEVICE's. -/
theorem witness_EveryLocationHasItsWriters :
    ∃ t, Invariant { inPass wAdv 3 with sched := [.agent .walker] } ∧
      step { inPass wAdv 3 with sched := [.agent .walker] } = .next t ∧ t.dev.rdt = 0#32 ∧
      (∀ m rest, ({ inPass wAdv 3 with sched := [.agent .walker] } : State).sched ≠ .device m :: rest) ∧
      inRange 4 (inPass wClrW 3).dev.head = true :=
  ⟨_, by constructor <;> decide, rfl, rfl, fun _ _ h => by simp at h, by decide⟩

/-- `AtRestNothingIsIssued`: after reset. -/
theorem witness_AtRestNothingIsIssued :
    Invariant { State.reset with cfg := fixCfg 4 } ∧ State.reset.life = 0#2 ∧
      State.reset.hstate ∉ initStates ∧ State.reset.cmds = [] ∧
      isNext (step { State.reset with sched := [.agent .ife] }) = true :=
  ⟨by constructor <;> decide, by decide⟩

theorem witness_HeadStaysInRangeAndMovesForward :
    ∃ s t, Invariant s ∧ DeviceOk s ∧ step s = .next t ∧ t.dev.head = 3#16 ∧ s.dev.head = 2#16 :=
  ⟨{ s1 with dev := { s1.dev with fill := some { req := fill2, phase := .headAdvance } },
             sched := [.device .fillNext] }, _, by constructor <;> decide,
    ⟨by decide, fun f h => by cases h; decide⟩, rfl, rfl, rfl⟩

theorem witness_NoPassIsAbandonedUnderTheContract :
    ∃ t, Invariant { inPass wSnapT 3 with sched := [.agent .walker] } ∧
      DeviceOk { inPass wSnapT 3 with sched := [.agent .walker] } ∧
      SnapshotOk { inPass wSnapT 3 with sched := [.agent .walker] } ∧
      step { inPass wSnapT 3 with sched := [.agent .walker] } = .next t ∧ t.wstate = wTest :=
  ⟨_, by constructor <;> decide, ⟨by decide, fun f h => absurd h (by simp [inPass, s1, Device.reset])⟩,
    fun _ => by decide, rfl, rfl⟩

/-- The same where a failure of that code is already recorded (10_state.md R35). -/
theorem witness_NoPassIsAbandonedUnderTheContract_recorded :
    Invariant { inPass wSnapT 3 with errSeen := true, errCode := eIndexRange } ∧
      SnapshotOk { inPass wSnapT 3 with errSeen := true, errCode := eIndexRange } ∧
      (inPass wSnapT 3).wstate ≠ wIdle ∧ (inPass wSnapT 3).wstate ≠ wTest :=
  ⟨by constructor <;> decide, fun _ => by decide, by decide⟩

theorem witness_TailCursorEqualsTheRegister :
    ∃ s t, Invariant s ∧ run 1 s = .next t ∧ t.wstate = 0x25#8 :=
  ⟨{ inPass wAdv 3 with sched := [.agent .walker] }, _, by constructor <;> decide, rfl, rfl⟩

theorem witness_APassServicesWhatIsPending :
    Invariant s1 ∧ DeviceOk s1 ∧ s1.life = lifeReady ∧ s1.wstate = wIdle ∧ s1.pending = true :=
  ⟨test_s1_invariant, test_deviceOk, rfl, rfl, rfl⟩

theorem witness_InitBuildsTheRing :
    ∃ (s : State) (base : DWord) (buf : List DWord), s.cfg.Ok ∧ s.mem.wf = true ∧ s.life = lifeUnattached ∧
      s.hstate = hIdle ∧ s.pending = false ∧ s.cmds = [.init base buf] ∧ buf.length = s.cfg.ringSize ∧
      goodBase s.cfg base = true :=
  ⟨waiting lifeUnattached [.init 0xFFFFFFFFFFFFFFC0#64 [1#64, 2#64, 3#64, 4#64]], _, _,
    by decide, by decide, rfl, rfl, rfl, rfl, rfl, by decide⟩

/-- The head's descriptor for its address field, another descriptor, and a DEVICE move that writes. -/
theorem witness_DeviceKeepsToItsWindow :
    Invariant s1 ∧ s1.attached ∧ deviceMove (.fill fill2) s1 ≠ s1 ∧
    (2#16).toNat < s1.cfg.ringSize ∧ s1.dev.head = 2#16 ∧ 7 < 8 ∧ (3#16 : Half) ≠ s1.dev.head ∧
    inSoftwareWindow s1.cfg.ringSize s1.dev.head s1.dev.tail 3#16 = true :=
  ⟨test_s1_invariant, by decide, by decide, by decide, by decide, by decide, by decide, by decide⟩

theorem witness_FillCompletesADescriptor :
    Invariant s1 ∧ DeviceOk s1 ∧ s1.attached ∧ s1.dev.fill = none ∧ s1.dev.head ≠ s1.dev.tail ∧
    fill2.ok s1.cfg = true ∧ fill2.index = s1.dev.head ∧
    outsideRingBytes s1.cfg s1.ringBase (descAddrField s1 s1.dev.head) fill2.data.length = true :=
  ⟨test_s1_invariant, test_deviceOk, by decide, by decide, by decide, by decide, by decide, by decide⟩

theorem witness_RaiseSetsCauseBits : (1#32 : Word) ≠ 0#32 := by decide

end Sys2Proof.Tests
end

