-- ==== Sys2Proof/Proofs/Scope.lean ====
section
/-! Proofs/Scope.lean: how one step extends the event history. An operation adds nothing, one event, or a
second event that is no transaction behind the first: an abandoned pass writes its `Log` and a reply or
`initDone` follows the access that ends its command. -/

namespace Sys2Proof.Machine

/-- The history `new` is `old`, extended as one step may extend it: by nothing, by one event, or by one
event and then one that is no transaction. -/
inductive StepExtends (old : List Event) : List Event → Prop where
  | same : StepExtends old old
  | event (e : Event) : StepExtends old (e :: old)
  | eventThen (e e' : Event) (he' : e'.isTransaction = false) : StepExtends old (e' :: e :: old)

/-- Such an extension holds at most one transaction. -/
theorem StepExtends.exists_append {old new : List Event} (h : StepExtends old new) :
    ∃ l, new = l ++ old ∧ (l.filter Event.isTransaction).length ≤ 1 := by
  cases h with
  | same => exact ⟨[], rfl, Nat.zero_le 1⟩
  | event e => exact ⟨[e], rfl, List.length_filter_le _ _⟩
  | eventThen e e' he' =>
    refine ⟨[e', e], rfl, ?_⟩
    rw [List.filter_cons_of_neg (by simp [he'])]
    exact List.length_filter_le _ [e]

/-- INSPECT goes a part at a time, so each performance of it is one read (log 10). -/
theorem execInspect_stepExtends {s t : State} (e : execInspect s = .next t) :
    StepExtends s.trace t.trace := by
  obtain ⟨-, e⟩ := execInspect_next.1 e
  split at e
  · obtain ⟨-, rfl⟩ := e; exact .event _
  · split at e <;> (obtain ⟨-, rfl⟩ := e; exact .event _)

/-- MARK_FREE goes a part at a time: the read, or the write (log 10). -/
theorem execMarkFree_stepExtends {s t : State} (e : execMarkFree s = .next t) :
    StepExtends s.trace t.trace := by
  obtain ⟨-, -, rfl⟩ := execMarkFree_next.1 e
  split <;> exact .event _

/-- How every operation extends the history. -/
theorem exec_stepExtends {i : Instr} {s t : State} (e : exec i s = .next t) :
    StepExtends s.trace t.trace := by
  cases i
  case nextIdx | prevIdx | descAddr | pendcnt | isdone =>
    rw [exec_isPure rfl e]; exact .same
  case inspect => exact execInspect_stepExtends e
  case markFree => exact execMarkFree_stepExtends e
  -- latches only
  case passStart => obtain ⟨-, rfl⟩ := execPassStart_next.1 e; exact .same
  case irqSched => obtain ⟨-, rfl⟩ := execIrqSched_next.1 e; exact .same
  case initLatch => obtain ⟨-, -, _, _, _, -, -, rfl⟩ := execInitLatch_next.1 e; exact .same
  -- one event
  case rdhR | rdtR | rdtW | icrR | imsW | imcW | rdbalW | rdbahW | rdlenW | advanceTail =>
    simp only [exec, execRdhR_next, execRdtR_next, execRdtW_next, execIcrR_next, execImsW_next,
      execImcW_next, execRdbalW_next, execRdbahW_next, execRdlenW_next, execAdvanceTail_next] at e
    obtain ⟨-, rfl⟩ := e; exact .event _
  case passSnapH | passAdv | passConsume | irqAck | irqRearm | initBah | initBal | initLen | initTail |
      quiesceWait =>
    simp only [exec, execPassSnapH_next, execPassAdv_next, execPassConsume_next, execIrqAck_next,
      execIrqRearm_next, execInitBah_next, execInitBal_next, execInitLen_next, execInitTail_next,
      execQuiesceWait_next] at e
    obtain ⟨-, rfl⟩ := e; exact .event _
  case passInspU | passInspL | passInspA | passClrR | passClrW | initDescL =>
    simp only [exec, execPassInspU_next, execPassInspL_next, execPassInspA_next, execPassClrR_next,
      execPassClrW_next, execInitDescL_next] at e
    obtain ⟨-, -, rfl⟩ := e; exact .event _
  case initDescA => obtain ⟨-, _, -, -, rfl⟩ := execInitDescA_next.1 e; exact .event _
  case initDescU => obtain ⟨-, -, rfl⟩ := execInitDescU_next.1 e; split <;> exact .event _
  case portRdH => obtain ⟨-, -, _, _, -, -, rfl⟩ := execPortRdH_next.1 e; exact .event _
  case portWrite => obtain ⟨-, -, _, _, -, -, rfl⟩ := execPortWrite_next.1 e; exact .event _
  case quiesceMask => obtain ⟨-, -, -, _, -, rfl⟩ := execQuiesceMask_next.1 e; exact .event _
  -- an access and what follows it: a reply, or the `Log` of an abandoned pass
  case portRdT => obtain ⟨-, rfl⟩ := execPortRdT_next.1 e; exact .eventThen _ _ rfl
  case initArm => obtain ⟨-, rfl⟩ := execInitArm_next.1 e; exact .eventThen _ _ rfl
  case passSnapT =>
    obtain ⟨-, rfl⟩ := execPassSnapT_next.1 e
    split
    · exact .event _
    · exact .eventThen _ _ rfl
  case passRrH =>
    obtain ⟨-, rfl⟩ := execPassRrH_next.1 e
    split
    · exact .event _
    · exact .eventThen _ _ rfl
  case passRrT =>
    obtain ⟨-, rfl⟩ := execPassRrT_next.1 e
    split
    · exact .event _
    · exact .eventThen _ _ rfl
  -- PASS.TEST issues nothing: only the abandoned pass leaves an event
  case passTest =>
    obtain ⟨-, rfl⟩ := execPassTest_next.1 e
    split
    · exact .same
    · split
      · exact .event _
      · exact .same

/-- How the DEVICE's moves extend the history; transaction 2 of FILL leaves two entries, both the
DEVICE's own (60_exceptions.md R238). -/
theorem deviceMove_stepExtends (m : DevMove) (s : State) : StepExtends s.trace (deviceMove m s).trace := by
  unfold deviceMove
  split
  · cases m with
    | fill r => dsimp only; split; exacts [.event _, .same]
    | fillNext =>
      dsimp only
      split
      · exact .same
      · split
        · split
          · exact .eventThen _ _ rfl
          · exact .event _
          · exact .event _
        · exact .same
    | raise bits => exact .event _
    | upper rdh rdt => exact .same
  · exact .same

/-- Presenting a command adds nothing to the history. -/
@[simp] theorem presentCommand_trace (c : Command) (s : State) : (presentCommand c s).trace = s.trace := by
  unfold presentCommand
  split <;> rfl

/-- How every step of the machine extends the history. -/
theorem step_stepExtends {s t : State} (e : step s = .next t) : StepExtends s.trace t.trace := by
  obtain ⟨l, rfl | ⟨a, i, -, -, h⟩ | ⟨-, h⟩ | ⟨_, -, h⟩ | ⟨c, -, rfl⟩ | ⟨m, -, rfl⟩⟩ := step_cases e
  · exact .same
  · exact exec_stepExtends (s := { s with sched := l }) h
  · obtain ⟨-, -, _, _, _, -, rfl, -⟩ := acceptStep_cases h
    exact .event _
  · rw [h]; exact .same
  · rw [presentCommand_trace]; exact .same
  · exact deviceMove_stepExtends m { s with sched := l }

/-- Settles O44: a step of the machine and an operation by itself extend the history alike, and such an
extension holds at most one transaction. -/
theorem oneTransactionPerStep : Obligations.OneTransactionPerStep :=
  ⟨fun _ _ e => (step_stepExtends e).exists_append, fun _ _ _ e => (exec_stepExtends e).exists_append⟩

end Sys2Proof.Machine
end

section
/-! Proofs/State.lean: the state and who writes it (10_state.md). Every step keeps the invariant: the parts
of `Invariant` read only some fields of the state, so each way a step can move is one lemma, which keeps
the other parts as they are and says what the move does to the parts it touches; a pass begins, goes on or
ends, HOSTCMD works in READY or in INIT, the DEVICE moves, and the operations are cases of these. Then what
each operation and each agent may write, what is left to do at rest, and how the two windows share the
ring. -/

namespace Sys2Proof.Machine

/-! ## The sequencer states -/

/-- Past PASS.SNAP_T the WALKER's state is a legal one, not idle, and neither snapshot. -/
theorem loopStates_legal : ∀ w ∈ loopStates,
    w ∈ walkerStates ∧ w ≠ wIdle ∧ w ∉ [wSnapH, wSnapT] := by decide

theorem snapStates_legal : ∀ w ∈ [wSnapH, wSnapT],
    w ∈ walkerStates ∧ w ≠ wIdle ∧ w ≠ wAdv ∧ w ∉ loopStates ∧ w ∉ beforeConsume := by decide

/-- INIT's states are legal ones, apart from those of a port read and of QUIESCE. -/
theorem initStates_legal : ∀ h ∈ initStates, h ∈ hostStates ∧ h ≠ hPortT ∧ h ≠ hQwait := by decide

theorem descStates_sub_initStates : ∀ h ∈ descStates, h ∈ initStates := by decide

/-- In the descriptor states, and behind them, no register holds its word yet. -/
theorem descOrBah_states : ∀ h ∈ hBah :: descStates,
    h ∈ initStates ∧ h ∉ [hBal, hLen, hTail, hArm] ∧ h ∉ [hLen, hTail, hArm] ∧ h ∉ [hTail, hArm] ∧
      h ≠ hArm := by decide

/-- Outside INIT the parts of the invariant about INIT's states ask nothing. -/
theorem notInit_states : ∀ h ∈ [hIdle, hPortT, hQwait],
    h ∈ hostStates ∧ h ∉ initStates ∧ h ∉ descStates ∧ h ∉ [hBal, hLen, hTail, hArm] ∧
      h ∉ [hLen, hTail, hArm] ∧ h ∉ [hTail, hArm] ∧ h ≠ hArm := by decide

/-! ## Counters and masks -/

/-- A counter that has not passed N does not wrap (41_ring_primitives.md R148). -/
theorem count_succ_toNat {c : Count} (h : c.toNat ≤ 65536) : (c + 1#17).toNat = c.toNat + 1 := by
  rw [BitVec.toNat_add, BitVec.toNat_ofNat]; omega

/-- IMS.W enables the bits of `IRQ_ENABLE_MASK` (40_reg_accessors.md R126). -/
theorem maskSet_enables (m e : Word) : (m ||| e) &&& e = e := by
  ext j hj; simp +contextual

/-- IMC.W disables every bit RXW enables (40_reg_accessors.md R127, 00_scope.md R7). -/
theorem maskClear_disables {c : Config} (h : c.Ok) (m : Word) :
    (m &&& ~~~c.irqDisableMask) &&& c.irqEnableMask = 0#32 := by
  obtain ⟨-, -, -, -, -, -, -, -, -, -, -, -, -, -, -, -, hsub⟩ := h
  rw [BitVec.and_assoc, BitVec.and_comm _ c.irqEnableMask, hsub, BitVec.and_zero]

theorem ready_ne_unattached : lifeReady ≠ lifeUnattached := by decide

theorem quiescing_ne_unattached : lifeQuiescing ≠ lifeUnattached := by decide

namespace Invariant

variable {s : State}

/-! ## What the parts of the invariant give together -/

theorem ringSize_bounds (hI : Invariant s) : 2 ≤ s.cfg.ringSize ∧ s.cfg.ringSize ≤ 65536 :=
  ⟨hI.cfgOk.1, hI.cfgOk.2.1⟩

theorem loop_attached (hI : Invariant s) (hw : s.wstate ∈ loopStates) : s.attached :=
  hI.passAttached (loopStates_legal _ hw).2.1

/-- Inside a pass the tail cursor is an index of the ring (42_service_pass.md R180). -/
theorem tailC_lt (hI : Invariant s) (hw : s.wstate ∈ loopStates) : s.tailC.toNat < s.cfg.ringSize := by
  rw [hI.tailHeld hw, ← inRange_iff]
  exact hI.tailInRange (.inl (hI.loop_attached hw))

/-- With no ring the WALKER is idle (44_host_port_lifecycle.md R217). -/
theorem walker_idle (hI : Invariant s) (hl : s.life = lifeUnattached) : s.wstate = wIdle :=
  not_imp_comm.1 hI.passAttached (not_not_intro hl)

/-- Outside READY no acknowledge is in flight (43_irq_front_end.md R190). -/
theorem ife_idle (hI : Invariant s) (hl : s.life ≠ lifeReady) : s.istate = iIdle :=
  not_imp_comm.1 hI.ackReady hl

/-- Outside READY no work is queued (10_state.md R33). -/
theorem not_pending (hI : Invariant s) (hl : s.life ≠ lifeReady) : s.pending ≠ true :=
  fun h => hl (hI.pendingReady h)

/-! ## Moves that touch no part, and the DEVICE -/

/-- No part of the invariant reads the schedule, the call port or the history. -/
theorem of_unread (hI : Invariant s) {l : List Move} {p : CallPort} {tr : List Event} :
    Invariant { s with sched := l, call := p, trace := tr } :=
  { hI with }

/-- Waiting commands may be taken and others of 30_encoding.md R107 may come. -/
theorem of_commands (hI : Invariant s) {cs : List Command} (hcs : ∀ c ∈ cs, c.ok s.cfg = true)
    {tr : List Event} : Invariant { s with cmds := cs, trace := tr } :=
  { hI with cmdsOk := hcs }

/-- The DEVICE may change memory, head, `cause`, its reception, and the upper half of RDT
(60_exceptions.md R238 to R241). -/
theorem of_device (hI : Invariant s) {m : Memory} (hm : m.wf = true) {rdh rdt cause : Word}
    {f : Option Fill} {tr : List Event} (hrdt : indexOfWord rdt = s.dev.tail) :
    Invariant { s with
      mem := m, dev := { s.dev with rdh := rdh, rdt := rdt, cause := cause, fill := f }, trace := tr } :=
  { hI with
    memWf := hm
    tailInRange := fun h => by rw [Device.tail, hrdt]; exact hI.tailInRange h
    tailHeld := fun h => (hI.tailHeld h).trans hrdt.symm }

/-! ## The WALKER (42_service_pass.md R160 to R175) -/

/-- A pass begins, or takes its first snapshot: nothing advanced, nothing consumed. -/
theorem passSnapshots (hI : Invariant s) (ha : s.attached) {w : Byte} (hw : w ∈ [wSnapH, wSnapT])
    {p : Bool} (hp : p = true → s.pending = true) {i c : Count} (hi : i = 0#17) (hc : c = 0#17)
    {h : Half} {tr : List Event} :
    Invariant { s with
      pending := p, headS := h, iter := i, passConsumed := c, wstate := w, trace := tr } := by
  obtain ⟨hlegal, -, hadv, hloop, hbefore⟩ := snapStates_legal w hw
  exact { hI with
    walkerLegal := hlegal
    passAttached := fun _ => ha
    pendingReady := fun h => hI.pendingReady (hp h)
    tailHeld := fun h => absurd h hloop
    prevHeadInRange := fun h => absurd h hloop
    passFresh := fun _ => ⟨hi, hc⟩
    passBound := fun h => absurd h hloop
    advanceLeft := fun h => absurd h hadv
    iterBound := by simp [hi]
    consumedBound := by simp [hc]
    consumedIter := fun h => absurd h hloop
    consumedBefore := fun h => absurd h hbefore }

/-- A pass ends, whether by the completion test or by `abandon`. -/
theorem passEnds (hI : Invariant s) {t h : Half} {e : Bool} {c : BitVec 4} {tr : List Event} :
    Invariant { s with
      tailC := t, headLive := h, errSeen := e, errCode := c, wstate := wIdle, trace := tr } := by
  have hloop : wIdle ∉ loopStates := by decide
  exact { hI with
    walkerLegal := show wIdle ∈ walkerStates by decide
    passAttached := fun h => absurd rfl h
    tailHeld := fun h => absurd h hloop
    prevHeadInRange := fun h => absurd h hloop
    passFresh := fun h => absurd h (show wIdle ∉ [wSnapH, wSnapT] by decide)
    passBound := fun h => absurd h hloop
    advanceLeft := fun h => absurd h (show wIdle ≠ wAdv by decide)
    consumedIter := fun h => absurd h hloop
    consumedBefore := fun h => absurd h (show wIdle ∉ beforeConsume by decide) }

/-- A pass goes on with its cursor and its counts as they are: to PASS.ADV only with an advance left, to a
step before PASS.CONSUME only from one. -/
theorem passGoesOn (hI : Invariant s) {w w' : Byte} (hs : s.wstate = w)
    (hw : w ∈ loopStates ∧ w' ∈ loopStates ∧ (w' ∈ beforeConsume → w ∈ beforeConsume))
    (hadv : w' = wAdv → s.tailC ≠ s.prevHead)
    {m : Memory} (hm : m.wf = true) {h : Half} {v : View} {b : Byte} {tr : List Event} :
    Invariant { s with headLive := h, view := v, clrTmp := b, wstate := w', mem := m, trace := tr } := by
  subst hs
  obtain ⟨hloop, hloop', hbefore⟩ := hw
  obtain ⟨hlegal, -, hsnap⟩ := loopStates_legal w' hloop'
  exact { hI with
    memWf := hm
    walkerLegal := hlegal
    passAttached := fun _ => hI.loop_attached hloop
    tailHeld := fun _ => hI.tailHeld hloop
    prevHeadInRange := fun _ => hI.prevHeadInRange hloop
    passFresh := fun h => absurd h hsnap
    passBound := fun _ => hI.passBound hloop
    advanceLeft := hadv
    consumedIter := fun _ => hI.consumedIter hloop
    consumedBefore := fun h => hI.consumedBefore (hbefore h) }

/-- PASS.SNAP_T with both indices in range (R162): the cursor is the tail register, and the way to the
head's predecessor is shorter than the ring. -/
theorem passEntersLoop (hI : Invariant s) (hs : s.wstate = wSnapT)
    (hh : s.headS.toNat < s.cfg.ringSize) {tr : List Event} :
    Invariant { s with
      tailC := indexOfWord s.dev.rdt, prevHead := prevIndex s.cfg.ringSize s.headS, wstate := wTest,
      trace := tr } := by
  obtain ⟨hn, hn'⟩ := hI.ringSize_bounds
  obtain ⟨hiter, hcons⟩ := hI.passFresh (by simp [hs])
  exact { hI with
    walkerLegal := show wTest ∈ walkerStates by decide
    passAttached := fun _ => hI.passAttached (by rw [hs]; decide)
    tailHeld := fun _ => rfl
    prevHeadInRange := fun _ => inRange_iff.2 (prevIndex_lt (by omega) hn' hh)
    passFresh := fun h => absurd h (show wTest ∉ [wSnapH, wSnapT] by decide)
    passBound := fun _ => by
      have := ringDistance_lt (n := s.cfg.ringSize) (by omega) (indexOfWord s.dev.rdt)
        (prevIndex s.cfg.ringSize s.headS)
      simp only [hiter, BitVec.toNat_ofNat]
      omega
    advanceLeft := fun h => absurd h (show wTest ≠ wAdv by decide)
    consumedIter := fun _ => by simp [hiter, hcons]
    consumedBefore := fun h => absurd h (show wTest ∉ beforeConsume by decide) }

/-- PASS.ADV (R164): the cursor and the tail register move together, one step nearer to `prev_head`. -/
theorem passAdvances (hI : Invariant s) (hs : s.wstate = wAdv) {tr : List Event} :
    Invariant { s with
      tailC := nextIndex s.cfg.ringSize s.tailC, iter := s.iter + 1#17, wstate := wRrH,
      dev := { s.dev with rdt := wordOfIndex (nextIndex s.cfg.ringSize s.tailC) }, trace := tr } := by
  have hloop : s.wstate ∈ loopStates := by rw [hs]; decide
  obtain ⟨hn, hn'⟩ := hI.ringSize_bounds
  have hdist := ringDistance_next (by omega) hn' (hI.tailC_lt hloop)
    (inRange_iff.1 (hI.prevHeadInRange hloop)) (hI.advanceLeft hs)
  have hbound := hI.passBound hloop
  have hcons := hI.consumedIter hloop
  have hiter : (s.iter + 1#17).toNat = s.iter.toNat + 1 := count_succ_toNat (by omega)
  have htail : indexOfWord (wordOfIndex (nextIndex s.cfg.ringSize s.tailC)) =
      nextIndex s.cfg.ringSize s.tailC := indexOfWord_wordOfIndex _
  exact { hI with
    walkerLegal := show wRrH ∈ walkerStates by decide
    passAttached := fun _ => hI.loop_attached hloop
    tailInRange := fun _ => by
      rw [Device.tail, htail, inRange_iff]; exact nextIndex_lt (by omega) hn' _
    tailHeld := fun _ => htail.symm
    prevHeadInRange := fun _ => hI.prevHeadInRange hloop
    passFresh := fun h => absurd h (show wRrH ∉ [wSnapH, wSnapT] by decide)
    passBound := fun _ => by dsimp only; omega
    advanceLeft := fun h => absurd h (show wRrH ≠ wAdv by decide)
    iterBound := by dsimp only; omega
    consumedIter := fun _ => by dsimp only; omega
    consumedBefore := fun _ => by dsimp only; omega }

/-- PASS.CONSUME (R170): the descriptor in hand is counted against the advance that reached it. -/
theorem passConsumes (hI : Invariant s) (hs : s.wstate = wConsume) {tr : List Event} :
    Invariant { s with passConsumed := s.passConsumed + 1#17, wstate := wClrR, trace := tr } := by
  have hloop : s.wstate ∈ loopStates := by rw [hs]; decide
  have hbefore := hI.consumedBefore (by rw [hs]; decide)
  have hbound := hI.iterBound
  have hcons : (s.passConsumed + 1#17).toNat = s.passConsumed.toNat + 1 :=
    count_succ_toNat (by have := hI.ringSize_bounds; omega)
  exact { hI with
    walkerLegal := show wClrR ∈ walkerStates by decide
    passAttached := fun _ => hI.loop_attached hloop
    tailHeld := fun _ => hI.tailHeld hloop
    prevHeadInRange := fun _ => hI.prevHeadInRange hloop
    passFresh := fun h => absurd h (show wClrR ∉ [wSnapH, wSnapT] by decide)
    passBound := fun _ => hI.passBound hloop
    advanceLeft := fun h => absurd h (show wClrR ≠ wAdv by decide)
    consumedBound := by dsimp only; omega
    consumedIter := fun _ => by dsimp only; omega
    consumedBefore := fun h => absurd h (show wClrR ∉ beforeConsume by decide) }

/-! ## HOSTCMD (44_host_port_lifecycle.md R200 to R217) -/

/-- HOSTCMD works through a port command in READY: waiting commands are taken, the ring stays attached. -/
theorem hostInReady (hI : Invariant s) (hl : s.life = lifeReady) {h : Byte} (hh : h ∈ [hIdle, hPortT])
    {cs : List Command} (hcs : ∀ c ∈ cs, c.ok s.cfg = true) {p : Half} {tr : List Event} :
    Invariant { s with cmds := cs, portH := p, hstate := h, trace := tr } := by
  have ha : s.attached := by rw [State.attached, hl]; decide
  have hsplit : ∀ h ∈ [hIdle, hPortT], h ∈ [hIdle, hPortT, hQwait] ∧ h ≠ hQwait := by decide
  obtain ⟨hnot, hq⟩ := hsplit h hh
  obtain ⟨hlegal, hinit, hdesc, -⟩ := notInit_states h hnot
  exact { hI with
    hostLegal := hlegal
    portReady := fun _ => hl
    initUnattached := fun h => absurd h hinit
    quiesceWaits := ⟨fun h => absurd h hq, fun h => absurd (hl.symm.trans h) (by decide)⟩
    baseGood := fun _ => hI.baseGood (.inl ha)
    initIndex := fun h => absurd h hdesc
    initBufs := fun h => absurd h hdesc
    cmdsOk := hcs
    baseHighHeld := fun _ => hI.baseHighHeld (.inl ha)
    baseLowHeld := fun _ => hI.baseLowHeld (.inl ha)
    lengthHeld := fun _ => hI.lengthHeld (.inl ha)
    tailInRange := fun _ => hI.tailInRange (.inl ha) }

/-- INIT.LATCH (R207): a base R200 accepts, and a buffer address per index. -/
theorem initBegins (hI : Invariant s) (hl : s.life = lifeUnattached) {base : DWord}
    (hb : goodBase s.cfg base = true) {buf : List DWord} (hbuf : buf.length = s.cfg.ringSize)
    {cs : List Command} (hcs : ∀ c ∈ cs, c.ok s.cfg = true) :
    Invariant { s with
      cmds := cs, initBase := base, initBuf := buf, ringBase := base, initI := 0#17,
      hstate := hDescA } := by
  have hw := hI.walker_idle hl
  have hn := hI.ringSize_bounds.1
  exact { hI with
    hostLegal := show hDescA ∈ hostStates by decide
    portReady := fun h => absurd h (show hDescA ≠ hPortT by decide)
    initUnattached := fun _ => hl
    quiesceWaits := ⟨fun h => absurd h (show hDescA ≠ hQwait by decide),
      fun h => absurd (hl.symm.trans h) (by decide)⟩
    baseGood := fun _ => hb
    initIndex := fun _ => show 0 < s.cfg.ringSize by omega
    initBufs := fun _ => hbuf
    cmdsOk := hcs
    baseHighHeld := fun h => h.elim (absurd hl)
      (fun h => absurd h (show hDescA ∉ [hBal, hLen, hTail, hArm] by decide))
    baseLowHeld := fun h => h.elim (absurd hl)
      (fun h => absurd h (show hDescA ∉ [hLen, hTail, hArm] by decide))
    lengthHeld := fun h => h.elim (absurd hl)
      (fun h => absurd h (show hDescA ∉ [hTail, hArm] by decide))
    tailInRange := fun h => h.elim (absurd hl) (fun h => absurd h (show hDescA ≠ hArm by decide)) }

/-- INIT goes on from one of its states to another: in the descriptor states with an index of the ring,
behind each register's own step with that register holding its word (R208 to R214). -/
theorem initGoesOn (hI : Invariant s) (hs : s.hstate ∈ initStates) {h : Byte} (hh : h ∈ initStates)
    {i : Count} {m : Memory} {bah bal len rdt : Word} {tr : List Event} (hm : m.wf = true)
    (hdesc : h ∈ descStates → i.toNat < s.cfg.ringSize ∧ s.hstate ∈ descStates)
    (hbah : h ∈ [hBal, hLen, hTail, hArm] → bah = baseHigh s.ringBase)
    (hbal : h ∈ [hLen, hTail, hArm] → bal = baseLow s.ringBase)
    (hlen : h ∈ [hTail, hArm] → len = ringLength s.cfg)
    (hrdt : h = hArm → inRange s.cfg.ringSize (indexOfWord rdt) = true) :
    Invariant { s with
      initI := i, hstate := h, mem := m,
      dev := { s.dev with rdbah := bah, rdbal := bal, rdlen := len, rdt := rdt }, trace := tr } := by
  have hl := hI.initUnattached hs
  have hloop : s.wstate ∉ loopStates := fun h => hI.loop_attached h hl
  obtain ⟨hlegal, hport, hq⟩ := initStates_legal h hh
  exact { hI with
    memWf := hm
    hostLegal := hlegal
    portReady := fun h => absurd h hport
    initUnattached := fun _ => hl
    quiesceWaits := ⟨fun h => absurd h hq, fun h => absurd (hl.symm.trans h) (by decide)⟩
    baseGood := fun _ => hI.baseGood (.inr hs)
    initIndex := fun h => (hdesc h).1
    initBufs := fun h => hI.initBufs (hdesc h).2
    baseHighHeld := fun h => h.elim (absurd hl) hbah
    baseLowHeld := fun h => h.elim (absurd hl) hbal
    lengthHeld := fun h => h.elim (absurd hl) hlen
    tailInRange := fun h => h.elim (absurd hl) hrdt
    tailHeld := fun h => absurd h hloop }

/-- INIT goes on through the descriptors, with an index of the ring (R208 to R210). -/
theorem initDescGoesOn (hI : Invariant s) {h h' : Byte} (hs : s.hstate = h)
    (hh : h ∈ descStates ∧ h' ∈ hBah :: descStates) {i : Count} (hi : i.toNat < s.cfg.ringSize)
    {m : Memory} (hm : m.wf = true) {tr : List Event} :
    Invariant { s with initI := i, hstate := h', mem := m, trace := tr } := by
  subst hs
  obtain ⟨hdesc, hh'⟩ := hh
  obtain ⟨hinit', hbah, hbal, hlen, harm⟩ := descOrBah_states h' hh'
  exact hI.initGoesOn (descStates_sub_initStates _ hdesc) hinit' hm (fun _ => ⟨hi, hdesc⟩)
    (absurd · hbah) (absurd · hbal) (absurd · hlen) (absurd · harm)

/-- INIT.ARM (R215): the registers hold what INIT wrote, and the bits RXW enables are enabled. -/
theorem initEnds (hI : Invariant s) (hs : s.hstate = hArm) {tr : List Event} :
    Invariant { s with
      hstate := hIdle, life := lifeReady,
      dev := { s.dev with mask := s.dev.mask ||| s.cfg.irqEnableMask }, trace := tr } := by
  have hinit : s.hstate ∈ initStates := by rw [hs]; decide
  have hnot : hIdle ∉ initStates ∧ hIdle ∉ descStates := by decide
  exact { hI with
    lifeLegal := show lifeReady ≠ lifeUnused by decide
    hostLegal := show hIdle ∈ hostStates by decide
    passAttached := fun _ => ready_ne_unattached
    ackReady := fun _ => rfl
    pendingReady := fun _ => rfl
    portReady := fun _ => rfl
    initUnattached := fun h => absurd h hnot.1
    quiesceWaits := show hIdle = hQwait ↔ lifeReady = lifeQuiescing by decide
    baseGood := fun _ => hI.baseGood (.inr hinit)
    initIndex := fun h => absurd h hnot.2
    initBufs := fun h => absurd h hnot.2
    baseHighHeld := fun _ => hI.baseHighHeld (.inr (by rw [hs]; decide))
    baseLowHeld := fun _ => hI.baseLowHeld (.inr (by rw [hs]; decide))
    lengthHeld := fun _ => hI.lengthHeld (.inr (by rw [hs]; decide))
    tailInRange := fun _ => hI.tailInRange (.inr hs)
    maskReady := fun _ => maskSet_enables _ _
    maskQuiescing := fun h => absurd h (show lifeReady ≠ lifeQuiescing by decide) }

/-- QUIESCE.MASK (R216): no bit RXW enabled stays enabled, no work is queued, the ring stays attached. -/
theorem quiesceBegins (hI : Invariant s) (hl : s.life = lifeReady) (hi : s.istate = iIdle)
    {cs : List Command} (hcs : ∀ c ∈ cs, c.ok s.cfg = true) {tr : List Event} :
    Invariant { s with
      cmds := cs, pending := false, life := lifeQuiescing, hstate := hQwait,
      dev := { s.dev with mask := s.dev.mask &&& ~~~s.cfg.irqDisableMask }, trace := tr } := by
  have ha : s.attached := by rw [State.attached, hl]; decide
  have hnot : hQwait ∉ initStates ∧ hQwait ∉ descStates := by decide
  exact { hI with
    lifeLegal := show lifeQuiescing ≠ lifeUnused by decide
    hostLegal := show hQwait ∈ hostStates by decide
    passAttached := fun _ => quiescing_ne_unattached
    ackReady := fun h => absurd hi h
    pendingReady := fun h => absurd h Bool.false_ne_true
    portReady := fun h => absurd h (show hQwait ≠ hPortT by decide)
    initUnattached := fun h => absurd h hnot.1
    quiesceWaits := ⟨fun _ => rfl, fun _ => rfl⟩
    baseGood := fun _ => hI.baseGood (.inl ha)
    initIndex := fun h => absurd h hnot.2
    initBufs := fun h => absurd h hnot.2
    cmdsOk := hcs
    baseHighHeld := fun _ => hI.baseHighHeld (.inl ha)
    baseLowHeld := fun _ => hI.baseLowHeld (.inl ha)
    lengthHeld := fun _ => hI.lengthHeld (.inl ha)
    tailInRange := fun _ => hI.tailInRange (.inl ha)
    maskReady := fun h => absurd h (show lifeQuiescing ≠ lifeReady by decide)
    maskQuiescing := fun _ => maskClear_disables hI.cfgOk _ }

/-- QUIESCE.WAIT (R217): with no pass running the ring may go. -/
theorem quiesceEnds (hI : Invariant s) (hs : s.hstate = hQwait) (hw : s.wstate = wIdle)
    {tr : List Event} :
    Invariant { s with life := lifeUnattached, hstate := hIdle, trace := tr } := by
  have hl : s.life ≠ lifeReady := by rw [hI.quiesceWaits.1 hs]; decide
  obtain ⟨hlegal, hinit, hdesc, hbah, hbal, hlen, harm⟩ := notInit_states hIdle (by decide)
  exact { hI with
    lifeLegal := show lifeUnattached ≠ lifeUnused by decide
    hostLegal := hlegal
    passAttached := fun h => absurd hw h
    ackReady := fun h => absurd (hI.ife_idle hl) h
    pendingReady := fun h => absurd h (hI.not_pending hl)
    portReady := fun h => absurd h (show hIdle ≠ hPortT by decide)
    initUnattached := fun _ => rfl
    quiesceWaits := show hIdle = hQwait ↔ lifeUnattached = lifeQuiescing by decide
    baseGood := fun h => h.elim (absurd rfl) (absurd · hinit)
    initIndex := fun h => absurd h hdesc
    initBufs := fun h => absurd h hdesc
    baseHighHeld := fun h => h.elim (absurd rfl) (absurd · hbah)
    baseLowHeld := fun h => h.elim (absurd rfl) (absurd · hbal)
    lengthHeld := fun h => h.elim (absurd rfl) (absurd · hlen)
    tailInRange := fun h => h.elim (absurd rfl) (absurd · harm)
    maskReady := fun h => absurd h (show lifeUnattached ≠ lifeReady by decide)
    maskQuiescing := fun h => absurd h (show lifeUnattached ≠ lifeQuiescing by decide) }

end Invariant

/-! ## Every operation of a sequencer keeps the invariant -/

/-- The WALKER's operations (42_service_pass.md R160 to R172). -/
theorem execPass_invariant {i : Instr} {s t : State} (hI : Invariant s)
    (hs : Agent.sequences .walker i = true) (e : exec i s = .next t) : Invariant t := by
  cases i
  case passStart =>
    obtain ⟨⟨hl, -, -⟩, rfl⟩ := execPassStart_next.1 e
    exact hI.passSnapshots (by rw [State.attached, hl]; decide) (w := wSnapH) (by decide)
      (absurd · Bool.false_ne_true) rfl rfl
  case passSnapH =>
    obtain ⟨hw, rfl⟩ := execPassSnapH_next.1 e
    obtain ⟨hi, hc⟩ := hI.passFresh (by simp [hw])
    exact hI.passSnapshots (hI.passAttached (by rw [hw]; decide)) (w := wSnapT) (by decide) id hi hc
  case passSnapT =>
    obtain ⟨hw, rfl⟩ := execPassSnapT_next.1 e
    split
    next h => exact hI.passEntersLoop hw (inRange_iff.1 (Bool.and_eq_true_iff.1 h).1)
    next => exact hI.passEnds
  case passTest =>
    obtain ⟨hw, rfl⟩ := execPassTest_next.1 e
    split
    next => exact hI.passEnds
    next h =>
      split
      · exact hI.passEnds
      · exact hI.passGoesOn hw (by decide) (fun _ => h) hI.memWf
  case passAdv =>
    obtain ⟨hw, rfl⟩ := execPassAdv_next.1 e
    exact hI.passAdvances hw
  case passRrH =>
    obtain ⟨hw, rfl⟩ := execPassRrH_next.1 e
    split
    · exact hI.passGoesOn hw (by decide) (absurd · (by decide)) hI.memWf
    · exact hI.passEnds
  case passRrT =>
    obtain ⟨hw, rfl⟩ := execPassRrT_next.1 e
    split
    · exact hI.passGoesOn hw (by decide) (absurd · (by decide)) hI.memWf
    · exact hI.passEnds
  case passInspU =>
    obtain ⟨hw, -, rfl⟩ := execPassInspU_next.1 e
    exact hI.passGoesOn hw (by decide) (absurd · (by decide)) hI.memWf
  case passInspL =>
    obtain ⟨hw, -, rfl⟩ := execPassInspL_next.1 e
    exact hI.passGoesOn hw (by decide) (absurd · (by decide)) hI.memWf
  case passInspA =>
    obtain ⟨hw, -, rfl⟩ := execPassInspA_next.1 e
    split
    · exact hI.passGoesOn hw (by decide) (absurd · (by decide)) hI.memWf
    · exact hI.passGoesOn hw (by decide) (absurd · (by decide)) hI.memWf
  case passConsume =>
    obtain ⟨hw, rfl⟩ := execPassConsume_next.1 e
    exact hI.passConsumes hw
  case passClrR =>
    obtain ⟨hw, -, rfl⟩ := execPassClrR_next.1 e
    exact hI.passGoesOn hw (by decide) (absurd · (by decide)) hI.memWf
  case passClrW =>
    obtain ⟨hw, -, rfl⟩ := execPassClrW_next.1 e
    exact hI.passGoesOn hw (by decide) (absurd · (by decide))
      (Memory.writeBytes_wf _ _ _ hI.memWf)
  all_goals exact absurd hs (by decide)

/-- The IFE's operations (43_irq_front_end.md R190 to R192). -/
theorem execIrq_invariant {i : Instr} {s t : State} (hI : Invariant s)
    (hs : Agent.sequences .ife i = true) (e : exec i s = .next t) : Invariant t := by
  cases i
  case irqAck =>
    obtain ⟨⟨hl, -, -⟩, rfl⟩ := execIrqAck_next.1 e
    exact { hI with
      ifeLegal := show iSched ∈ ifeStates by decide
      ackReady := fun _ => hl }
  case irqSched =>
    obtain ⟨hi, rfl⟩ := execIrqSched_next.1 e
    have hl : s.life = lifeReady := hI.ackReady (by rw [hi]; decide)
    exact { hI with
      ifeLegal := show iRearm ∈ ifeStates by decide
      ackReady := fun _ => hl
      pendingReady := fun _ => hl }
  case irqRearm =>
    obtain ⟨hi, rfl⟩ := execIrqRearm_next.1 e
    have hl : s.life = lifeReady := hI.ackReady (by rw [hi]; decide)
    exact { hI with
      ifeLegal := show iIdle ∈ ifeStates by decide
      ackReady := fun h => absurd rfl h
      maskReady := fun _ => maskSet_enables _ _
      maskQuiescing := fun h => absurd (hl.symm.trans h) (by decide) }
  all_goals exact absurd hs (by decide)

/-- HOSTCMD's operations (44_host_port_lifecycle.md R200 to R217). -/
theorem execHost_invariant {i : Instr} {s t : State} (hI : Invariant s)
    (hs : Agent.sequences .hostcmd i = true) (e : exec i s = .next t) : Invariant t := by
  have hcmds := hI.cmdsOk
  have hstore := fun a bs => Memory.writeBytes_wf bs s.mem a hI.memWf
  cases i
  case portRdH =>
    obtain ⟨-, hl, _, _, hc, -, rfl⟩ := execPortRdH_next.1 e
    rw [hc] at hcmds
    exact hI.hostInReady hl (by decide) (List.forall_mem_cons.1 hcmds).2
  case portRdT =>
    obtain ⟨hh, rfl⟩ := execPortRdT_next.1 e
    exact hI.hostInReady (hI.portReady hh) (by decide) hcmds
  case portWrite =>
    obtain ⟨-, -, _, _, hc, -, rfl⟩ := execPortWrite_next.1 e
    rw [hc] at hcmds
    exact hI.of_commands (List.forall_mem_cons.1 hcmds).2
  case initLatch =>
    obtain ⟨-, hl, _, _, _, hc, hb, rfl⟩ := execInitLatch_next.1 e
    rw [hc] at hcmds
    obtain ⟨hbuf, hrest⟩ := List.forall_mem_cons.1 hcmds
    exact hI.initBegins hl hb (of_decide_eq_true hbuf) hrest
  case initDescA =>
    obtain ⟨hh, _, -, -, rfl⟩ := execInitDescA_next.1 e
    exact hI.initDescGoesOn hh (by decide) (hI.initIndex (by rw [hh]; decide)) (hstore _ _)
  case initDescL =>
    obtain ⟨hh, -, rfl⟩ := execInitDescL_next.1 e
    exact hI.initDescGoesOn hh (by decide) (hI.initIndex (by rw [hh]; decide)) (hstore _ _)
  case initDescU =>
    obtain ⟨hh, -, rfl⟩ := execInitDescU_next.1 e
    split
    next hlt =>
      have hi := count_succ_toNat (c := s.initI) (by have := hI.ringSize_bounds; omega)
      exact hI.initDescGoesOn hh (by decide) (hi ▸ hlt) (hstore _ _)
    next => exact hI.initDescGoesOn hh (by decide) (hI.initIndex (by rw [hh]; decide)) (hstore _ _)
  case initBah =>
    obtain ⟨hh, rfl⟩ := execInitBah_next.1 e
    exact hI.initGoesOn (by rw [hh]; decide) (by decide) hI.memWf (absurd · (by decide))
      (fun _ => rfl) (absurd · (by decide)) (absurd · (by decide))
      (absurd · (by decide))
  case initBal =>
    obtain ⟨hh, rfl⟩ := execInitBal_next.1 e
    have hbah := hI.baseHighHeld (.inr (by rw [hh]; decide))
    exact hI.initGoesOn (by rw [hh]; decide) (by decide) hI.memWf (absurd · (by decide))
      (fun _ => hbah) (fun _ => rfl) (absurd · (by decide))
      (absurd · (by decide))
  case initLen =>
    obtain ⟨hh, rfl⟩ := execInitLen_next.1 e
    have hbah := hI.baseHighHeld (.inr (by rw [hh]; decide))
    have hbal := hI.baseLowHeld (.inr (by rw [hh]; decide))
    exact hI.initGoesOn (by rw [hh]; decide) (by decide) hI.memWf (absurd · (by decide))
      (fun _ => hbah) (fun _ => hbal) (fun _ => rfl)
      (absurd · (by decide))
  case initTail =>
    obtain ⟨hh, rfl⟩ := execInitTail_next.1 e
    have hbah := hI.baseHighHeld (.inr (by rw [hh]; decide))
    have hbal := hI.baseLowHeld (.inr (by rw [hh]; decide))
    have hlen := hI.lengthHeld (.inr (by rw [hh]; decide))
    have htail : (BitVec.ofNat 16 (s.cfg.ringSize - 1)).toNat < s.cfg.ringSize := by
      have := hI.ringSize_bounds
      rw [BitVec.toNat_ofNat]; omega
    exact hI.initGoesOn (by rw [hh]; decide) (by decide) hI.memWf (absurd · (by decide))
      (fun _ => hbah) (fun _ => hbal) (fun _ => hlen)
      (fun _ => by rw [indexOfWord_wordOfIndex]; exact inRange_iff.2 htail)
  case initArm =>
    obtain ⟨hh, rfl⟩ := execInitArm_next.1 e
    exact hI.initEnds hh
  case quiesceMask =>
    obtain ⟨-, hl, hi, _, hc, rfl⟩ := execQuiesceMask_next.1 e
    rw [hc] at hcmds
    exact hI.quiesceBegins hl hi (List.forall_mem_cons.1 hcmds).2
  case quiesceWait =>
    obtain ⟨⟨hh, hw⟩, rfl⟩ := execQuiesceWait_next.1 e
    exact hI.quiesceEnds hh hw
  all_goals exact absurd hs (by decide)

theorem exec_invariant {a : Agent} {i : Instr} {s t : State} (hI : Invariant s)
    (hs : a.sequences i = true) (e : exec i s = .next t) : Invariant t := by
  cases a
  · exact execPass_invariant hI hs e
  · exact execIrq_invariant hI hs e
  · exact execHost_invariant hI hs e

/-! ## The other moves -/

/-- Turning a command away takes it and answers (44_host_port_lifecycle.md R200). -/
theorem acceptStep_invariant {s t : State} (hI : Invariant s) (h : acceptStep s = some t) :
    Invariant t := by
  obtain ⟨-, -, c, rest, _, hc, rfl, -⟩ := acceptStep_cases h
  exact hI.of_commands fun c' hc' => hI.cmdsOk c' (by rw [hc]; exact List.mem_cons_of_mem c hc')

theorem presentCommand_invariant {s : State} (hI : Invariant s) (c : Command) :
    Invariant (presentCommand c s) := by
  unfold presentCommand
  split
  next hok =>
    refine hI.of_commands fun c' hc' => ?_
    rcases List.mem_append.1 hc' with h | h
    · exact hI.cmdsOk c' h
    · rwa [List.mem_singleton.1 h]
  next => exact hI

/-- What a move of the DEVICE is: none, or one that keeps memory canonical and touches, of the registers,
only head, `cause`, its reception and the upper half of RDT, with events that are the DEVICE's own
(60_exceptions.md R238 to R241). -/
theorem deviceMove_cases (m : DevMove) (s : State) :
    deviceMove m s = s ∨ ∃ mem rdh rdt cause f l,
      deviceMove m s = { s with
        mem := mem, dev := { s.dev with rdh := rdh, rdt := rdt, cause := cause, fill := f },
        trace := l ++ s.trace } ∧
      (s.mem.wf = true → mem.wf = true) ∧ indexOfWord rdt = s.dev.tail ∧
      ∀ e ∈ l, e.isTransaction = false := by
  unfold deviceMove
  split
  next =>
    cases m with
    | fill r =>
      dsimp only
      split
      · exact .inr ⟨_, _, _, _, _, [_], rfl, Memory.writeBytes_wf _ _ _, rfl,
          by simp [Event.isTransaction]⟩
      · exact .inl rfl
    | fillNext =>
      dsimp only
      split
      next => exact .inl rfl
      next f _ =>
        split
        · split
          · exact .inr ⟨_, _, _, _, _, [_, _], rfl,
              fun h => Memory.writeBytes_wf _ _ _ (Memory.writeBytes_wf _ _ _ h), rfl,
              by simp [Event.isTransaction]⟩
          · exact .inr ⟨_, _, _, _, _, [_], rfl, Memory.writeBytes_wf _ _ _, rfl,
              by simp [Event.isTransaction]⟩
          · exact .inr ⟨_, _, _, _, _, [_], rfl, id, rfl, by simp [Event.isTransaction]⟩
        · exact .inl rfl
    | raise bits => exact .inr ⟨_, _, _, _, _, [_], rfl, id, rfl, by simp [Event.isTransaction]⟩
    | upper rdh rdt =>
      exact .inr ⟨_, _, _, _, _, [], rfl, id, indexOfWord_append _ _, by simp⟩
  next => exact .inl rfl

theorem deviceMove_invariant {s : State} (hI : Invariant s) (m : DevMove) :
    Invariant (deviceMove m s) := by
  obtain h | ⟨_, _, _, _, _, _, h, hmem, hrdt, -⟩ := deviceMove_cases m s
  · rwa [h]
  · rw [h]; exact hI.of_device (hmem hI.memWf) hrdt

/-- Settles O46: the operation of an agent, the turning away of a command, a computation, a command that
comes and a move of the DEVICE each keep the invariant. -/
theorem everyStepKeepsTheInvariant : Obligations.EveryStepKeepsTheInvariant := by
  intro s t hI e
  obtain ⟨l, h⟩ := step_cases e
  have hl : Invariant { s with sched := l } := hI.of_unread
  obtain rfl | ⟨a, i, -, hop, he⟩ | ⟨-, h⟩ | ⟨_, -, h⟩ | ⟨c, -, rfl⟩ | ⟨m, -, rfl⟩ := h
  · exact hl
  · exact exec_invariant hl (agentOperation_some hop).2.1 he
  · exact acceptStep_invariant hl h
  · rw [h]; exact hI.of_unread
  · exact presentCommand_invariant hl c
  · exact deviceMove_invariant hl m

/-! ## Enabling, and what a step is -/

/-- Every operation's meaning is one under its enabling condition (log 8). -/
theorem exec_eq_whenEnabled (i : Instr) (s : State) : ∃ effect, exec i s = whenEnabled i s effect := by
  cases i <;> exact ⟨_, rfl⟩

/-- Settles O5: the meaning stands under the enabling condition, which faults by name. -/
theorem disabledOperationFaults : Obligations.DisabledOperationFaults := by
  intro i s h
  obtain ⟨effect, he⟩ := exec_eq_whenEnabled i s
  rw [he, whenEnabled_of_not_enabled h]

/-- Settles O6: what an agent sequences and is enabled for is its operation, whatever is left of the
schedule. -/
theorem stepRunsTheSequencedOperation : Obligations.StepRunsTheSequencedOperation := by
  intro s a rest code i hsched hl _ _ hs he
  rw [enabled_of_sequences hs] at he
  have hop : agentOperation a { s with sched := rest } = some i :=
    agentOperation_eq_some.2 ⟨hl, hs, he⟩
  simp only [step, hsched, agentStep, hop]

/-! ## Reset -/

/-- `IRQ_ENABLE_MASK` has a bit, whichever the OPEN one is (00_scope.md R7; log 5). -/
theorem openEnableMask_ne_zero : Config.openEnableMask ≠ 0#32 := by
  intro h
  have hbit := congrArg (BitVec.getLsbD · Config.openEnableBit.val) h
  simp [Config.openEnableMask] at hbit

/-- Every bit of `IRQ_ENABLE_MASK` is one of `IRQ_DISABLE_MASK` (00_scope.md R7; log 5). -/
theorem openEnableMask_sub_disable : Config.openEnableMask &&& ~~~Config.openDisableMask = 0#32 := by
  ext j hj
  simp +contextual [Config.openDisableMask]

theorem standard_ok : Config.standard.Ok := by
  refine ⟨by decide, by decide, by decide, by decide, ?_, ?_, ?_, ?_, ?_, ?_, ?_, ?_, ?_, ?_, ?_,
    openEnableMask_ne_zero, openEnableMask_sub_disable⟩
  all_goals exact ⟨by decide, by simp only [Config.standard]; omega⟩

/-- Settles O45: the parameters are within R7, and each part about a sequencer at work asks nothing of idle
ones. -/
theorem resetMeetsTheInvariant : Obligations.ResetMeetsTheInvariant := by
  have hinRange : inRange Config.standard.ringSize 0#16 = true := by decide
  refine ⟨?_, ⟨hinRange, nofun⟩, fun _ => hinRange⟩
  exact {
    cfgOk := standard_ok
    memWf := State.reset_mem_wf
    lifeLegal := by decide
    walkerLegal := by decide
    ifeLegal := by decide
    hostLegal := by decide
    passAttached := fun h => absurd rfl h
    ackReady := fun h => absurd rfl h
    pendingReady := nofun
    portReady := by decide
    initUnattached := by decide
    quiesceWaits := by decide
    baseGood := by decide
    initIndex := by decide
    initBufs := by decide
    cmdsOk := nofun
    baseHighHeld := fun _ => by decide
    baseLowHeld := fun _ => by decide
    lengthHeld := by decide
    tailInRange := fun _ => hinRange
    maskReady := by decide
    maskQuiescing := by decide
    tailHeld := by decide
    prevHeadInRange := by decide
    passFresh := by decide
    passBound := by decide
    advanceLeft := by decide
    iterBound := Nat.zero_le _
    consumedBound := Nat.zero_le _
    consumedIter := by decide
    consumedBefore := by decide }

/-! ## Who writes what -/

/-- What operation `i` may change of the DEVICE's registers and of memory, going from `s` to `t`: head, the
reception and the parameters never, anything else only where the operation is one of its writers
(20_memory.md R70). -/
structure WritesOnly (i : Instr) (s t : State) : Prop where
  cfg : t.cfg = s.cfg
  sched : t.sched = s.sched
  rdh : t.dev.rdh = s.dev.rdh
  fill : t.dev.fill = s.dev.fill
  rdt : t.dev.rdt = s.dev.rdt ∨ i ∈ [.rdtW, .advanceTail, .passAdv, .initTail]
  cause : t.dev.cause = s.dev.cause ∨ i ∈ [.icrR, .irqAck]
  mask : t.dev.mask = s.dev.mask ∨ i ∈ [.imsW, .imcW, .irqRearm, .initArm, .quiesceMask]
  rdbal : t.dev.rdbal = s.dev.rdbal ∨ i ∈ [.rdbalW, .initBal]
  rdbah : t.dev.rdbah = s.dev.rdbah ∨ i ∈ [.rdbahW, .initBah]
  rdlen : t.dev.rdlen = s.dev.rdlen ∨ i ∈ [.rdlenW, .initLen]
  mem : t.mem = s.mem ∨ i ∈ [.markFree, .passClrW, .initDescA, .initDescL, .initDescU]

theorem WritesOnly.refl (i : Instr) (s : State) : WritesOnly i s s :=
  ⟨rfl, rfl, rfl, rfl, .inl rfl, .inl rfl, .inl rfl, .inl rfl, .inl rfl, .inl rfl, .inl rfl⟩

/-- INSPECT reads memory, whichever part it performs (41_ring_primitives.md R144). -/
theorem execInspect_writesOnly {s t : State} (e : execInspect s = .next t) : WritesOnly .inspect s t := by
  have same := WritesOnly.refl .inspect s
  obtain ⟨-, e⟩ := execInspect_next.1 e
  split at e
  · obtain ⟨-, rfl⟩ := e; exact { same with }
  · split at e <;> (obtain ⟨-, rfl⟩ := e; exact { same with })

/-- Every operation writes only what 20_memory.md R70 lets it write. -/
theorem exec_writesOnly {i : Instr} {s t : State} (e : exec i s = .next t) : WritesOnly i s t := by
  have same := WritesOnly.refl i s
  cases i
  -- the call port or latches, and reads
  case nextIdx | prevIdx | descAddr | pendcnt | isdone => rw [exec_isPure rfl e]; exact { same with }
  case inspect => exact execInspect_writesOnly e
  case rdhR | rdtR | passStart | passSnapH | passConsume | irqSched | portRdT | quiesceWait =>
    simp only [exec, execRdhR_next, execRdtR_next, execPassStart_next, execPassSnapH_next,
      execPassConsume_next, execIrqSched_next, execPortRdT_next, execQuiesceWait_next] at e
    obtain ⟨-, rfl⟩ := e; exact { same with }
  case passInspU | passInspL | passInspA | passClrR =>
    simp only [exec, execPassInspU_next, execPassInspL_next, execPassInspA_next, execPassClrR_next] at e
    obtain ⟨-, -, rfl⟩ := e; exact { same with }
  case passSnapT | passRrH | passRrT =>
    simp only [exec, execPassSnapT_next, execPassRrH_next, execPassRrT_next] at e
    obtain ⟨-, rfl⟩ := e
    split <;> exact { same with }
  case passTest =>
    obtain ⟨-, rfl⟩ := execPassTest_next.1 e
    split
    · exact { same with }
    · split <;> exact { same with }
  case portRdH => obtain ⟨-, -, _, _, -, -, rfl⟩ := execPortRdH_next.1 e; exact { same with }
  case portWrite => obtain ⟨-, -, _, _, -, -, rfl⟩ := execPortWrite_next.1 e; exact { same with }
  case initLatch => obtain ⟨-, -, _, _, _, -, -, rfl⟩ := execInitLatch_next.1 e; exact { same with }
  -- one register of the DEVICE
  case rdtW | advanceTail | passAdv | initTail =>
    simp only [exec, execRdtW_next, execAdvanceTail_next, execPassAdv_next, execInitTail_next] at e
    obtain ⟨-, rfl⟩ := e; exact { same with rdt := .inr (by decide) }
  case icrR | irqAck =>
    simp only [exec, execIcrR_next, execIrqAck_next] at e
    obtain ⟨-, rfl⟩ := e; exact { same with cause := .inr (by decide) }
  case imsW | imcW | irqRearm | initArm =>
    simp only [exec, execImsW_next, execImcW_next, execIrqRearm_next, execInitArm_next] at e
    obtain ⟨-, rfl⟩ := e; exact { same with mask := .inr (by decide) }
  case quiesceMask =>
    obtain ⟨-, -, -, _, -, rfl⟩ := execQuiesceMask_next.1 e
    exact { same with mask := .inr (by decide) }
  case rdbalW | initBal =>
    simp only [exec, execRdbalW_next, execInitBal_next] at e
    obtain ⟨-, rfl⟩ := e; exact { same with rdbal := .inr (by decide) }
  case rdbahW | initBah =>
    simp only [exec, execRdbahW_next, execInitBah_next] at e
    obtain ⟨-, rfl⟩ := e; exact { same with rdbah := .inr (by decide) }
  case rdlenW | initLen =>
    simp only [exec, execRdlenW_next, execInitLen_next] at e
    obtain ⟨-, rfl⟩ := e; exact { same with rdlen := .inr (by decide) }
  -- memory
  case passClrW | initDescL =>
    simp only [exec, execPassClrW_next, execInitDescL_next] at e
    obtain ⟨-, -, rfl⟩ := e; exact { same with mem := .inr (by decide) }
  case initDescA =>
    obtain ⟨-, _, -, -, rfl⟩ := execInitDescA_next.1 e; exact { same with mem := .inr (by decide) }
  case initDescU =>
    obtain ⟨-, -, rfl⟩ := execInitDescU_next.1 e
    split <;> exact { same with mem := .inr (by decide) }
  case markFree =>
    obtain ⟨-, -, rfl⟩ := execMarkFree_next.1 e
    split <;> exact { same with mem := .inr (by decide) }

/-- Settles O42: a register that differs is one the operation writes. -/
theorem registerWritersAreThese : Obligations.RegisterWritersAreThese := by
  intro i s t e
  have w := exec_writesOnly e
  exact ⟨w.cfg, w.sched, w.rdh, w.fill, w.rdt.resolve_left, w.cause.resolve_left, w.mask.resolve_left,
    w.rdbal.resolve_left, w.rdbah.resolve_left, w.rdlen.resolve_left, w.mem.resolve_left⟩

/-- The WALKER's operations touch its own latches, the failure record, `pending` in PASS.START alone, the
DEVICE, memory and the history (10_state.md R36). -/
theorem execPass_frame {i : Instr} {s t : State} (hs : Agent.sequences .walker i = true)
    (e : exec i s = .next t) :
    t = { s with
      headS := t.headS, tailC := t.tailC, prevHead := t.prevHead, headLive := t.headLive, iter := t.iter,
      passConsumed := t.passConsumed, view := t.view, clrTmp := t.clrTmp, wstate := t.wstate,
      pending := t.pending, errSeen := t.errSeen, errCode := t.errCode, dev := t.dev, mem := t.mem,
      trace := t.trace } ∧
    (t.pending = s.pending ∨ i = .passStart ∧ t.pending = false) := by
  cases i
  case passStart => obtain ⟨-, rfl⟩ := execPassStart_next.1 e; exact ⟨rfl, .inr ⟨rfl, rfl⟩⟩
  case passSnapH | passAdv | passConsume =>
    simp only [exec, execPassSnapH_next, execPassAdv_next, execPassConsume_next] at e
    obtain ⟨-, rfl⟩ := e; exact ⟨rfl, .inl rfl⟩
  case passSnapT | passRrH | passRrT =>
    simp only [exec, execPassSnapT_next, execPassRrH_next, execPassRrT_next] at e
    obtain ⟨-, rfl⟩ := e
    split <;> exact ⟨rfl, .inl rfl⟩
  case passTest =>
    obtain ⟨-, rfl⟩ := execPassTest_next.1 e
    split
    · exact ⟨rfl, .inl rfl⟩
    · split <;> exact ⟨rfl, .inl rfl⟩
  case passInspU | passInspL | passInspA | passClrR | passClrW =>
    simp only [exec, execPassInspU_next, execPassInspL_next, execPassInspA_next, execPassClrR_next,
      execPassClrW_next] at e
    obtain ⟨-, -, rfl⟩ := e; exact ⟨rfl, .inl rfl⟩
  all_goals exact absurd hs (by decide)

/-- The IFE's operations touch its own latches, `pending` in IRQ.SCHED alone, the DEVICE and the history
(10_state.md R36, R33). -/
theorem execIrq_frame {i : Instr} {s t : State} (hs : Agent.sequences .ife i = true)
    (e : exec i s = .next t) :
    t = { s with
      istate := t.istate, icrLatch := t.icrLatch, pending := t.pending, dev := t.dev, trace := t.trace } ∧
    (t.pending = s.pending ∨ i = .irqSched ∧ t.pending = true) := by
  cases i
  case irqAck => obtain ⟨-, rfl⟩ := execIrqAck_next.1 e; exact ⟨rfl, .inl rfl⟩
  case irqSched => obtain ⟨-, rfl⟩ := execIrqSched_next.1 e; exact ⟨rfl, .inr ⟨rfl, rfl⟩⟩
  case irqRearm => obtain ⟨-, rfl⟩ := execIrqRearm_next.1 e; exact ⟨rfl, .inl rfl⟩
  all_goals exact absurd hs (by decide)

/-- HOSTCMD's operations touch its own latches, the lifecycle state, `ring_base` in INIT.LATCH and `pending`
in QUIESCE.MASK alone, the DEVICE, memory, the waiting commands and the history (10_state.md R36). -/
theorem execHost_frame {i : Instr} {s t : State} (hs : Agent.sequences .hostcmd i = true)
    (e : exec i s = .next t) :
    t = { s with
      ringBase := t.ringBase, portH := t.portH, initI := t.initI, initBase := t.initBase,
      initBuf := t.initBuf, hstate := t.hstate, pending := t.pending, life := t.life, dev := t.dev,
      mem := t.mem, trace := t.trace, cmds := t.cmds } ∧
    (t.ringBase = s.ringBase ∨ i = .initLatch) ∧
    (t.pending = s.pending ∨ i = .quiesceMask ∧ t.pending = false) := by
  cases i
  case portRdH =>
    obtain ⟨-, -, _, _, -, -, rfl⟩ := execPortRdH_next.1 e; exact ⟨rfl, .inl rfl, .inl rfl⟩
  case portWrite =>
    obtain ⟨-, -, _, _, -, -, rfl⟩ := execPortWrite_next.1 e; exact ⟨rfl, .inl rfl, .inl rfl⟩
  case initLatch =>
    obtain ⟨-, -, _, _, _, -, -, rfl⟩ := execInitLatch_next.1 e; exact ⟨rfl, .inr rfl, .inl rfl⟩
  case initDescA =>
    obtain ⟨-, _, -, -, rfl⟩ := execInitDescA_next.1 e; exact ⟨rfl, .inl rfl, .inl rfl⟩
  case initDescL => obtain ⟨-, -, rfl⟩ := execInitDescL_next.1 e; exact ⟨rfl, .inl rfl, .inl rfl⟩
  case initDescU =>
    obtain ⟨-, -, rfl⟩ := execInitDescU_next.1 e
    split <;> exact ⟨rfl, .inl rfl, .inl rfl⟩
  case portRdT | initBah | initBal | initLen | initTail | initArm | quiesceWait =>
    simp only [exec, execPortRdT_next, execInitBah_next, execInitBal_next, execInitLen_next,
      execInitTail_next, execInitArm_next, execQuiesceWait_next] at e
    obtain ⟨-, rfl⟩ := e; exact ⟨rfl, .inl rfl, .inl rfl⟩
  case quiesceMask =>
    obtain ⟨-, -, -, _, -, rfl⟩ := execQuiesceMask_next.1 e
    exact ⟨rfl, .inl rfl, .inr ⟨rfl, rfl⟩⟩
  all_goals exact absurd hs (by decide)

/-- Turning a command away takes it and answers with one event that is no transaction, and changes nothing
else (44_host_port_lifecycle.md R200). -/
theorem acceptStep_frame {s t : State} (h : acceptStep s = some t) :
    ∃ e, t = { s with cmds := s.cmds.tail, trace := e :: s.trace } ∧ e.isTransaction = false := by
  obtain ⟨-, -, _, _, e, hc, rfl, he⟩ := acceptStep_cases h
  refine ⟨e, by rw [hc, List.tail_cons], ?_⟩
  rcases he with ⟨_, rfl⟩ | rfl <;> rfl

/-- Settles O43: each agent's frame, and what turning a command away leaves. -/
theorem eachAgentWritesItsOwnState : Obligations.EachAgentWritesItsOwnState := by
  refine ⟨fun i s t e => ⟨fun hs => ?_, fun hs => execIrq_frame hs e, fun hs => ?_⟩,
    fun s t h => acceptStep_frame h⟩
  · obtain ⟨h, hpending⟩ := execPass_frame hs e
    rw [h]
    exact ⟨rfl, rfl, rfl, rfl, rfl, rfl, rfl, rfl, rfl, rfl, hpending⟩
  · obtain ⟨h, hbase, hpending⟩ := execHost_frame hs e
    rw [h]
    exact ⟨⟨rfl, rfl, rfl, rfl, rfl, rfl, rfl, rfl, rfl⟩, rfl, rfl, rfl, rfl, hbase, hpending⟩

/-! ## At rest: UNATTACHED and not in INIT -/

/-- A pass begins in READY; its other steps are those of a WALKER that is not idle (10_state.md R30). -/
theorem stepEnabled_walker {i : Instr} {s : State} (hs : Agent.sequences .walker i = true)
    (he : stepEnabled i s = true) : s.life = lifeReady ∨ s.wstate ≠ wIdle := by
  cases i
  case passStart =>
    simp only [stepEnabled, Bool.and_eq_true, beq_iff_eq] at he
    exact .inl he.1.1
  case passSnapH | passSnapT | passTest | passAdv | passRrH | passRrT | passInspU | passInspL | passInspA |
      passConsume | passClrR | passClrW =>
    exact .inr (by rw [eq_of_beq he]; decide)
  all_goals exact absurd hs (by decide)

/-- An acknowledge begins in READY; the IFE's other steps are those of one that is not idle (10_state.md
R31). -/
theorem stepEnabled_ife {i : Instr} {s : State} (hs : Agent.sequences .ife i = true)
    (he : stepEnabled i s = true) : s.life = lifeReady ∨ s.istate ≠ iIdle := by
  cases i
  case irqAck =>
    simp only [stepEnabled, Bool.and_eq_true, beq_iff_eq] at he
    exact .inl he.1.1
  case irqSched | irqRearm => exact .inr (by rw [eq_of_beq he]; decide)
  all_goals exact absurd hs (by decide)

/-- A port command or a quiesce begins in READY, INIT with a command that waits; HOSTCMD's other steps are
those of one that is not idle (10_state.md R32, 44_host_port_lifecycle.md R200). -/
theorem stepEnabled_hostcmd {i : Instr} {s : State} (hs : Agent.sequences .hostcmd i = true)
    (he : stepEnabled i s = true) :
    s.life = lifeReady ∨ s.hstate ≠ hIdle ∨ i = .initLatch ∧ s.cmds ≠ [] := by
  cases i
  case portRdH =>
    exact .inl (portReadAccepted_iff.1 (Bool.and_eq_true_iff.1 he).2).1
  case portWrite =>
    exact .inl (portWriteAccepted_iff.1 (Bool.and_eq_true_iff.1 he).2).1
  case quiesceMask =>
    exact .inl (quiesceAccepted_iff.1 (Bool.and_eq_true_iff.1 he).2).1
  case initLatch =>
    obtain ⟨-, _, _, _, hc, -⟩ := initAccepted_iff.1 (Bool.and_eq_true_iff.1 he).2
    exact .inr (.inr ⟨rfl, by rw [hc]; exact List.cons_ne_nil _ _⟩)
  case quiesceWait => exact .inr (.inl (by rw [eq_of_beq (Bool.and_eq_true_iff.1 he).1]; decide))
  case portRdT | initDescA | initDescL | initDescU | initBah | initBal | initLen | initTail | initArm =>
    exact .inr (.inl (by rw [eq_of_beq he]; decide))
  all_goals exact absurd hs (by decide)

section AtRest
variable {s : State}

/-- At rest HOSTCMD is idle: the second half of a port read is in READY, the barrier in QUIESCING. -/
theorem Invariant.host_idle_atRest (hI : Invariant s) (hl : s.life = lifeUnattached)
    (hh : s.hstate ∉ initStates) : s.hstate = hIdle := by
  have hport : s.hstate ≠ hPortT := fun h => absurd (hl.symm.trans (hI.portReady h)) (by decide)
  have hwait : s.hstate ≠ hQwait := fun h =>
    absurd (hl.symm.trans (hI.quiesceWaits.1 h)) (by decide)
  have hsplit : ∀ h ∈ hostStates, h ∉ initStates → h ≠ hPortT → h ≠ hQwait → h = hIdle := by decide
  exact hsplit _ hI.hostLegal hh hport hwait

/-- At rest the one operation anyone can have is HOSTCMD's INIT.LATCH, of a command that waits
(70_reset_and_hazards.md R271). -/
theorem Invariant.agentOperation_atRest (hI : Invariant s) (hl : s.life = lifeUnattached)
    (hh : s.hstate ∉ initStates) {a : Agent} {i : Instr} (hop : agentOperation a s = some i) :
    a = .hostcmd ∧ i = .initLatch ∧ s.cmds ≠ [] := by
  obtain ⟨-, hs, he⟩ := agentOperation_eq_some.1 hop
  have hready : s.life ≠ lifeReady := by rw [hl]; decide
  cases a with
  | walker => exact absurd (hI.walker_idle hl) ((stepEnabled_walker hs he).resolve_left hready)
  | ife => exact absurd (hI.ife_idle hready) ((stepEnabled_ife hs he).resolve_left hready)
  | hostcmd =>
    exact ⟨rfl, ((stepEnabled_hostcmd hs he).resolve_left hready).resolve_left
      (not_not_intro (hI.host_idle_atRest hl hh))⟩

/-- INIT.LATCH performs no transaction (44_host_port_lifecycle.md R207). -/
theorem usedBy_initLatch (op : Instr) (s : State) : usedBy op .initLatch s = false := by
  cases op <;> rfl

/-- A transaction is enabled exactly where someone's next step performs it (log 10). -/
theorem enabled_innerOperation {op : Instr} (h : op ∈ innerOperations) :
    enabled op s = performedInStep op s := by
  revert op; simp [innerOperations, enabled]

/-- At rest no transaction is performed inside anyone's next step (20_memory.md R69). -/
theorem Invariant.performedInStep_atRest (hI : Invariant s) (hl : s.life = lifeUnattached)
    (hh : s.hstate ∉ initStates) (op : Instr) : performedInStep op s = false := by
  unfold performedInStep
  split
  next => rfl
  next p hop =>
    obtain ⟨-, rfl, -⟩ := hI.agentOperation_atRest hl hh hop
    exact usedBy_initLatch op s

/-- At rest no step issues a transaction (20_memory.md R69). -/
theorem Invariant.step_atRest (hI : Invariant s) (hl : s.life = lifeUnattached)
    (hh : s.hstate ∉ initStates) {t : State} (e : step s = .next t) :
    ∃ l, t.trace = l ++ s.trace ∧ ∀ e ∈ l, e.isTransaction = false := by
  obtain ⟨rest, h⟩ := step_cases e
  have hrest : Invariant { s with sched := rest } := hI.of_unread
  obtain rfl | ⟨a, i, -, hop, he⟩ | ⟨-, h⟩ | ⟨_, -, h⟩ | ⟨c, -, rfl⟩ | ⟨m, -, rfl⟩ := h
  · exact ⟨[], rfl, nofun⟩
  · obtain ⟨-, rfl, -⟩ := hrest.agentOperation_atRest hl hh hop
    obtain ⟨-, -, _, _, _, -, -, rfl⟩ := execInitLatch_next.1 he
    exact ⟨[], rfl, nofun⟩
  · obtain ⟨ev, rfl, hev⟩ := acceptStep_frame h
    exact ⟨[ev], rfl, List.forall_mem_singleton.2 hev⟩
  · rw [h]; exact ⟨[], rfl, nofun⟩
  · exact ⟨[], presentCommand_trace c _, nofun⟩
  · obtain h | ⟨_, _, _, _, _, l, h, -, -, hev⟩ := deviceMove_cases m { s with sched := rest }
    · rw [h]; exact ⟨[], rfl, nofun⟩
    · rw [h]; exact ⟨l, rfl, hev⟩

end AtRest

/-- Settles O60: INIT.LATCH, of a command that waits, is all anyone can do at rest, and it issues nothing. -/
theorem atRestNothingIsIssued : Obligations.AtRestNothingIsIssued := by
  intro s hI hl hh
  have hnone (a : Agent) (h : a = .hostcmd → s.cmds = []) : agentOperation a s = none := by
    refine Option.eq_none_iff_forall_ne_some.2 fun i hop => ?_
    obtain ⟨ha, -, hc⟩ := hI.agentOperation_atRest hl hh hop
    exact hc (h ha)
  refine ⟨hnone .walker nofun, hnone .ife nofun, fun hc => ⟨hnone .hostcmd fun _ => hc, ?_⟩,
    fun op hop => ?_, ?_, fun t e => hI.step_atRest hl hh e⟩
  · refine Option.eq_none_iff_forall_ne_some.2 fun t h => ?_
    obtain ⟨-, -, _, _, hcons, -⟩ := acceptStep_eq_some.1 h
    rw [hc] at hcons; cases hcons
  · rw [enabled_innerOperation hop]; exact hI.performedInStep_atRest hl hh op
  · simp only [enabled, ringBaseWritten, Bool.or_eq_false_iff, bne_eq_false_iff_eq, List.contains_eq_mem,
      decide_eq_false_iff_not]
    exact ⟨hl, hh⟩

/-! ## The ownership windows -/

section Windows
variable {n : Nat} {h t i : Half}

/-- The hardware window as intervals of indices: `[h, t)`, or, past the top of the ring, `[h, n)` and
`[0, t)` (10_state.md R46). -/
theorem inHardwareWindow_iff (hh : h.toNat < n) (ht : t.toNat < n) (hi : i.toNat < n) :
    inHardwareWindow n h t i = true ↔
      if h.toNat ≤ t.toNat then h.toNat ≤ i.toNat ∧ i.toNat < t.toNat
      else h.toNat ≤ i.toNat ∨ i.toNat < t.toNat := by
  rw [inHardwareWindow, decide_eq_true_iff, ringDistance_eq hh hi, ringDistance_eq hh ht]
  split <;> split <;> omega

/-- Every index is in exactly one of the windows (10_state.md R46). -/
theorem inHardwareWindow_eq_not (hh : h.toNat < n) (ht : t.toNat < n) (hi : i.toNat < n) :
    inHardwareWindow n h t i = !inSoftwareWindow n h t i := by
  by_cases hth : t = h
  · subst hth
    simp [inSoftwareWindow, inHardwareWindow, (ringDistance_eq_zero ht ht).2 rfl]
  · have hne : t.toNat ≠ h.toNat := fun e => hth (BitVec.eq_of_toNat_eq e)
    rw [Bool.eq_iff_iff, inHardwareWindow_iff hh ht hi, inSoftwareWindow, if_neg hth, Bool.not_eq_true',
      decide_eq_false_iff_not, ringDistance_eq ht hi, ringDistance_eq ht hh]
    split <;> split <;> split <;> omega

theorem head_inHardwareWindow_iff (hh : h.toNat < n) (ht : t.toNat < n) :
    inHardwareWindow n h t h = true ↔ h ≠ t := by
  rw [inHardwareWindow, decide_eq_true_iff, (ringDistance_eq_zero hh hh).2 rfl, Nat.pos_iff_ne_zero,
    ne_eq, ringDistance_eq_zero hh ht]

theorem ofNat_toNat_of_lt (hn : n ≤ 65536) {j : Nat} (hj : j < n) : (BitVec.ofNat 16 j).toNat = j := by
  rw [BitVec.toNat_ofNat]; omega

/-- The hardware window has `(t - h) mod N` members. -/
theorem length_hardwareWindow (hn : n ≤ 65536) (hh : h.toNat < n) (ht : t.toNat < n) :
    ((List.range n).filter fun j => inHardwareWindow n h t (BitVec.ofNat 16 j)).length =
      ringDistance n h t := by
  have hmem (j : Nat) (hj : j < n) := inHardwareWindow_iff (i := BitVec.ofNat 16 j) hh ht
    ((ofNat_toNat_of_lt hn hj).trans_lt hj)
  rw [ringDistance_eq hh ht, ← List.toFinset_card_of_nodup (List.nodup_range.filter _)]
  split
  next hle =>
    rw [← Nat.card_Ico]
    congr 1
    ext j
    by_cases hj : j < n
    · simp [hmem j hj, ofNat_toNat_of_lt hn hj, hj, hle]
    · simp [hj]; omega
  next hgt =>
    have hcard : (Finset.range n \ Finset.Ico t.toNat h.toNat).card = t.toNat + n - h.toNat := by
      rw [Finset.card_sdiff_of_subset, Finset.card_range, Nat.card_Ico]
      · omega
      · intro j; simp; omega
    rw [← hcard]
    congr 1
    ext j
    by_cases hj : j < n
    · simp [hmem j hj, ofNat_toNat_of_lt hn hj, hj, hgt]; omega
    · simp [hj]

/-- The software window has the rest. -/
theorem length_softwareWindow (hn : n ≤ 65536) (hh : h.toNat < n) (ht : t.toNat < n) :
    ((List.range n).filter fun j => inSoftwareWindow n h t (BitVec.ofNat 16 j)).length =
      n - ringDistance n h t := by
  have hsplit := List.length_eq_length_filter_add (l := List.range n)
    fun j => inHardwareWindow n h t (BitVec.ofNat 16 j)
  have hnot : ((List.range n).filter fun j => !inHardwareWindow n h t (BitVec.ofNat 16 j)) =
      (List.range n).filter fun j => inSoftwareWindow n h t (BitVec.ofNat 16 j) := by
    refine List.filter_congr fun j hj => ?_
    have hj := List.mem_range.1 hj
    rw [inHardwareWindow_eq_not hh ht ((ofNat_toNat_of_lt hn hj).trans_lt hj), Bool.not_not]
  rw [hnot, List.length_range, length_hardwareWindow hn hh ht] at hsplit
  omega

theorem iterate_nextIndex_toNat (hn : 0 < n) (hn' : n ≤ 65536) (ht : t.toNat < n) (k : Nat) :
    ((nextIndex n)^[k] t).toNat = (t.toNat + k) % n := by
  induction k with
  | zero => exact (Nat.mod_eq_of_lt ht).symm
  | succ k ih =>
    rw [Function.iterate_succ_apply', nextIndex_toNat hn hn', ih, Nat.mod_add_mod, Nat.add_assoc]

/-- `k` steps up from an index lie `k` away from it, short of a whole round. -/
theorem ringDistance_iterate_nextIndex (hn' : n ≤ 65536) (ht : t.toNat < n) {k : Nat} (hk : k < n) :
    ringDistance n t ((nextIndex n)^[k] t) = k := by
  have hup := iterate_nextIndex_toNat (by omega) hn' ht k
  rw [ringDistance_eq ht (hup ▸ Nat.mod_lt _ (by omega)), hup]
  by_cases htk : t.toNat + k < n
  · rw [Nat.mod_eq_of_lt htk]; split <;> omega
  · rw [Nat.mod_eq_sub_mod (by omega), Nat.mod_eq_of_lt (by omega)]; split <;> omega

/-- The head's predecessor is one step short of the head. -/
theorem ringDistance_prevIndex (hn' : n ≤ 65536) (hh : h.toNat < n) (ht : t.toNat < n) (hth : t ≠ h) :
    ringDistance n t (prevIndex n h) + 1 = ringDistance n t h := by
  have hne : t.toNat ≠ h.toNat := fun e => hth (BitVec.eq_of_toNat_eq e)
  rw [ringDistance_eq ht (prevIndex_lt (by omega) hn' hh), ringDistance_eq ht hh,
    prevIndex_toNat (by omega) hn']
  split <;> split <;> split <;> omega

/-- From the tail up to the head's predecessor all is software's: no more than PENDCNT steps up
(41_ring_primitives.md R143). -/
theorem pending_inSoftwareWindow (hn' : n ≤ 65536) (hh : h.toNat < n) (ht : t.toNat < n)
    {k : Nat} (hk : k ≤ (pendingCount n h t).toNat) :
    inSoftwareWindow n h t ((nextIndex n)^[k] t) = true := by
  rw [pendingCount_toNat (by omega) hn' hh ht] at hk
  by_cases hth : t = h
  · rw [inSoftwareWindow, if_pos hth]
  · have hprev := ringDistance_prevIndex hn' hh ht hth
    have hlt := ringDistance_lt (n := n) (by omega) t (prevIndex n h)
    rw [inSoftwareWindow, if_neg hth, decide_eq_true_iff, ringDistance_iterate_nextIndex hn' ht (by omega)]
    omega

end Windows

/-- Settles O18: the windows are complements, of `(t - h) mod N` members and the rest; the tail is the
first of the indices that PENDCNT counts up. -/
theorem windowsShareTheRing : Obligations.WindowsShareTheRing := by
  intro n h t i _ hn' hh ht hi
  exact ⟨inHardwareWindow_eq_not hh ht hi, head_inHardwareWindow_iff hh ht,
    length_hardwareWindow hn' hh ht, length_softwareWindow hn' hh ht,
    pending_inSoftwareWindow (k := 0) hn' hh ht (Nat.zero_le _),
    fun _ hk => pending_inSoftwareWindow hn' hh ht hk⟩

end Sys2Proof.Machine
end

section
/-! Proofs/Memory.lean: what one step is and does (20_memory.md): what each entry of the schedule makes of a
step; that every step of a state of the invariant completes; and who writes each register and memory. -/

namespace Sys2Proof.Machine

/-! ## The decoder (30_encoding.md R100 to R103) -/

/-- Every row of the operation map pairs an operation's own code with it. -/
theorem opRows_encode : ∀ row ∈ opRows, row.1 = encode row.2 := by decide

theorem mem_of_findRow {code : Byte} {i : Instr} :
    ∀ {rows : List (Byte × Instr)}, findRow rows code = some i → (code, i) ∈ rows
  | (k, j) :: rows, h => by
    rw [findRow] at h
    split at h
    next hk => cases h; exact hk ▸ List.mem_cons_self
    next => exact List.mem_cons_of_mem _ (mem_of_findRow h)

/-- The map has a row for every operation. -/
@[simp] theorem decode_encode (i : Instr) : decode (encode i) = .ok i := by cases i <;> rfl

/-- A code that is no operation's is reserved (R103). -/
theorem decode_of_reserved {code : Byte} (h : ∀ i, code ≠ encode i) :
    decode code = .error (.reserved code) := by
  have hnone : findRow opRows code = none :=
    Option.eq_none_iff_forall_ne_some.2 fun i hi => h i (opRows_encode _ (mem_of_findRow hi))
  rw [decode, hnone]

/-! ## What is left of the schedule decides nothing -/

theorem enabled_sched (i : Instr) (s : State) (l : List Move) :
    enabled i { s with sched := l } = enabled i s := rfl

theorem turnAway_sched (c : Command) (s : State) (l : List Move) :
    turnAway c { s with sched := l } = (turnAway c s).map fun t => { t with sched := l } := by
  cases c <;> simp only [turnAway] <;> split_ifs <;> rfl

theorem acceptStep_sched (s : State) (l : List Move) :
    acceptStep { s with sched := l } = (acceptStep s).map fun t => { t with sched := l } := by
  by_cases hidle : s.life = lifeUnused ∨ s.hstate ≠ hIdle
  · simp only [acceptStep, if_pos hidle]; rfl
  · simp only [acceptStep, if_neg hidle]
    cases s.cmds with
    | nil => rfl
    | cons c rest => exact turnAway_sched c { s with cmds := rest } l

/-! ## A step by the schedule's first entry (20_memory.md R69; logs 6, 9, 10, 12) -/

section FirstEntry
variable {s : State} {rest : List Move}

theorem step_of_empty (h : s.sched = []) : step s = .next s := by
  simp only [step, h]

theorem step_of_agent {a : Agent} (h : s.sched = .agent a :: rest) :
    step s = agentStep a { s with sched := rest } := by
  simp only [step, h]

theorem step_of_compute {code : Byte} (h : s.sched = .compute code :: rest) :
    step s = computeStep code { s with sched := rest } := by
  simp only [step, h]

theorem step_of_command {c : Command} (h : s.sched = .command c :: rest) :
    step s = .next (presentCommand c { s with sched := rest }) := by
  simp only [step, h]

theorem step_of_device {m : DevMove} (h : s.sched = .device m :: rest) :
    step s = .next (deviceMove m { s with sched := rest }) := by
  simp only [step, h]

end FirstEntry

theorem agentStep_of_some {a : Agent} {i : Instr} {s : State} (h : agentOperation a s = some i) :
    agentStep a s = exec i s := by
  simp only [agentStep, h]

/-- An agent without an operation stays as it is, but for HOSTCMD turning a command away. -/
theorem agentStep_of_none {a : Agent} {s : State} (h : agentOperation a s = none)
    (hacc : a = .hostcmd → acceptStep s = none) : agentStep a s = .next s := by
  cases a with
  | walker | ife => simp only [agentStep, h]
  | hostcmd => simp only [agentStep, h, hacc rfl, Option.getD_none]

theorem computeStep_encode (i : Instr) (s : State) :
    computeStep (encode i) s = if isPure i && enabled i s then exec i s else .next s := by
  rw [computeStep, decode_encode]

theorem computeStep_of_reserved {code : Byte} (h : ∀ i, code ≠ encode i) (s : State) :
    computeStep code s = .refused (.reservedCode code) := by
  rw [computeStep, decode_of_reserved h]

theorem presentCommand_of_ok {c : Command} {s : State} (h : c.ok s.cfg = true) :
    presentCommand c s = { s with cmds := s.cmds ++ [c] } :=
  if_pos h

theorem presentCommand_of_not_ok {c : Command} {s : State} (h : c.ok s.cfg = false) :
    presentCommand c s = s :=
  if_neg (Bool.eq_false_iff.1 h)

/-- Settles O7: what each entry of the schedule makes of a step; what is left of the schedule decides
nothing. -/
theorem stepTakesTheOtherMoves : Obligations.StepTakesTheOtherMoves := by
  refine ⟨fun s h => step_of_empty h, fun s a rest h hop hacc => ?_, fun s t rest => step_of_acceptStep,
    fun s i rest h hp he => ?_, fun s i rest h hnot => ?_, fun s code rest h hres => ?_,
    fun s c rest h hc => ?_, fun s c rest h hc => ?_, fun s m rest h => step_of_device h⟩
  · refine (step_of_agent h).trans (agentStep_of_none hop fun ha => ?_)
    rw [acceptStep_sched, hacc ha]; rfl
  · rw [step_of_compute h, computeStep_encode, enabled_sched, hp, he]; rfl
  · have hoff : (isPure i && enabled i s) = false := Bool.and_eq_false_iff.2 hnot
    rw [step_of_compute h, computeStep_encode, enabled_sched, hoff]; rfl
  · rw [step_of_compute h, computeStep_of_reserved hres]
  · exact (step_of_command h).trans (congrArg _ (presentCommand_of_ok hc))
  · exact (step_of_command h).trans (congrArg _ (presentCommand_of_not_ok hc))

/-! ## Every step completes (20_memory.md R80, 60_exceptions.md R230) -/

section Completes
variable {s : State}

/-- A field of the descriptor at the tail cursor is an access that completes (20_memory.md R63, R78). -/
theorem Invariant.accessRefusal_tailC (hI : Invariant s) (hw : s.wstate ∈ loopStates) (off : DWord)
    {n : Nat} (hn : n = 1 ∨ n = 4 ∨ n = 8) (ho : off.toNat % n = 0) (hon : off.toNat + n ≤ 16) :
    accessRefusal s (descAddress s.ringBase s.tailC + off) n = none :=
  accessRefusal_field off (hI.baseGood (.inl (hI.loop_attached hw))) (hI.tailC_lt hw) hn ho hon

/-- So is a field of the descriptor INIT is at. -/
theorem Invariant.accessRefusal_initI (hI : Invariant s) (hh : s.hstate ∈ descStates) (off : DWord)
    {n : Nat} (hn : n = 1 ∨ n = 4 ∨ n = 8) (ho : off.toNat % n = 0) (hon : off.toNat + n ≤ 16) :
    accessRefusal s (initDescAddress s + off) n = none := by
  have hi := hI.initIndex hh
  have hN := hI.ringSize_bounds
  rw [initDescAddress_eq (by omega)]
  refine accessRefusal_field off (hI.baseGood (.inr (descStates_sub_initStates _ hh))) ?_ hn ho hon
  rw [BitVec.toNat_setWidth]; omega

/-- The WALKER's operations complete. -/
theorem execPass_completes {i : Instr} (hI : Invariant s) (hs : Agent.sequences .walker i = true)
    (he : stepEnabled i s = true) : ∃ t, exec i s = .next t := by
  cases i
  case passStart =>
    simp only [stepEnabled, Bool.and_eq_true, beq_iff_eq, and_assoc] at he
    exact ⟨_, execPassStart_next.2 ⟨he, rfl⟩⟩
  case passSnapH | passSnapT | passTest | passAdv | passRrH | passRrT | passConsume =>
    simp only [exec, execPassSnapH_next, execPassSnapT_next, execPassTest_next, execPassAdv_next,
      execPassRrH_next, execPassRrT_next, execPassConsume_next]
    exact ⟨_, eq_of_beq he, rfl⟩
  case passInspU | passInspL | passClrR | passClrW =>
    simp only [exec, execPassInspU_next, execPassInspL_next, execPassClrR_next, execPassClrW_next]
    have hw := eq_of_beq he
    exact ⟨_, hw, hI.accessRefusal_tailC (by rw [hw]; decide) _ (by decide) (by decide) (by decide), rfl⟩
  case passInspA =>
    have hw : s.wstate = wInspA := eq_of_beq he
    have hacc := hI.accessRefusal_tailC (by rw [hw]; decide) 0#64 (n := 8) (by decide) (by decide)
      (by decide)
    rw [BitVec.add_zero] at hacc
    exact ⟨_, execPassInspA_next.2 ⟨hw, hacc, rfl⟩⟩
  all_goals exact absurd hs (by decide)

/-- The IFE's operations complete. -/
theorem execIrq_completes {i : Instr} (hs : Agent.sequences .ife i = true)
    (he : stepEnabled i s = true) : ∃ t, exec i s = .next t := by
  cases i
  case irqAck =>
    simp only [stepEnabled, Bool.and_eq_true, beq_iff_eq, and_assoc] at he
    exact ⟨_, execIrqAck_next.2 ⟨he, rfl⟩⟩
  case irqSched => exact ⟨_, execIrqSched_next.2 ⟨eq_of_beq he, rfl⟩⟩
  case irqRearm => exact ⟨_, execIrqRearm_next.2 ⟨eq_of_beq he, rfl⟩⟩
  all_goals exact absurd hs (by decide)

/-- HOSTCMD's operations complete. -/
theorem execHost_completes {i : Instr} (hI : Invariant s) (hs : Agent.sequences .hostcmd i = true)
    (he : stepEnabled i s = true) : ∃ t, exec i s = .next t := by
  cases i
  -- the first operation of a command, which waits
  case portRdH =>
    obtain ⟨hh, hacc⟩ := Bool.and_eq_true_iff.1 he
    obtain ⟨hl, l, rest, hc, h4⟩ := portReadAccepted_iff.1 hacc
    exact ⟨_, execPortRdH_next.2 ⟨eq_of_beq hh, hl, l, rest, hc, h4, rfl⟩⟩
  case portWrite =>
    obtain ⟨hh, hacc⟩ := Bool.and_eq_true_iff.1 he
    obtain ⟨hl, l, rest, hc, h1⟩ := portWriteAccepted_iff.1 hacc
    exact ⟨_, execPortWrite_next.2 ⟨eq_of_beq hh, hl, l, rest, hc, h1, rfl⟩⟩
  case initLatch =>
    obtain ⟨hh, hacc⟩ := Bool.and_eq_true_iff.1 he
    obtain ⟨hl, base, buf, rest, hc, hb⟩ := initAccepted_iff.1 hacc
    exact ⟨_, execInitLatch_next.2 ⟨eq_of_beq hh, hl, base, buf, rest, hc, hb, rfl⟩⟩
  case quiesceMask =>
    obtain ⟨hh, hacc⟩ := Bool.and_eq_true_iff.1 he
    obtain ⟨hl, hi, rest, hc⟩ := quiesceAccepted_iff.1 hacc
    exact ⟨_, execQuiesceMask_next.2 ⟨eq_of_beq hh, hl, hi, rest, hc, rfl⟩⟩
  -- INIT's descriptor writes
  case initDescA =>
    have hh : s.hstate = hDescA := eq_of_beq he
    have hdesc : s.hstate ∈ descStates := by rw [hh]; decide
    have hlt : s.initI.toNat < s.initBuf.length := by rw [hI.initBufs hdesc]; exact hI.initIndex hdesc
    have hacc := hI.accessRefusal_initI hdesc 0#64 (n := 8) (by decide) (by decide) (by decide)
    rw [BitVec.add_zero] at hacc
    exact ⟨_, execInitDescA_next.2 ⟨hh, _, List.getElem?_eq_getElem hlt, hacc, rfl⟩⟩
  case initDescL | initDescU =>
    simp only [exec, execInitDescL_next, execInitDescU_next]
    have hh := eq_of_beq he
    exact ⟨_, hh, hI.accessRefusal_initI (by rw [hh]; decide) _ (by decide) (by decide) (by decide), rfl⟩
  -- a register, or none
  case portRdT | initBah | initBal | initLen | initTail | initArm =>
    simp only [exec, execPortRdT_next, execInitBah_next, execInitBal_next, execInitLen_next,
      execInitTail_next, execInitArm_next]
    exact ⟨_, eq_of_beq he, rfl⟩
  case quiesceWait =>
    simp only [stepEnabled, Bool.and_eq_true, beq_iff_eq] at he
    exact ⟨_, execQuiesceWait_next.2 ⟨he, rfl⟩⟩
  all_goals exact absurd hs (by decide)

theorem agentStep_completes (hI : Invariant s) (a : Agent) : ∃ t, agentStep a s = .next t := by
  cases hop : agentOperation a s with
  | some i =>
    obtain ⟨-, hs, he⟩ := agentOperation_eq_some.1 hop
    rw [agentStep_of_some hop]
    cases a with
    | walker => exact execPass_completes hI hs he
    | ife => exact execIrq_completes hs he
    | hostcmd => exact execHost_completes hI hs he
  | none =>
    simp only [agentStep, hop]
    cases a <;> exact ⟨_, rfl⟩

/-- Enabled ring arithmetic completes, in any state (log 10). -/
theorem exec_isPure_completes {i : Instr} (hp : isPure i = true) (he : enabled i s = true) :
    ∃ t, exec i s = .next t := by
  cases i
  case nextIdx | prevIdx | descAddr | pendcnt | isdone => exact ⟨_, whenEnabled_of_enabled he⟩
  all_goals exact absurd hp (by decide)

theorem computeStep_completes (i : Instr) : ∃ t, computeStep (encode i) s = .next t := by
  rw [computeStep_encode]
  split
  next h =>
    obtain ⟨hp, he⟩ := Bool.and_eq_true_iff.1 h
    exact exec_isPure_completes hp he
  next => exact ⟨_, rfl⟩

end Completes

/-- Settles O49: an enabled operation completes, since the invariant keeps every access inside the ring and
aligned; the other entries of the schedule never stop the machine. -/
theorem everyStepCompletes : Obligations.EveryStepCompletes := by
  intro s hI hres
  match hsched : s.sched with
  | [] => exact ⟨_, step_of_empty hsched⟩
  | .agent a :: rest =>
    rw [step_of_agent hsched]
    exact agentStep_completes hI.of_unread a
  | .compute code :: rest =>
    obtain ⟨i, rfl⟩ := hres code rest hsched
    rw [step_of_compute hsched]
    exact computeStep_completes i
  | .command c :: rest => exact ⟨_, step_of_command hsched⟩
  | .device m :: rest => exact ⟨_, step_of_device hsched⟩

/-! ## Who writes each register and memory (20_memory.md R70, 10_state.md R42 to R44) -/

/-- Agent `a` takes the schedule's first entry, `rest` being what is left, and performs operation `i`, which
leads to `t`. -/
structure Performs (s : State) (a : Agent) (rest : List Move) (i : Instr) (t : State) : Prop where
  sched : s.sched = .agent a :: rest
  operation : agentOperation a s = some i
  exec : exec i { s with sched := rest } = .next t

@[simp] theorem presentCommand_dev (c : Command) (s : State) : (presentCommand c s).dev = s.dev := by
  unfold presentCommand
  split <;> rfl

@[simp] theorem presentCommand_mem (c : Command) (s : State) : (presentCommand c s).mem = s.mem := by
  unfold presentCommand
  split <;> rfl

/-- A step that is not the DEVICE's is an agent's operation, or leaves the registers and memory alone. -/
theorem step_performs_or_keeps {s t : State} (e : step s = .next t)
    (hdev : ∀ m rest, s.sched ≠ .device m :: rest) :
    (∃ a rest i, Performs s a rest i t) ∨ t.dev = s.dev ∧ t.mem = s.mem := by
  obtain ⟨rest, rfl | ⟨a, i, hs, hop, he⟩ | ⟨-, h⟩ | ⟨_, -, h⟩ | ⟨c, -, rfl⟩ | ⟨m, hs, -⟩⟩ := step_cases e
  · exact .inr ⟨rfl, rfl⟩
  · exact .inl ⟨a, rest, i, hs, hop, he⟩
  · obtain ⟨_, rfl, -⟩ := acceptStep_frame h
    exact .inr ⟨rfl, rfl⟩
  · rw [h]; exact .inr ⟨rfl, rfl⟩
  · exact .inr ⟨presentCommand_dev c _, presentCommand_mem c _⟩
  · exact absurd hs (hdev m rest)

/-- The families are shared out: an operation is in one agent's sequence at most (00_scope.md R3). -/
theorem Agent.sequences_unique {a b : Agent} {i : Instr} (ha : a.sequences i = true)
    (hb : b.sequences i = true) : a = b := by
  cases a <;> cases b <;> simp_all [Agent.sequences]

/-- No agent sequences an operation that is performed inside steps (40_reg_accessors.md R122 to R130). -/
theorem Agent.not_inner_of_sequences {a : Agent} {i : Instr} (ha : a.sequences i = true) :
    i ∉ innerOperations := by
  have hinner : ∀ i ∈ innerOperations, Agent.sequences .walker i = false ∧
      Agent.sequences .ife i = false ∧ Agent.sequences .hostcmd i = false := by decide
  intro hi
  obtain ⟨hw, hf, hh⟩ := hinner i hi
  cases a
  · exact absurd ha (by simp [hw])
  · exact absurd ha (by simp [hf])
  · exact absurd ha (by simp [hh])

/-- The tail itself is the first index of the software window (10_state.md R46). -/
theorem tail_inSoftwareWindow {n : Nat} (hn' : n ≤ 65536) {h t : Half} (hh : h.toNat < n)
    (ht : t.toNat < n) : inSoftwareWindow n h t t = true :=
  pending_inSoftwareWindow (k := 0) hn' hh ht (Nat.zero_le _)

@[simp] theorem wordOfIndex_toNat (i : Half) : (wordOfIndex i).toNat = i.toNat :=
  BitVec.toNat_setWidth_of_le (by decide)

namespace Performs

variable {s t : State} {a : Agent} {rest : List Move} {i : Instr}

theorem sequences (p : Performs s a rest i t) : a.sequences i = true :=
  (agentOperation_eq_some.1 p.operation).2.1

theorem stepEnabled (p : Performs s a rest i t) : Machine.stepEnabled i s = true :=
  (agentOperation_eq_some.1 p.operation).2.2

theorem writesOnly (p : Performs s a rest i t) : WritesOnly i { s with sched := rest } t :=
  exec_writesOnly p.exec

/-- Of the writers of a place, the step's operation is one that an agent sequences. -/
theorem writer {ops sequenced : List Instr} (p : Performs s a rest i t) (hi : i ∈ ops)
    (h : ops.filter (· ∉ innerOperations) = sequenced) : i ∈ sequenced :=
  h ▸ List.mem_filter.2 ⟨hi, decide_eq_true (Agent.not_inner_of_sequences p.sequences)⟩

/-- An operation of agent `b`'s sequence is `b`'s step. -/
theorem sched_of_sequences (p : Performs s a rest i t) {b : Agent} (hb : b.sequences i = true) :
    s.sched = .agent b :: rest :=
  Agent.sequences_unique p.sequences hb ▸ p.sched

/-- INIT's steps are HOSTCMD's, while UNATTACHED (44_host_port_lifecycle.md R207 to R215). -/
theorem init (p : Performs s a rest i t) (hI : Invariant s) (hseq : Agent.sequences .hostcmd i = true)
    {h : Byte} (hh : s.hstate = h) (hinit : h ∈ initStates) :
    ∃ rest, s.sched = .agent .hostcmd :: rest ∧ s.hstate = h ∧ s.life = lifeUnattached :=
  ⟨rest, p.sched_of_sequences hseq, hh, hI.initUnattached (hh ▸ hinit)⟩

theorem rdt (p : Performs s a rest i t) (hI : Invariant s) :
    t.dev.rdt = s.dev.rdt ∨
      (∃ rest, s.sched = .agent .walker :: rest ∧ s.wstate = wAdv ∧ s.attached ∧
        t.dev.rdt.toNat = (s.dev.tail.toNat + 1) % s.cfg.ringSize) ∨
      (∃ rest, s.sched = .agent .hostcmd :: rest ∧ s.hstate = hTail ∧ s.life = lifeUnattached ∧
        t.dev.rdt.toNat = s.cfg.ringSize - 1) := by
  obtain ⟨hn, hn'⟩ := hI.ringSize_bounds
  refine p.writesOnly.rdt.imp_right fun hi => ?_
  obtain rfl | rfl := List.mem_pair.1 (p.writer hi rfl)
  · obtain ⟨hw, rfl⟩ := execPassAdv_next.1 p.exec
    have hloop : s.wstate ∈ loopStates := by rw [show s.wstate = wAdv from hw]; decide
    refine .inl ⟨rest, p.sched_of_sequences rfl, hw, hI.loop_attached hloop, ?_⟩
    rw [wordOfIndex_toNat, nextIndex_toNat (by omega) hn', hI.tailHeld hloop]
  · obtain ⟨hh, rfl⟩ := execInitTail_next.1 p.exec
    obtain ⟨rest', hs, hh, hl⟩ := p.init hI rfl hh (by decide)
    have hlast := ofNat_toNat_of_lt hn' (show s.cfg.ringSize - 1 < s.cfg.ringSize by omega)
    exact .inr ⟨rest', hs, hh, hl, (wordOfIndex_toNat _).trans hlast⟩

theorem rdbal (p : Performs s a rest i t) (hI : Invariant s) :
    t.dev.rdbal = s.dev.rdbal ∨
      ∃ rest, s.sched = .agent .hostcmd :: rest ∧ s.hstate = hBal ∧ s.life = lifeUnattached := by
  refine p.writesOnly.rdbal.imp_right fun hi => ?_
  obtain rfl := List.mem_singleton.1 (p.writer hi rfl)
  exact p.init hI rfl (eq_of_beq p.stepEnabled) (by decide)

theorem rdbah (p : Performs s a rest i t) (hI : Invariant s) :
    t.dev.rdbah = s.dev.rdbah ∨
      ∃ rest, s.sched = .agent .hostcmd :: rest ∧ s.hstate = hBah ∧ s.life = lifeUnattached := by
  refine p.writesOnly.rdbah.imp_right fun hi => ?_
  obtain rfl := List.mem_singleton.1 (p.writer hi rfl)
  exact p.init hI rfl (eq_of_beq p.stepEnabled) (by decide)

theorem rdlen (p : Performs s a rest i t) (hI : Invariant s) :
    t.dev.rdlen = s.dev.rdlen ∨
      ∃ rest, s.sched = .agent .hostcmd :: rest ∧ s.hstate = hLen ∧ s.life = lifeUnattached := by
  refine p.writesOnly.rdlen.imp_right fun hi => ?_
  obtain rfl := List.mem_singleton.1 (p.writer hi rfl)
  exact p.init hI rfl (eq_of_beq p.stepEnabled) (by decide)

theorem cause (p : Performs s a rest i t) :
    t.dev.cause = s.dev.cause ∨
      ∃ rest, s.sched = .agent .ife :: rest ∧ s.istate = iIdle ∧ s.life = lifeReady ∧
        t.dev.cause = 0#32 := by
  refine p.writesOnly.cause.imp_right fun hi => ?_
  obtain rfl := List.mem_singleton.1 (p.writer hi rfl)
  obtain ⟨⟨hl, hi, -⟩, rfl⟩ := execIrqAck_next.1 p.exec
  exact ⟨rest, p.sched_of_sequences rfl, hi, hl, rfl⟩

theorem mask (p : Performs s a rest i t) (hI : Invariant s) :
    t.dev.mask = s.dev.mask ∨
      (∃ rest, s.sched = .agent .ife :: rest ∧ s.istate = iRearm ∧
        t.dev.mask = s.dev.mask ||| s.cfg.irqEnableMask) ∨
      (∃ rest, s.sched = .agent .hostcmd :: rest ∧ s.hstate = hArm ∧ s.life = lifeUnattached ∧
        t.dev.mask = s.dev.mask ||| s.cfg.irqEnableMask) ∨
      (∃ rest, s.sched = .agent .hostcmd :: rest ∧ s.hstate = hIdle ∧ s.life = lifeReady ∧
        t.dev.mask = s.dev.mask &&& ~~~s.cfg.irqDisableMask) := by
  refine p.writesOnly.mask.imp_right fun hi => ?_
  have hi : i ∈ [.irqRearm, .initArm, .quiesceMask] := p.writer hi rfl
  simp only [List.mem_cons, List.not_mem_nil, or_false] at hi
  obtain rfl | rfl | rfl := hi
  · obtain ⟨hi, rfl⟩ := execIrqRearm_next.1 p.exec
    exact .inl ⟨rest, p.sched_of_sequences rfl, hi, rfl⟩
  · obtain ⟨hh, rfl⟩ := execInitArm_next.1 p.exec
    obtain ⟨rest', hs, hh, hl⟩ := p.init hI rfl hh (by decide)
    exact .inr (.inl ⟨rest', hs, hh, hl, rfl⟩)
  · obtain ⟨hh, hl, -, _, -, rfl⟩ := execQuiesceMask_next.1 p.exec
    exact .inr (.inr ⟨rest, p.sched_of_sequences rfl, hh, hl, rfl⟩)

/-- Memory is written at the tail, which is software's, or by INIT (20_memory.md R70). -/
theorem mem (p : Performs s a rest i t) (hI : Invariant s) :
    t.mem = s.mem ∨
      (∃ rest, s.sched = .agent .walker :: rest ∧ s.wstate = wClrW ∧
        (inRange s.cfg.ringSize s.dev.head = true →
          inSoftwareWindow s.cfg.ringSize s.dev.head s.dev.tail s.tailC = true)) ∨
      (∃ rest, s.sched = .agent .hostcmd :: rest ∧ s.hstate ∈ descStates ∧
        s.life = lifeUnattached) := by
  refine p.writesOnly.mem.imp_right fun hi => ?_
  have hi : i ∈ [.passClrW, .initDescA, .initDescL, .initDescU] := p.writer hi rfl
  have he := p.stepEnabled
  simp only [List.mem_cons, List.not_mem_nil, or_false] at hi
  obtain rfl | hi := hi
  · have hw : s.wstate = wClrW := eq_of_beq he
    have hloop : s.wstate ∈ loopStates := by rw [hw]; decide
    have htail := hI.tailC_lt hloop
    refine .inl ⟨rest, p.sched_of_sequences rfl, hw, fun hhead => ?_⟩
    rw [← hI.tailHeld hloop]
    exact tail_inSoftwareWindow hI.ringSize_bounds.2 (inRange_iff.1 hhead) htail
  · have hdesc : s.hstate ∈ descStates := by
      obtain rfl | rfl | rfl := hi <;> (rw [eq_of_beq he]; decide)
    have hseq : Agent.sequences .hostcmd i = true := by obtain rfl | rfl | rfl := hi <;> rfl
    exact .inr ⟨rest, p.sched_of_sequences hseq, hdesc,
      hI.initUnattached (descStates_sub_initStates _ hdesc)⟩

end Performs

/-- Settles O59: place by place, the writers among the operations an agent sequences; no other move but the
DEVICE's writes a register or memory. -/
theorem everyLocationHasItsWriters : Obligations.EveryLocationHasItsWriters := by
  intro s t hI e hdev
  obtain ⟨a, rest, i, p⟩ | ⟨hd, hm⟩ := step_performs_or_keeps e hdev
  · exact ⟨p.writesOnly.rdh, p.writesOnly.fill, p.rdt hI, p.rdbal hI, p.rdbah hI, p.rdlen hI, p.cause,
      p.mask hI, p.mem hI⟩
  · rw [hd, hm]
    exact ⟨rfl, rfl, .inl rfl, .inl rfl, .inl rfl, .inl rfl, .inl rfl, .inl rfl, .inl rfl⟩

end Sys2Proof.Machine
end

section
/-! Proofs/Encoding.lean: codes and what the inner operations are (30_encoding.md): decode and encode agree
and every other value is reserved (R100 to R103); the port word (R98); and a step that uses a REG or RING
transaction does what the transaction does by itself, which is shown once for each pair of an operation and
a step that its "Used by" line names (R106). -/

namespace Sys2Proof.Machine

/-! ## Codes (R100 to R103) -/

theorem decode_eq_ok_iff {code : Byte} {i : Instr} : decode code = .ok i ↔ code = encode i := by
  refine ⟨fun h => ?_, fun h => h ▸ decode_encode i⟩
  rw [decode] at h
  split at h
  next j hrow => cases h; exact opRows_encode _ (mem_of_findRow hrow)
  next => cases h

/-- Settles O2: the operation map's row of a code is the row of the operation's own code. -/
theorem decodeAndEncodeAgree : Obligations.DecodeAndEncodeAgree :=
  fun _ _ => decode_eq_ok_iff

/-- Settles O3: each byte is the operation's family nibble above its index nibble. -/
theorem sampleCodesDecode : Obligations.SampleCodesDecode := by
  simp only [Obligations.SampleCodesDecode, decode_eq_ok_iff]
  decide

/-- The ranges of the operation map (R101). -/
def InOperationMap (code : Byte) : Prop :=
  (0x01 ≤ code.toNat ∧ code.toNat ≤ 0x09) ∨ (0x10 ≤ code.toNat ∧ code.toNat ≤ 0x17) ∨
  (0x20 ≤ code.toNat ∧ code.toNat ≤ 0x2C) ∨ (0x30 ≤ code.toNat ∧ code.toNat ≤ 0x32) ∨
  (0x40 ≤ code.toNat ∧ code.toNat ≤ 0x42) ∨ (0x50 ≤ code.toNat ∧ code.toNat ≤ 0x58) ∨
  (0x60 ≤ code.toNat ∧ code.toNat ≤ 0x61)

theorem encode_inOperationMap (i : Instr) : InOperationMap (encode i) := by
  unfold InOperationMap
  cases i <;> decide

theorem decode_outside_operationMap {code : Byte} (h : ¬ InOperationMap code) :
    decode code = .error (.reserved code) :=
  decode_of_reserved fun i hi => h (hi ▸ encode_inOperationMap i)

section Listed
variable {i : Instr} {s : State}

/-- The WALKER's steps are enabled in its listed states only (10_state.md R30). -/
theorem stepEnabled_wstate_listed (hs : Agent.sequences .walker i = true)
    (he : stepEnabled i s = true) : s.wstate ∈ walkerStates := by
  cases i
  case passStart =>
    simp only [stepEnabled, Bool.and_eq_true, beq_iff_eq, and_assoc] at he
    obtain ⟨-, hidle, -⟩ := he
    rw [hidle]; decide
  case passSnapH | passSnapT | passTest | passAdv | passRrH | passRrT | passInspU | passInspL | passInspA |
      passConsume | passClrR | passClrW =>
    rw [eq_of_beq he]; decide
  all_goals exact absurd hs (by decide)

/-- The IFE's steps are enabled in its listed states only (10_state.md R31). -/
theorem stepEnabled_istate_listed (hs : Agent.sequences .ife i = true)
    (he : stepEnabled i s = true) : s.istate ∈ ifeStates := by
  cases i
  case irqAck =>
    simp only [stepEnabled, Bool.and_eq_true, beq_iff_eq, and_assoc] at he
    obtain ⟨-, hidle, -⟩ := he
    rw [hidle]; decide
  case irqSched | irqRearm => rw [eq_of_beq he]; decide
  all_goals exact absurd hs (by decide)

/-- HOSTCMD's steps are enabled in its listed states only (10_state.md R32). -/
theorem stepEnabled_hstate_listed (hs : Agent.sequences .hostcmd i = true)
    (he : stepEnabled i s = true) : s.hstate ∈ hostStates := by
  cases i
  case portRdH | portWrite | initLatch | quiesceMask | quiesceWait =>
    rw [eq_of_beq (Bool.and_eq_true_iff.1 he).1]; decide
  case portRdT | initDescA | initDescL | initDescU | initBah | initBal | initLen | initTail | initArm =>
    rw [eq_of_beq he]; decide
  all_goals exact absurd hs (by decide)

end Listed

/-- An agent has no step where each step it sequences is enabled only under a condition that fails. -/
theorem agentOperation_eq_none {a : Agent} {s : State} {C : Prop} (hC : ¬ C)
    (h : ∀ {i}, a.sequences i = true → stepEnabled i s = true → C) : agentOperation a s = none := by
  refine Option.eq_none_iff_forall_ne_some.2 fun i hop => ?_
  obtain ⟨-, hs, he⟩ := agentOperation_eq_some.1 hop
  exact hC (h hs he)

theorem acceptStep_eq_none_of_busy {s : State} (h : s.hstate ≠ hIdle) : acceptStep s = none := by
  refine Option.eq_none_iff_forall_ne_some.2 fun t ht => ?_
  obtain ⟨-, hidle, -⟩ := acceptStep_eq_some.1 ht
  exact h hidle

/-- Settles O4: every operation's code is in the map, and every step is enabled in listed states only. -/
theorem reservedCodesNameNothing : Obligations.ReservedCodesNameNothing :=
  ⟨fun _ => decode_outside_operationMap,
    fun _ h => agentOperation_eq_none h stepEnabled_wstate_listed,
    fun _ h => agentOperation_eq_none h stepEnabled_istate_listed,
    fun _ h => ⟨agentOperation_eq_none h stepEnabled_hstate_listed,
      acceptStep_eq_none_of_busy fun hidle => h (by rw [hidle]; decide)⟩⟩

/-! ## The port word (R98) -/

theorem portWord_eq_append (head tail : Half) : portWord head tail = head ++ tail := by
  rw [BitVec.append_def, BitVec.shiftLeftZeroExtend_eq, BitVec.setWidth'_eq]; rfl

theorem bytesLE_eq_map (v : DWord) (n : Nat) :
    bytesLE v n = (List.range n).map fun k => v.extractLsb' (8 * k) 8 :=
  List.ext_getElem (by simp) fun k _ _ => by simp [bytesLE_getElem]

theorem portBytes_eq (w : Word) :
    portBytes w = [w.extractLsb' 0 8, w.extractLsb' 8 8, w.extractLsb' 16 8, w.extractLsb' 24 8] := by
  have low (k : Nat) (hk : k + 8 ≤ 64) : (w.setWidth 64).extractLsb' k 8 = w.extractLsb' k 8 :=
    BitVec.extractLsb'_setWidth_of_le hk
  rw [portBytes, bytesLE_eq_map, ← low 0 (by decide), ← low 8 (by decide), ← low 16 (by decide),
    ← low 24 (by decide)]
  rfl

/-- Settles O35: the word is head above tail, so each part of it is a part of one of them. -/
theorem portWordBytes : Obligations.PortWordBytes := by
  intro head tail
  have upper (k n : Nat) (hk : 16 ≤ k) : (head ++ tail).extractLsb' k n = head.extractLsb' (k - 16) n :=
    BitVec.extractLsb'_append_eq_of_le hk
  have lower (k n : Nat) (hk : k + n ≤ 16) : (head ++ tail).extractLsb' k n = tail.extractLsb' k n :=
    BitVec.extractLsb'_append_eq_of_add_le hk
  rw [portBytes_eq, portWord_eq_append, upper 16 16 (by decide), lower 0 16 (by decide),
    lower 0 8 (by decide), lower 8 8 (by decide), upper 16 8 (by decide), upper 24 8 (by decide)]
  exact ⟨BitVec.extractLsb'_eq_self, BitVec.extractLsb'_eq_self, rfl⟩

/-! ## A step and the transaction it uses (R106) -/

/-- The agent in whose sequence an operation of families PASS to QUIESCE is, by its family
(00_scope.md R3). -/
def sequencer (p : Instr) : Agent :=
  if p.family = 0x2#4 then .walker else if p.family = 0x3#4 then .ife else .hostcmd

theorem Agent.eq_sequencer {a : Agent} {p : Instr} (h : a.sequences p = true) : a = sequencer p := by
  cases a <;> simp only [sequences, Bool.or_eq_true, beq_iff_eq, or_assoc] at h
  case walker => simp [sequencer, h]
  case ife => simp [sequencer, h]
  case hostcmd => obtain h | h | h := h <;> simp [sequencer, h]

@[simp] theorem State.asking_wstate (s : State) (a : Agent) (i : Half) (b : Byte) :
    (s.asking a i b).wstate = s.wstate := rfl

/-- Step `p`, going from `s` to `t`, puts into its latch, or its reply, the result that operation `op` by
itself leaves in the call port of `u` (log 10); a step not named here takes none. -/
def LatchesResult (op p : Instr) (s u t : State) : Prop :=
  match p with
  | .passSnapH => t.headS = u.call.resIdx
  | .passSnapT => t.tailC = u.call.resIdx
  | .passAdv => op = .advanceTail → t.tailC = u.call.resIdx
  | .passRrH => t.headLive = u.call.resIdx
  | .portRdH => t.portH = u.call.resIdx
  | .portRdT => t.trace.head? = some (.portReply true 4#32 (s.portH ++ u.call.resIdx))
  | .irqAck => t.icrLatch = u.call.resWord
  | .passInspU => t.view.status = u.call.resView.status ∧ t.view.errors = u.call.resView.errors
  | .passInspL => t.view.length = u.call.resView.length
  | .passInspA => t.view.addr = u.call.resView.addr
  | .passClrR => t.clrTmp = u.call.resByte
  | _ => True

/-- Step `p`, going from `s` to `t`, has the effect of operation `op` by itself, which leads to `u`: on the
registers, on memory, on the transactions issued (`p` may add a reply, an `initDone` or the `Log` of an
abandoned pass) and in its latch. -/
structure PerformsOperation (op p : Instr) (s u t : State) : Prop where
  dev : t.dev = u.dev
  mem : t.mem = u.mem
  trace : t.trace = u.trace ∨ ∃ e, t.trace = e :: u.trace ∧ e.isTransaction = false
  latch : LatchesResult op p s u t

section Inner
variable {op p : Instr} {a : Agent} {i : Half} {b : Byte} {s u t : State}

/-- An operation that is a transaction issues exactly one, by the agent in the call port. -/
theorem exec_inner_issues (hop : op ∈ innerOperations) (eu : exec op s = .next u) :
    ∃ e, u.trace = e :: s.trace ∧ e.isTransaction = true ∧ e.agentOf = some s.call.caller := by
  cases op
  case rdhR | rdtR | rdtW | icrR | imsW | imcW | rdbalW | rdbahW | rdlenW | advanceTail =>
    simp only [exec, execRdhR_next, execRdtR_next, execRdtW_next, execIcrR_next, execImsW_next,
      execImcW_next, execRdbalW_next, execRdbahW_next, execRdlenW_next, execAdvanceTail_next] at eu
    obtain ⟨-, rfl⟩ := eu; exact ⟨_, rfl, rfl, rfl⟩
  case inspect =>
    obtain ⟨-, eu⟩ := execInspect_next.1 eu
    split at eu
    · obtain ⟨-, rfl⟩ := eu; exact ⟨_, rfl, rfl, rfl⟩
    · split at eu <;> (obtain ⟨-, rfl⟩ := eu; exact ⟨_, rfl, rfl, rfl⟩)
  case markFree =>
    obtain ⟨-, -, rfl⟩ := execMarkFree_next.1 eu
    split <;> exact ⟨_, rfl, rfl, rfl⟩
  all_goals exact absurd hop (by decide)

/-- Asked for by the agent whose step `p` is next, a transaction is enabled only where `p` uses it. -/
theorem usedBy_of_enabled (hp : agentOperation a s = some p) (hop : op ∈ innerOperations)
    (he : enabled op (s.asking a i b) = true) : usedBy op p (s.asking a i b) = true := by
  have hp' : agentOperation (s.asking a i b).call.caller (s.asking a i b) = some p := hp
  rw [enabled_innerOperation hop, performedInStep, hp'] at he
  exact he

theorem usedBy_advanceTail :
    usedBy .advanceTail p s = true ↔ p = .passAdv ∧ s.call.argIdx = s.tailC := by
  simp [usedBy]

/-! Each transaction in the steps of its "Used by" line, asked for by the agent whose step it is. -/

namespace PerformsOperation

theorem rdhR (hu : usedBy .rdhR p (s.asking (sequencer p) i b) = true)
    (eu : exec .rdhR (s.asking (sequencer p) i b) = .next u) (e : exec p s = .next t) :
    PerformsOperation .rdhR p s u t := by
  obtain ⟨-, rfl⟩ := execRdhR_next.1 eu
  simp only [usedBy, Bool.or_eq_true, beq_iff_eq, or_assoc] at hu
  obtain rfl | rfl | rfl := hu
  · obtain ⟨-, rfl⟩ := execPassSnapH_next.1 e
    exact ⟨rfl, rfl, .inl rfl, rfl⟩
  · obtain ⟨-, rfl⟩ := execPassRrH_next.1 e
    split
    · exact ⟨rfl, rfl, .inl rfl, rfl⟩
    · exact ⟨rfl, rfl, .inr ⟨_, rfl, rfl⟩, rfl⟩
  · obtain ⟨-, -, _, _, -, -, rfl⟩ := execPortRdH_next.1 e
    exact ⟨rfl, rfl, .inl rfl, rfl⟩

theorem rdtR (hu : usedBy .rdtR p (s.asking (sequencer p) i b) = true)
    (eu : exec .rdtR (s.asking (sequencer p) i b) = .next u) (e : exec p s = .next t) :
    PerformsOperation .rdtR p s u t := by
  obtain ⟨-, rfl⟩ := execRdtR_next.1 eu
  simp only [usedBy, Bool.or_eq_true, beq_iff_eq, or_assoc] at hu
  obtain rfl | rfl | rfl := hu
  · obtain ⟨-, rfl⟩ := execPassSnapT_next.1 e
    split
    · exact ⟨rfl, rfl, .inl rfl, rfl⟩
    · exact ⟨rfl, rfl, .inr ⟨_, rfl, rfl⟩, rfl⟩
  · obtain ⟨-, rfl⟩ := execPassRrT_next.1 e
    split
    · exact ⟨rfl, rfl, .inl rfl, trivial⟩
    · exact ⟨rfl, rfl, .inr ⟨_, rfl, rfl⟩, trivial⟩
  · obtain ⟨-, rfl⟩ := execPortRdT_next.1 e
    rw [portWord_eq_append]
    exact ⟨rfl, rfl, .inr ⟨_, rfl, rfl⟩, rfl⟩

theorem rdtW (hu : usedBy .rdtW p (s.asking (sequencer p) i b) = true)
    (eu : exec .rdtW (s.asking (sequencer p) i b) = .next u) (e : exec p s = .next t) :
    PerformsOperation .rdtW p s u t := by
  obtain ⟨-, rfl⟩ := execRdtW_next.1 eu
  simp only [usedBy, Bool.or_eq_true, Bool.and_eq_true, beq_iff_eq] at hu
  obtain ⟨rfl, hi⟩ | ⟨rfl, hi⟩ := hu
  · obtain ⟨-, rfl⟩ := execPassAdv_next.1 e
    obtain rfl : i = nextIndex s.cfg.ringSize s.tailC := hi
    exact ⟨rfl, rfl, .inl rfl, nofun⟩
  · obtain ⟨-, rfl⟩ := execInitTail_next.1 e
    obtain rfl : i = BitVec.ofNat 16 (s.cfg.ringSize - 1) := hi
    exact ⟨rfl, rfl, .inl rfl, trivial⟩

theorem icrR (hu : usedBy .icrR p (s.asking (sequencer p) i b) = true)
    (eu : exec .icrR (s.asking (sequencer p) i b) = .next u) (e : exec p s = .next t) :
    PerformsOperation .icrR p s u t := by
  obtain ⟨-, rfl⟩ := execIcrR_next.1 eu
  obtain rfl : p = .irqAck := eq_of_beq hu
  obtain ⟨-, rfl⟩ := execIrqAck_next.1 e
  exact ⟨rfl, rfl, .inl rfl, rfl⟩

theorem imsW (hu : usedBy .imsW p (s.asking (sequencer p) i b) = true)
    (eu : exec .imsW (s.asking (sequencer p) i b) = .next u) (e : exec p s = .next t) :
    PerformsOperation .imsW p s u t := by
  obtain ⟨-, rfl⟩ := execImsW_next.1 eu
  simp only [usedBy, Bool.or_eq_true, beq_iff_eq] at hu
  obtain rfl | rfl := hu
  · obtain ⟨-, rfl⟩ := execIrqRearm_next.1 e
    exact ⟨rfl, rfl, .inl rfl, trivial⟩
  · obtain ⟨-, rfl⟩ := execInitArm_next.1 e
    exact ⟨rfl, rfl, .inr ⟨_, rfl, rfl⟩, trivial⟩

theorem imcW (hu : usedBy .imcW p (s.asking (sequencer p) i b) = true)
    (eu : exec .imcW (s.asking (sequencer p) i b) = .next u) (e : exec p s = .next t) :
    PerformsOperation .imcW p s u t := by
  obtain ⟨-, rfl⟩ := execImcW_next.1 eu
  obtain rfl : p = .quiesceMask := eq_of_beq hu
  obtain ⟨-, -, -, _, -, rfl⟩ := execQuiesceMask_next.1 e
  exact ⟨rfl, rfl, .inl rfl, trivial⟩

/-- The ring's place and size, each programmed by one step of INIT. -/
theorem ringRegister (hop : op ∈ [.rdbalW, .rdbahW, .rdlenW])
    (hu : usedBy op p (s.asking (sequencer p) i b) = true)
    (eu : exec op (s.asking (sequencer p) i b) = .next u) (e : exec p s = .next t) :
    PerformsOperation op p s u t := by
  simp only [List.mem_cons, List.not_mem_nil, or_false] at hop
  obtain rfl | rfl | rfl := hop
  · obtain ⟨-, rfl⟩ := execRdbalW_next.1 eu
    obtain rfl : p = .initBal := eq_of_beq hu
    obtain ⟨-, rfl⟩ := execInitBal_next.1 e
    exact ⟨rfl, rfl, .inl rfl, trivial⟩
  · obtain ⟨-, rfl⟩ := execRdbahW_next.1 eu
    obtain rfl : p = .initBah := eq_of_beq hu
    obtain ⟨-, rfl⟩ := execInitBah_next.1 e
    exact ⟨rfl, rfl, .inl rfl, trivial⟩
  · obtain ⟨-, rfl⟩ := execRdlenW_next.1 eu
    obtain rfl : p = .initLen := eq_of_beq hu
    obtain ⟨-, rfl⟩ := execInitLen_next.1 e
    exact ⟨rfl, rfl, .inl rfl, trivial⟩

/-- INSPECT: the part performed is the step's, since the WALKER's state tells the parts apart. -/
theorem inspect (hu : usedBy .inspect p (s.asking (sequencer p) i b) = true)
    (eu : exec .inspect (s.asking (sequencer p) i b) = .next u) (e : exec p s = .next t) :
    PerformsOperation .inspect p s u t := by
  obtain ⟨-, eu⟩ := execInspect_next.1 eu
  rw [State.asking_wstate] at eu
  simp only [usedBy, Bool.or_eq_true, Bool.and_eq_true, beq_iff_eq, or_assoc] at hu
  obtain ⟨hp, hi⟩ := hu
  obtain rfl : i = s.tailC := hi
  obtain rfl | rfl | rfl := hp
  · obtain ⟨hw, -, rfl⟩ := execPassInspU_next.1 e
    rw [if_pos hw] at eu
    obtain ⟨-, rfl⟩ := eu
    exact ⟨rfl, rfl, .inl rfl, rfl, rfl⟩
  · obtain ⟨hw, -, rfl⟩ := execPassInspL_next.1 e
    rw [hw, if_neg (by decide), if_pos rfl] at eu
    obtain ⟨-, rfl⟩ := eu
    exact ⟨rfl, rfl, .inl rfl, rfl⟩
  · obtain ⟨hw, -, rfl⟩ := execPassInspA_next.1 e
    rw [hw, if_neg (by decide), if_neg (by decide)] at eu
    obtain ⟨-, rfl⟩ := eu
    exact ⟨rfl, rfl, .inl rfl, rfl⟩

theorem advanceTail (hu : usedBy .advanceTail p (s.asking (sequencer p) i b) = true)
    (eu : exec .advanceTail (s.asking (sequencer p) i b) = .next u) (e : exec p s = .next t) :
    PerformsOperation .advanceTail p s u t := by
  obtain ⟨-, rfl⟩ := execAdvanceTail_next.1 eu
  obtain ⟨rfl, hi⟩ := usedBy_advanceTail.1 hu
  obtain ⟨-, rfl⟩ := execPassAdv_next.1 e
  obtain rfl : i = s.tailC := hi
  exact ⟨rfl, rfl, .inl rfl, fun _ => rfl⟩

/-- MARK_FREE: the part performed is the step's; the write's operand is the byte that the read latched. -/
theorem markFree (hu : usedBy .markFree p (s.asking (sequencer p) i b) = true)
    (eu : exec .markFree (s.asking (sequencer p) i b) = .next u) (e : exec p s = .next t) :
    PerformsOperation .markFree p s u t := by
  obtain ⟨-, -, rfl⟩ := execMarkFree_next.1 eu
  rw [State.asking_wstate]
  simp only [usedBy, Bool.or_eq_true, Bool.and_eq_true, beq_iff_eq] at hu
  obtain ⟨hp, hi⟩ := hu
  obtain rfl : i = s.tailC := hi
  obtain rfl | ⟨rfl, hb⟩ := hp
  · obtain ⟨hw, -, rfl⟩ := execPassClrR_next.1 e
    rw [if_pos hw]
    exact ⟨rfl, rfl, .inl rfl, rfl⟩
  · obtain ⟨hw, -, rfl⟩ := execPassClrW_next.1 e
    obtain rfl : b = s.clrTmp := hb
    rw [hw, if_neg (by decide)]
    exact ⟨rfl, rfl, .inl rfl, trivial⟩

end PerformsOperation

theorem performsOperation_of_usedBy (hop : op ∈ innerOperations)
    (hu : usedBy op p (s.asking (sequencer p) i b) = true)
    (eu : exec op (s.asking (sequencer p) i b) = .next u) (e : exec p s = .next t) :
    PerformsOperation op p s u t := by
  cases op
  case rdhR => exact .rdhR hu eu e
  case rdtR => exact .rdtR hu eu e
  case rdtW => exact .rdtW hu eu e
  case icrR => exact .icrR hu eu e
  case imsW => exact .imsW hu eu e
  case imcW => exact .imcW hu eu e
  case rdbalW | rdbahW | rdlenW => exact .ringRegister (by decide) hu eu e
  case inspect => exact .inspect hu eu e
  case advanceTail => exact .advanceTail hu eu e
  case markFree => exact .markFree hu eu e
  all_goals exact absurd hop (by decide)

end Inner

/-- Settles O58: the operation is used by the very step that is the agent's next, so the two do the same. -/
theorem stepsPerformTheirOperations : Obligations.StepsPerformTheirOperations := by
  intro p op a i b s t u hp hop he eu e
  have hu := usedBy_of_enabled hp hop he
  obtain rfl := Agent.eq_sequencer (agentOperation_eq_some.1 hp).2.1
  obtain ⟨hdev, hmem, htrace, hlatch⟩ := performsOperation_of_usedBy hop hu eu e
  have hadded : ∃ l, t.trace = l ++ u.trace ∧ ∀ e ∈ l, e.isTransaction = false := by
    obtain h | ⟨ev, h, hev⟩ := htrace
    · exact ⟨[], h, nofun⟩
    · exact ⟨[ev], h, List.forall_mem_singleton.2 hev⟩
  have hadvanced : op = .advanceTail → t.tailC = u.call.resIdx := by
    rintro rfl
    obtain ⟨rfl, -⟩ := usedBy_advanceTail.1 hu
    exact hlatch rfl
  have hissued := exec_inner_issues hop eu
  refine ⟨hdev, hmem, hadded, hissued, ?_, ?_, hadvanced, ?_, ?_, ?_, ?_, ?_, ?_, ?_, ?_⟩ <;>
    (rintro rfl; exact hlatch)

end Sys2Proof.Machine
end

section
/-! Proofs/RegAccessors.lean: family REG (40_reg_accessors.md R120 to R131): in which steps each transaction
is enabled, which are the steps of its "Used by" line; what the nine accessors leave in the state; and the
accesses that are refused. -/

namespace Sys2Proof.Machine

/-! ## Where a transaction is enabled ("Used by" of R122 to R130, R144, R145, R147) -/

/-- The agent in the call port is the one whose step `p` is, and `p` is what that agent does next. -/
def CallerIsAt (p : Instr) (s : State) : Prop :=
  s.call.caller = sequencer p ∧ stepEnabled p s = true

theorem CallerIsAt.caller {p : Instr} {s : State} (h : CallerIsAt p s) : s.call.caller = sequencer p := h.1

section Enabled
variable {op p q : Instr} {s : State}

/-- An operation that its rule enables by itself is a step of the agent of its family (00_scope.md R3):
families REG and RING have no such operation. -/
theorem sequences_sequencer (he : stepEnabled p s = true) : (sequencer p).sequences p = true := by
  cases p
  case rdhR | rdtR | rdtW | icrR | imsW | imcW | rdbalW | rdbahW | rdlenW | nextIdx | prevIdx | descAddr |
      pendcnt | inspect | advanceTail | isdone | markFree =>
    exact absurd he Bool.false_ne_true
  all_goals rfl

theorem agentOperation_caller_eq_some :
    agentOperation s.call.caller s = some p ↔ s.life ≠ lifeUnused ∧ CallerIsAt p s := by
  rw [agentOperation_eq_some]
  refine and_congr_right fun _ => ⟨fun ⟨hs, he⟩ => ⟨Agent.eq_sequencer hs, he⟩, fun ⟨hc, he⟩ => ⟨?_, he⟩⟩
  rw [hc]; exact sequences_sequencer he

/-- A transaction is enabled exactly where the caller's next step uses it. -/
theorem enabled_inner_iff (hop : op ∈ innerOperations) :
    enabled op s = true ↔ s.life ≠ lifeUnused ∧ ∃ p, usedBy op p s = true ∧ CallerIsAt p s := by
  have hperformed : performedInStep op s = true ↔
      ∃ p, agentOperation s.call.caller s = some p ∧ usedBy op p s = true := by
    cases h : agentOperation s.call.caller s <;> simp [performedInStep, h]
  simp only [enabled_innerOperation hop, hperformed, agentOperation_caller_eq_some, and_assoc, exists_and_left,
    and_comm (a := CallerIsAt _ s)]

/-- A transaction that one step alone uses, and with no operand, is enabled where that step is next. -/
theorem enabled_iff_of_usedBy_one (hop : op ∈ innerOperations) (hu : ∀ p, usedBy op p s = (p == q)) :
    enabled op s = true ↔ s.life ≠ lifeUnused ∧ CallerIsAt q s := by
  simp [enabled_inner_iff hop, hu]

theorem enabled_rdhR_iff : enabled .rdhR s = true ↔ s.life ≠ lifeUnused ∧
    (CallerIsAt .passSnapH s ∨ CallerIsAt .passRrH s ∨ CallerIsAt .portRdH s) := by
  simp [enabled_inner_iff (op := .rdhR) (by decide), usedBy, or_assoc]

theorem enabled_rdtR_iff : enabled .rdtR s = true ↔ s.life ≠ lifeUnused ∧
    (CallerIsAt .passSnapT s ∨ CallerIsAt .passRrT s ∨ CallerIsAt .portRdT s) := by
  simp [enabled_inner_iff (op := .rdtR) (by decide), usedBy, or_assoc]

theorem enabled_rdtW_iff : enabled .rdtW s = true ↔ s.life ≠ lifeUnused ∧
    (CallerIsAt .passAdv s ∧ s.call.argIdx = nextIndex s.cfg.ringSize s.tailC ∨
      CallerIsAt .initTail s ∧ s.call.argIdx = BitVec.ofNat 16 (s.cfg.ringSize - 1)) := by
  simp [enabled_inner_iff (op := .rdtW) (by decide), usedBy, or_and_right, exists_or, and_assoc,
    and_comm (a := CallerIsAt _ s)]

theorem enabled_icrR_iff : enabled .icrR s = true ↔ s.life ≠ lifeUnused ∧ CallerIsAt .irqAck s :=
  enabled_iff_of_usedBy_one (by decide) fun _ => rfl

theorem enabled_imsW_iff : enabled .imsW s = true ↔ s.life ≠ lifeUnused ∧
    (CallerIsAt .irqRearm s ∨ CallerIsAt .initArm s) := by
  simp [enabled_inner_iff (op := .imsW) (by decide), usedBy]

theorem enabled_imcW_iff : enabled .imcW s = true ↔ s.life ≠ lifeUnused ∧ CallerIsAt .quiesceMask s :=
  enabled_iff_of_usedBy_one (by decide) fun _ => rfl

theorem enabled_rdbalW_iff : enabled .rdbalW s = true ↔ s.life ≠ lifeUnused ∧ CallerIsAt .initBal s :=
  enabled_iff_of_usedBy_one (by decide) fun _ => rfl

theorem enabled_rdbahW_iff : enabled .rdbahW s = true ↔ s.life ≠ lifeUnused ∧ CallerIsAt .initBah s :=
  enabled_iff_of_usedBy_one (by decide) fun _ => rfl

theorem enabled_rdlenW_iff : enabled .rdlenW s = true ↔ s.life ≠ lifeUnused ∧ CallerIsAt .initLen s :=
  enabled_iff_of_usedBy_one (by decide) fun _ => rfl

theorem enabled_inspect_iff : enabled .inspect s = true ↔ s.life ≠ lifeUnused ∧
    s.call.argIdx = s.tailC ∧
      (CallerIsAt .passInspU s ∨ CallerIsAt .passInspL s ∨ CallerIsAt .passInspA s) := by
  simp [enabled_inner_iff (op := .inspect) (by decide), usedBy, and_assoc,
    and_left_comm (b := s.call.argIdx = s.tailC), or_assoc]

theorem enabled_advanceTail_iff : enabled .advanceTail s = true ↔ s.life ≠ lifeUnused ∧
    s.call.argIdx = s.tailC ∧ CallerIsAt .passAdv s := by
  simp [enabled_inner_iff (op := .advanceTail) (by decide), usedBy_advanceTail, and_assoc]

theorem enabled_markFree_iff : enabled .markFree s = true ↔ s.life ≠ lifeUnused ∧
    s.call.argIdx = s.tailC ∧
      (CallerIsAt .passClrR s ∨ CallerIsAt .passClrW s ∧ s.call.argByte = s.clrTmp) := by
  simp [enabled_inner_iff (op := .markFree) (by decide), usedBy, and_assoc,
    and_comm (b := s.call.argIdx = s.tailC), or_and_right, exists_or, and_comm (a := CallerIsAt _ s)]

/-! What it is, for each step of a "Used by" line, that the caller is at it. -/

/-- The WALKER in a pass is at the step its state names (10_state.md R30). -/
theorem callerIsAt_pass
    (hp : p ∈ [.passSnapH, .passSnapT, .passTest, .passAdv, .passRrH, .passRrT, .passInspU, .passInspL,
      .passInspA, .passConsume, .passClrR, .passClrW]) :
    CallerIsAt p s ↔ s.call.caller = .walker ∧ s.wstate = encode p := by
  cases p
  case passSnapH | passSnapT | passTest | passAdv | passRrH | passRrT | passInspU | passInspL | passInspA |
      passConsume | passClrR | passClrW =>
    exact and_congr_right fun _ => beq_iff_eq
  all_goals exact absurd hp (by decide)

/-- HOSTCMD past the first operation of a command is at the step its state names (10_state.md R32). -/
theorem callerIsAt_host
    (hp : p ∈ [.portRdT, .initDescA, .initDescL, .initDescU, .initBah, .initBal, .initLen, .initTail,
      .initArm]) :
    CallerIsAt p s ↔ s.call.caller = .hostcmd ∧ s.hstate = encode p := by
  cases p
  case portRdT | initDescA | initDescL | initDescU | initBah | initBal | initLen | initTail | initArm =>
    exact and_congr_right fun _ => beq_iff_eq
  all_goals exact absurd hp (by decide)

theorem callerIsAt_irqRearm : CallerIsAt .irqRearm s ↔ s.call.caller = .ife ∧ s.istate = iRearm :=
  and_congr_right fun _ => beq_iff_eq

theorem callerIsAt_irqAck : CallerIsAt .irqAck s ↔
    s.call.caller = .ife ∧ s.life = lifeReady ∧ s.istate = iIdle ∧ irq s.dev = true := by
  simp only [CallerIsAt, stepEnabled, Bool.and_eq_true, beq_iff_eq, and_assoc]; rfl

theorem callerIsAt_portRdH : CallerIsAt .portRdH s ↔
    s.call.caller = .hostcmd ∧ s.hstate = hIdle ∧ s.life = lifeReady ∧
      ∃ len rest, s.cmds = .portRead true len :: rest ∧ 4 ≤ len := by
  simp only [CallerIsAt, stepEnabled, Bool.and_eq_true, beq_iff_eq, portReadAccepted_iff]; rfl

theorem callerIsAt_quiesceMask : CallerIsAt .quiesceMask s ↔
    s.call.caller = .hostcmd ∧ s.hstate = hIdle ∧ s.life = lifeReady ∧ s.istate = iIdle ∧
      ∃ rest, s.cmds = .quiesce :: rest := by
  simp only [CallerIsAt, stepEnabled, Bool.and_eq_true, beq_iff_eq, quiesceAccepted_iff]; rfl

end Enabled

/-- Settles O57: the steps of each "Used by" line, and where each of them is its agent's next. -/
theorem transactionsAreEnabledInTheirStepsOnly : Obligations.TransactionsAreEnabledInTheirStepsOnly := by
  intro s hl
  refine ⟨?_, ?_, ?_, ?_, ?_, ?_, ?_, ?_, ?_, ?_, ?_, ?_⟩
  · rw [enabled_rdhR_iff, and_iff_right hl, callerIsAt_pass (by decide), callerIsAt_pass (by decide),
      callerIsAt_portRdH, ← or_assoc, ← and_or_left]
    rfl
  · rw [enabled_rdtR_iff, and_iff_right hl, callerIsAt_pass (by decide), callerIsAt_pass (by decide),
      callerIsAt_host (by decide), ← or_assoc, ← and_or_left]
    rfl
  · rw [enabled_rdtW_iff, and_iff_right hl, callerIsAt_pass (by decide), callerIsAt_host (by decide), and_assoc,
      and_assoc]
    rfl
  · rw [enabled_icrR_iff, and_iff_right hl, callerIsAt_irqAck]
  · rw [enabled_imsW_iff, and_iff_right hl, callerIsAt_irqRearm, callerIsAt_host (by decide)]
    rfl
  · rw [enabled_imcW_iff, and_iff_right hl, callerIsAt_quiesceMask]
  · rw [enabled_rdbalW_iff, and_iff_right hl, callerIsAt_host (by decide)]
    rfl
  · rw [enabled_rdbahW_iff, and_iff_right hl, callerIsAt_host (by decide)]
    rfl
  · rw [enabled_rdlenW_iff, and_iff_right hl, callerIsAt_host (by decide)]
    rfl
  · rw [enabled_inspect_iff, and_iff_right hl, callerIsAt_pass (by decide), callerIsAt_pass (by decide),
      callerIsAt_pass (by decide), ← and_or_left, ← and_or_left, and_left_comm]
    rfl
  · rw [enabled_advanceTail_iff, and_iff_right hl, callerIsAt_pass (by decide), and_left_comm]
    rfl
  · rw [enabled_markFree_iff, and_iff_right hl, callerIsAt_pass (by decide), callerIsAt_pass (by decide),
      and_assoc, ← and_or_left, and_left_comm]
    rfl

/-! ## The index reads (R122, R123) -/

theorem indexOfWord_eq_setWidth (w : Word) : indexOfWord w = w.setWidth 16 :=
  (BitVec.setWidth_eq_extractLsb' (by decide)).symm

/-- Settles O8: the index in a register word is its lower half. -/
theorem indexReadsTakeTheLowHalf : Obligations.IndexReadsTakeTheLowHalf := by
  intro s
  refine ⟨fun h => execRdhR_next.2 ⟨h, ?_⟩, fun h => execRdtR_next.2 ⟨h, ?_⟩⟩ <;>
    rw [indexOfWord_eq_setWidth]

/-! ## The cause read (R125) -/

theorem irq_of_cause_zero {d : Device} (h : d.cause = 0#32) : irq d = false := by
  simp [irq, h]

/-- Settles O9: with no cause left there is no signal, and clearing again changes nothing. -/
theorem causeReadClears : Obligations.CauseReadClears := by
  intro s h
  refine ⟨_, execIcrR_next.2 ⟨h, rfl⟩, ?_, irq_of_cause_zero rfl, fun a => ⟨_, readCause_eq _ _, rfl⟩⟩
  rw [(enabled_icrR_iff.1 h).2.caller]; rfl

/-! ## The register writes (R124, R126 to R130) -/

theorem maskClear_getLsbD (m d : Word) : ∀ k < 32,
    (m &&& ~~~d).getLsbD k = (m.getLsbD k && !d.getLsbD k) := by
  intro k hk
  simp [hk]

theorem baseHigh_append_baseLow (base : DWord) : baseHigh base ++ baseLow base = base :=
  BitVec.extractLsb'_append_extractLsb'

/-- The ring's size in bytes fits a register word (R130). -/
theorem ringLength_toNat {cfg : Config} (h : cfg.Ok) : (ringLength cfg).toNat = cfg.ringSize * 16 := by
  obtain ⟨-, hmax, -⟩ := h
  rw [ringLength, BitVec.toNat_ofNat, Config.ringBytes, descSize]
  omega

/-- Settles O10: each word written, as a number or by its bits. -/
theorem registerWritesReachTheDevice : Obligations.RegisterWritesReachTheDevice := by
  intro s
  refine ⟨fun h => ⟨_, wordOfIndex_toNat _, execRdtW_next.2 ⟨h, rfl⟩⟩,
    fun h => ⟨_, fun k _ => BitVec.getLsbD_or, execImsW_next.2 ⟨h, rfl⟩⟩,
    fun h => ⟨_, maskClear_getLsbD _ _, execImcW_next.2 ⟨h, ?_⟩⟩,
    ⟨_, _, baseHigh_append_baseLow _, fun h => execRdbalW_next.2 ⟨h, ?_⟩,
      fun h => execRdbahW_next.2 ⟨h, ?_⟩⟩,
    fun hok h => ⟨_, ringLength_toNat hok, execRdlenW_next.2 ⟨h, ?_⟩⟩⟩
  · rw [(enabled_imcW_iff.1 h).2.caller]; rfl
  · rw [(enabled_rdbalW_iff.1 h).2.caller]; rfl
  · rw [(enabled_rdbahW_iff.1 h).2.caller]; rfl
  · rw [(enabled_rdlenW_iff.1 h).2.caller]; rfl

/-! ## Refused accesses (R120, R121, R131, 20_memory.md R63, R65, R78) -/

section Refused
variable {a : Agent} {r : Reg} {v : Word} {s : State} {addr : DWord} {n : Nat}

theorem rd32_refused (h : r ∉ [.rdh, .rdt, .icr]) : rd32 a r s = .refused (.registerNotReadable r) := by
  cases r
  case rdh | rdt | icr => exact absurd h (by decide)
  all_goals rfl

theorem wr32_refused (h : r ∈ [.ctrl, .status, .rctl, .rdh, .icr]) :
    wr32 a r v s = .refused (.registerNotWritable r) := by
  cases r
  case ctrl | status | rctl | rdh | icr => rfl
  all_goals exact absurd h (by decide)

theorem memRead_memWrite_of_accessRefusal {v : DWord} {r : Refusal} (h : accessRefusal s addr n = some r) :
    memRead a addr n s = .refused r ∧ memWrite a addr n v s = .refused r := by
  simp [memRead, memWrite, h]

theorem mem_accessSizes : n ∈ [1, 4, 8] ↔ n = 1 ∨ n = 4 ∨ n = 8 := by simp

theorem accessRefusal_badSize (hn : n ∉ [1, 4, 8]) : accessRefusal s addr n = some (.badSize n) :=
  if_pos (mt mem_accessSizes.2 hn)

theorem accessRefusal_misaligned (hn : n ∈ [1, 4, 8]) (ha : addr.toNat % n ≠ 0) :
    accessRefusal s addr n = some (.misaligned addr n) :=
  (if_neg (not_not_intro (mem_accessSizes.1 hn))).trans (if_pos ha)

theorem insideRing_eq_false
    (h : addr.toNat < s.ringBase.toNat ∨ s.ringBase.toNat + 16 * s.cfg.ringSize < addr.toNat + n) :
    insideRing s.cfg s.ringBase addr n = false := by
  rw [insideRing, decide_eq_false_iff_not, Config.ringBytes, descSize]
  omega

theorem accessRefusal_outsideRing (hn : n ∈ [1, 4, 8]) (ha : addr.toNat % n = 0)
    (h : addr.toNat < s.ringBase.toNat ∨ s.ringBase.toNat + 16 * s.cfg.ringSize < addr.toNat + n) :
    accessRefusal s addr n = some (.outsideRing addr n) := by
  rw [accessRefusal, if_neg (not_not_intro (mem_accessSizes.1 hn)), if_neg (not_not_intro ha),
    insideRing_eq_false h, if_neg Bool.false_ne_true]

end Refused

/-- Settles O11: size is judged first, then alignment, then the place in the ring. -/
theorem forbiddenAccessesAreRefused : Obligations.ForbiddenAccessesAreRefused :=
  ⟨fun _ _ _ => rd32_refused, fun _ _ _ _ => wr32_refused, fun _ _ _ _ _ =>
    ⟨fun hn => memRead_memWrite_of_accessRefusal (accessRefusal_badSize hn),
      fun hn ha => memRead_memWrite_of_accessRefusal (accessRefusal_misaligned hn ha),
      fun hn ha h => memRead_memWrite_of_accessRefusal (accessRefusal_outsideRing hn ha h)⟩⟩

end Sys2Proof.Machine
end

section
/-! Proofs/RingPrimitives.lean: family RING (41_ring_primitives.md R140 to R148): the laws of the ring's
arithmetic and the five results worked out on the call port; ADVANCE_TAIL; and INSPECT and MARK_FREE part by
part, by themselves and as the steps of a pass that perform them, which run one after another give the whole
of each. -/

namespace Sys2Proof.Machine

/-! ## The laws of the ring (R148) -/

section RingLaws
variable {n : Nat} {i t u : Half}

/-- Short of a whole round, NEXT never leads back. -/
theorem iterate_nextIndex_ne_self (hn' : n ≤ 65536) (hi : i.toNat < n) {k : Nat} (hk0 : 0 < k)
    (hk : k < n) : (nextIndex n)^[k] i ≠ i := by
  intro hback
  have hdist := ringDistance_iterate_nextIndex hn' hi hk
  rw [hback, (ringDistance_eq_zero hi hi).2 rfl] at hdist
  omega

/-- A whole round of NEXTs leads back. -/
theorem iterate_nextIndex_ringSize (hn' : n ≤ 65536) (hi : i.toNat < n) : (nextIndex n)^[n] i = i := by
  apply BitVec.eq_of_toNat_eq
  rw [iterate_nextIndex_toNat (by omega) hn' hi, Nat.add_mod_right, Nat.mod_eq_of_lt hi]

theorem prevIndex_nextIndex (hn' : n ≤ 65536) (hi : i.toNat < n) : prevIndex n (nextIndex n i) = i := by
  apply BitVec.eq_of_toNat_eq
  rw [prevIndex_toNat (by omega) hn', nextIndex_toNat (by omega) hn']
  obtain hlast | hlt : i.toNat + 1 = n ∨ i.toNat + 1 < n := by omega
  · rw [hlast, Nat.mod_self, if_pos rfl]; omega
  · rw [Nat.mod_eq_of_lt hlt, if_neg (Nat.succ_ne_zero _), Nat.add_sub_cancel]

theorem nextIndex_prevIndex (hn' : n ≤ 65536) (hi : i.toNat < n) : nextIndex n (prevIndex n i) = i := by
  apply BitVec.eq_of_toNat_eq
  rw [nextIndex_toNat (by omega) hn', prevIndex_toNat (by omega) hn']
  split
  next hzero => rw [hzero, Nat.sub_add_cancel (by omega), Nat.mod_self]
  next hpos => rw [Nat.sub_add_cancel (by omega), Nat.mod_eq_of_lt hi]

/-- From one index to another it is as many NEXTs as the one lies from the other round the ring. -/
theorem iterate_nextIndex_ringDistance (hn' : n ≤ 65536) (ht : t.toNat < n) (hu : u.toNat < n) :
    (nextIndex n)^[ringDistance n t u] t = u := by
  apply BitVec.eq_of_toNat_eq
  rw [iterate_nextIndex_toNat (by omega) hn' ht, ringDistance_eq ht hu]
  split
  · rw [Nat.add_sub_cancel' (by assumption), Nat.mod_eq_of_lt hu]
  · rw [Nat.add_sub_cancel' (by omega), Nat.add_mod_right, Nat.mod_eq_of_lt hu]

/-- And by fewer NEXTs it is not to be had. -/
theorem ringDistance_le_of_iterate (hn' : n ≤ 65536) (ht : t.toNat < n) {k : Nat}
    (hk : (nextIndex n)^[k] t = u) : ringDistance n t u ≤ k := by
  by_cases hkn : k < n
  · rw [← hk, ringDistance_iterate_nextIndex hn' ht hkn]
  · have hlt := ringDistance_lt (n := n) (by omega) t u
    omega

end RingLaws

/-- Settles O17: PENDCNT is a distance round the ring, and NEXT goes one step further round it. -/
theorem ringLaws : Obligations.RingLaws := by
  intro n hn hn' i hi
  refine ⟨iterate_nextIndex_toNat (by omega) hn' hi, iterate_nextIndex_ringSize hn' hi,
    fun _ => iterate_nextIndex_ne_self hn' hi, prevIndex_nextIndex hn' hi, nextIndex_prevIndex hn' hi,
    fun t ht => ?_⟩
  rw [pendingCount_toNat (by omega) hn' hi ht]
  exact ⟨iterate_nextIndex_ringDistance hn' ht (prevIndex_lt (by omega) hn' hi),
    fun _ => ringDistance_le_of_iterate hn' ht⟩

/-! ## Ring arithmetic on the call port (R140 to R143, R146; log 10) -/

section CallPort
variable {s : State}

theorem exec_nextIdx : exec .nextIdx s = .next { s with
    call := { s.call with resIdx := nextIndex s.cfg.ringSize s.call.argIdx } } :=
  rfl

theorem exec_prevIdx : exec .prevIdx s = .next { s with
    call := { s.call with resIdx := prevIndex s.cfg.ringSize s.call.argIdx } } :=
  rfl

theorem exec_pendcnt : exec .pendcnt s = .next { s with
    call := { s.call with resCount := pendingCount s.cfg.ringSize s.call.argIdx s.call.argIdx2 } } :=
  rfl

theorem exec_isdone : exec .isdone s = .next { s with
    call := { s.call with resBit := isDone s.cfg.doneMask s.call.argByte } } :=
  rfl

/-- INIT.LATCH has written `ring_base` in INIT and while a ring exists (10_state.md R37). -/
theorem ringBaseWritten_iff :
    ringBaseWritten s = true ↔ s.life ≠ lifeUnattached ∨ s.hstate ∈ initStates := by
  simp [ringBaseWritten]

theorem exec_descAddr (h : ringBaseWritten s = true) : exec .descAddr s = .next { s with
    call := { s.call with resAddr := descAddress s.ringBase s.call.argIdx } } :=
  whenEnabled_of_enabled (i := .descAddr) h

end CallPort

theorem isDone_iff {doneMask b : Byte} : isDone doneMask b = true ↔ b &&& doneMask = doneMask :=
  beq_iff_eq

/-- The done test bit by bit (R146). -/
theorem isDone_iff_getLsbD {doneMask b : Byte} :
    isDone doneMask b = true ↔ ∀ k < 8, doneMask.getLsbD k = true → b.getLsbD k = true := by
  rw [isDone_iff, BitVec.eq_of_getLsbD_eq_iff]
  refine forall₂_congr fun k _ => ?_
  rw [BitVec.getLsbD_and, Bool.and_eq_right_iff_imp]

/-- Settles O12: each operation's result as the function it computes, and that function as a number or by
its bits. -/
theorem ringArithmeticResults : Obligations.RingArithmeticResults := by
  intro s ⟨hmin, hmax, _⟩
  have hpos : 0 < s.cfg.ringSize := by omega
  refine ⟨⟨_, nextIndex_toNat hpos hmax _, exec_nextIdx⟩,
    fun _ => ⟨_, prevIndex_toNat hpos hmax _, exec_prevIdx⟩,
    fun hwritten hb hi => ⟨_, descAddress_toNat hb hi, exec_descAddr (ringBaseWritten_iff.2 hwritten)⟩,
    ⟨_, isDone_iff_getLsbD, exec_isdone⟩⟩

/-- Settles O13: PENDCNT is the distance round the ring to the head's predecessor. -/
theorem pendingCountResult : Obligations.PendingCountResult := by
  intro s ⟨hmin, hmax, _⟩ hh ht
  have hpos : 0 < s.cfg.ringSize := by omega
  refine ⟨_, ?_, ?_, exec_pendcnt⟩ <;> rw [pendingCount_toNat hpos hmax hh ht]
  · rw [ringDistance, prevIndex_toNat hpos hmax]
  · exact ringDistance_lt hpos _ _

/-! ## ADVANCE_TAIL (R145) -/

/-- Settles O15: the word written is the index returned, and the one caller is the WALKER. -/
theorem advanceTailWritesTheSuccessor : Obligations.AdvanceTailWritesTheSuccessor := by
  intro s ⟨hmin, hmax, _⟩ he
  obtain ⟨-, -, hat⟩ := enabled_advanceTail_iff.1 he
  refine ⟨_, _, nextIndex_toNat (by omega) hmax _, wordOfIndex_toNat _, execAdvanceTail_next.2 ⟨he, ?_⟩⟩
  rw [hat.caller]; rfl

/-! ## INSPECT, part by part (R144, R167 to R169) -/

/-- INSPECT is asked of the descriptor at the tail cursor, by the WALKER. -/
theorem caller_and_argIdx_of_inspect {s : State} (he : enabled .inspect s = true) :
    s.call.caller = .walker ∧ s.call.argIdx = s.tailC := by
  obtain ⟨-, hi, hat | hat | hat⟩ := enabled_inspect_iff.1 he <;> exact ⟨hat.caller, hi⟩

section Descriptor
variable {s : State} (hb : goodBase s.cfg s.ringBase = true) (htail : s.tailC.toNat < s.cfg.ringSize)
include hb htail

theorem exec_inspect_upper (he : enabled .inspect s = true) (hw : s.wstate = wInspU) :
    exec .inspect s = .next { s with
      call := { s.call with resView := { s.call.resView with
        status := descByte s s.call.argIdx 12, errors := descByte s s.call.argIdx 13 } },
      trace := .memRd .walker (descAddress s.ringBase s.call.argIdx + 12#64) 4
        ((descWord s s.call.argIdx 12).setWidth 64) :: s.trace } := by
  obtain ⟨hcaller, hi⟩ := caller_and_argIdx_of_inspect he
  refine execInspect_next.2 ⟨he, ?_⟩
  rw [if_pos hw, hcaller, hi, readLE_descWord hb htail 12 (by decide), upperStatus_descWord,
    upperErrors_descWord]
  exact ⟨accessRefusal_at 12 4 hb htail (by decide) (by decide) (by decide), rfl⟩

theorem exec_inspect_lower (he : enabled .inspect s = true) (hw : s.wstate = wInspL) :
    exec .inspect s = .next { s with
      call := { s.call with resView := { s.call.resView with length := descLength s s.call.argIdx } },
      trace := .memRd .walker (descAddress s.ringBase s.call.argIdx + 8#64) 4
        ((descWord s s.call.argIdx 8).setWidth 64) :: s.trace } := by
  obtain ⟨hcaller, hi⟩ := caller_and_argIdx_of_inspect he
  refine execInspect_next.2 ⟨he, ?_⟩
  rw [hw, if_neg (by decide), if_pos rfl, hcaller, hi, readLE_descWord hb htail 8 (by decide),
    lowerLength_descWord]
  exact ⟨accessRefusal_at 8 4 hb htail (by decide) (by decide) (by decide), rfl⟩

theorem exec_inspect_addr (he : enabled .inspect s = true) (hw : s.wstate = wInspA) :
    exec .inspect s = .next { s with
      call := { s.call with resView := { s.call.resView with addr := descAddrField s s.call.argIdx } },
      trace := .memRd .walker (descAddress s.ringBase s.call.argIdx) 8
        (descAddrField s s.call.argIdx) :: s.trace } := by
  obtain ⟨hcaller, hi⟩ := caller_and_argIdx_of_inspect he
  refine execInspect_next.2 ⟨he, ?_⟩
  rw [hw, if_neg (by decide), if_neg (by decide), hcaller, hi, readLE_descAddrField hb htail]
  exact ⟨accessRefusal_descriptor hb htail, rfl⟩

theorem exec_passInspU (hw : s.wstate = wInspU) : exec .passInspU s = .next { s with
    view := { s.view with status := descByte s s.tailC 12, errors := descByte s s.tailC 13 },
    wstate := wInspL,
    trace := .memRd .walker (descAddress s.ringBase s.tailC + 12#64) 4
      ((descWord s s.tailC 12).setWidth 64) :: s.trace } := by
  refine execPassInspU_next.2
    ⟨hw, accessRefusal_at 12 4 hb htail (by decide) (by decide) (by decide), ?_⟩
  rw [readLE_descWord hb htail 12 (by decide), upperStatus_descWord, upperErrors_descWord]

theorem exec_passInspL (hw : s.wstate = wInspL) : exec .passInspL s = .next { s with
    view := { s.view with length := descLength s s.tailC },
    wstate := wInspA,
    trace := .memRd .walker (descAddress s.ringBase s.tailC + 8#64) 4
      ((descWord s s.tailC 8).setWidth 64) :: s.trace } := by
  refine execPassInspL_next.2
    ⟨hw, accessRefusal_at 8 4 hb htail (by decide) (by decide) (by decide), ?_⟩
  rw [readLE_descWord hb htail 8 (by decide), lowerLength_descWord]

/-- The branch is on the status latched by part U, not on memory (R169). -/
theorem exec_passInspA (hw : s.wstate = wInspA) : exec .passInspA s = .next { s with
    view := { s.view with addr := descAddrField s s.tailC },
    wstate := if s.view.status &&& s.cfg.doneMask = s.cfg.doneMask then wConsume else wTest,
    trace := .memRd .walker (descAddress s.ringBase s.tailC) 8 (descAddrField s s.tailC) ::
      s.trace } := by
  refine execPassInspA_next.2 ⟨hw, accessRefusal_descriptor hb htail, ?_⟩
  simp only [readLE_descAddrField hb htail, isDone_iff]

end Descriptor

/-! ## Steps of one agent with nothing between -/

/-- An agent that comes first in the schedule performs its next step; the rest of the run follows. -/
theorem run_succ_of_agent {a : Agent} {p : Instr} {k : Nat} {s t : State} {rest : List Move}
    (hsched : s.sched = .agent a :: rest) (hl : s.life ≠ lifeUnused) (hs : a.sequences p = true)
    (he : stepEnabled p s = true) (e : exec p { s with sched := rest } = .next t) :
    run (k + 1) s = run k t := by
  rw [run, step_of_agent hsched,
    agentStep_of_some (s := { s with sched := rest }) (agentOperation_eq_some.2 ⟨hl, hs, he⟩), e,
    andThen_next]

/-- Settles O14: each part reads its own word of the descriptor, and the three steps of a pass that
perform the parts run on from one another. -/
theorem inspectReadsTheDescriptor : Obligations.InspectReadsTheDescriptor := by
  intro s _ hb htail
  refine ⟨fun he => ⟨exec_inspect_upper hb htail he, exec_inspect_lower hb htail he,
    exec_inspect_addr hb htail he⟩, fun hl hw => ?_⟩
  calc run 3 (s.scheduled 3 .walker)
    _ = run 2 _ :=
      run_succ_of_agent (p := .passInspU) rfl hl rfl (beq_iff_eq.2 hw) (exec_passInspU hb htail hw)
    _ = run 1 _ := run_succ_of_agent rfl hl rfl rfl (exec_passInspL hb htail rfl)
    _ = run 0 _ := run_succ_of_agent rfl hl rfl rfl (exec_passInspA hb htail rfl)

/-! ## MARK_FREE, part by part (R147, R171, R172) -/

theorem Memory.readLE_one (m : Memory) (addr : DWord) :
    m.readLE addr 1 = (m.read addr.toNat).setWidth 64 := by
  simp [Memory.readLE]

theorem Memory.writeBytes_bytesLE_one (m : Memory) (addr : DWord) (b : Byte) :
    m.writeBytes addr (bytesLE (b.setWidth 64) 1) = m.write addr.toNat b := by
  simp [bytesLE, Memory.writeBytes]

/-- MARK_FREE is asked of the descriptor at the tail cursor, by the WALKER. -/
theorem caller_and_argIdx_of_markFree {s : State} (he : enabled .markFree s = true) :
    s.call.caller = .walker ∧ s.call.argIdx = s.tailC := by
  obtain ⟨-, hi, hat | ⟨hat, -⟩⟩ := enabled_markFree_iff.1 he <;> exact ⟨hat.caller, hi⟩

/-- What writing one byte leaves of memory. -/
theorem Memory.write_wf_and_read {m : Memory} (hm : m.wf = true) (addr : DWord) (b : Byte) :
    (m.write addr.toNat b).wf = true ∧
      ∀ x, (m.write addr.toNat b).read x = if x = addr.toNat then b else m.read x :=
  ⟨Memory.write_wf _ _ _ addr.isLt hm, fun x => Memory.read_write _ _ _ x hm⟩

section StatusByte
variable {s : State} (hb : goodBase s.cfg s.ringBase = true) (htail : s.tailC.toNat < s.cfg.ringSize)
include hb htail

theorem readLE_status : s.mem.readLE (descAddress s.ringBase s.tailC + upperOff) 1 =
    (descByte s s.tailC 12).setWidth 64 := by
  rw [Memory.readLE_one, fieldAddress_toNat _ hb htail (by decide), ← descAddress_toNat hb htail]
  rfl

theorem exec_markFree_read (he : enabled .markFree s = true) (hw : s.wstate = wClrR) :
    exec .markFree s = .next { s with
      call := { s.call with resByte := descByte s s.call.argIdx 12 },
      trace := .memRd .walker (descAddress s.ringBase s.call.argIdx + 12#64) 1
        ((descByte s s.call.argIdx 12).setWidth 64) :: s.trace } := by
  obtain ⟨hcaller, hi⟩ := caller_and_argIdx_of_markFree he
  refine execMarkFree_next.2 ⟨he, ?_⟩
  rw [if_pos hw, hcaller, hi, readLE_status hb htail, BitVec.setWidth_setWidth_of_le _ (by decide),
    BitVec.setWidth_eq]
  exact ⟨accessRefusal_at 12 1 hb htail (by decide) (by decide) (by decide), rfl⟩

theorem exec_markFree_write (he : enabled .markFree s = true) (hw : s.wstate = wClrW) :
    exec .markFree s = .next { s with
      mem := s.mem.write (descAddress s.ringBase s.call.argIdx + 12#64).toNat
        (clearedStatus s.cfg.doneMask s.call.argByte),
      trace := .memWr .walker (descAddress s.ringBase s.call.argIdx + 12#64) 1
        ((clearedStatus s.cfg.doneMask s.call.argByte).setWidth 64) :: s.trace } := by
  obtain ⟨hcaller, hi⟩ := caller_and_argIdx_of_markFree he
  refine execMarkFree_next.2 ⟨he, ?_⟩
  rw [hw, if_neg (by decide), hcaller, hi, Memory.writeBytes_bytesLE_one]
  exact ⟨accessRefusal_at 12 1 hb htail (by decide) (by decide) (by decide), rfl⟩

theorem exec_passClrR (hw : s.wstate = wClrR) : exec .passClrR s = .next { s with
    clrTmp := descByte s s.tailC 12, wstate := wClrW,
    trace := .memRd .walker (descAddress s.ringBase s.tailC + 12#64) 1
      ((descByte s s.tailC 12).setWidth 64) :: s.trace } := by
  refine execPassClrR_next.2
    ⟨hw, accessRefusal_at 12 1 hb htail (by decide) (by decide) (by decide), ?_⟩
  rw [readLE_status hb htail, BitVec.setWidth_setWidth_of_le _ (by decide), BitVec.setWidth_eq]

theorem exec_passClrW (hw : s.wstate = wClrW) : exec .passClrW s = .next { s with
    mem := s.mem.write (descAddress s.ringBase s.tailC + 12#64).toNat
      (clearedStatus s.cfg.doneMask s.clrTmp),
    wstate := wTest,
    trace := .memWr .walker (descAddress s.ringBase s.tailC + 12#64) 1
      ((clearedStatus s.cfg.doneMask s.clrTmp).setWidth 64) :: s.trace } := by
  refine execPassClrW_next.2
    ⟨hw, accessRefusal_at 12 1 hb htail (by decide) (by decide) (by decide), ?_⟩
  rw [Memory.writeBytes_bytesLE_one]

end StatusByte

/-- Settles O16: each part is one access to the status byte, and the two steps of a pass that perform the
parts run on from one another. -/
theorem markFreeClearsTheDoneBits : Obligations.MarkFreeClearsTheDoneBits := by
  intro s _ hm hb htail
  refine ⟨fun he => ⟨exec_markFree_read hb htail he, fun hw =>
    ⟨_, exec_markFree_write hb htail he hw, rfl, Memory.write_wf_and_read hm _ _⟩⟩, fun hl hw => ?_⟩
  have hread : run 2 (s.scheduled 2 .walker) = run 1 _ :=
    run_succ_of_agent (p := .passClrR) rfl hl rfl (beq_iff_eq.2 hw) (exec_passClrR hb htail hw)
  have hwrite := hread.trans (run_succ_of_agent rfl hl rfl rfl (exec_passClrW hb htail rfl))
  exact ⟨_, hwrite, rfl, Memory.write_wf_and_read hm _ _⟩

end Sys2Proof.Machine
end

section
/-! Proofs/ServicePass.lean: family PASS (42_service_pass.md R160 to R185): when a pass is abandoned, and
what every other step keeps of its failure record; the bound on its steps; that none is abandoned while the
DEVICE keeps its contract; the operations one by one; and what they write. -/

namespace Sys2Proof.Machine

/-! ## The failure record (R175, 60_exceptions.md R231) -/

/-- The event is the `Log` of an abandoned pass. -/
def Event.isLog : Event → Bool
  | .log _ _ _ => true
  | .regRd _ _ _ | .regWr _ _ _ | .memRd _ _ _ _ | .memWr _ _ _ _ | .consume _ _ _ _ _
  | .portReply _ _ _ | .refused _ | .initDone | .quiesced
  | .devMem _ _ | .devHead _ | .devRaise _ => false

/-- The history `new` is `old` with more events on top, none of them one that `p` picks out. -/
def AddsNone (p : Event → Bool) (old new : List Event) : Prop :=
  ∃ l, new = l ++ old ∧ ∀ e ∈ l, p e = false

namespace AddsNone

variable {p : Event → Bool} {old new : List Event}

theorem same : AddsNone p old old := ⟨[], rfl, nofun⟩

theorem event {e : Event} (he : p e = false) : AddsNone p old (e :: old) :=
  ⟨[e], rfl, List.forall_mem_singleton.2 he⟩

theorem events {e e' : Event} (he : p e = false) (he' : p e' = false) :
    AddsNone p old (e' :: e :: old) :=
  ⟨[e', e], rfl, List.forall_mem_cons.2 ⟨he', List.forall_mem_singleton.2 he⟩⟩

theorem not_mem_log (h : AddsNone Event.isLog old new) :
    ∃ l, new = l ++ old ∧ ∀ code head tail, .log code head tail ∉ l := by
  obtain ⟨l, hnew, hl⟩ := h
  exact ⟨l, hnew, fun _ _ _ hmem => Bool.noConfusion (hl _ hmem)⟩

end AddsNone

/-- Going from `s` to `t` leaves the failure record as it is and logs no failure. -/
structure KeepsRecord (s t : State) : Prop where
  errSeen : t.errSeen = s.errSeen
  errCode : t.errCode = s.errCode
  trace : AddsNone Event.isLog s.trace t.trace

/-- Going from `s` to `t` abandons the pass with `code` (R175). -/
structure Abandons (code : BitVec 4) (s t : State) : Prop where
  errSeen : t.errSeen = true
  errCode : t.errCode = code
  trace : ∃ head tail mid, t.trace = .log code head tail :: mid ∧ AddsNone Event.isLog s.trace mid
  wstate : t.wstate = wIdle
  pending : t.pending = s.pending
  dev : t.dev = s.dev
  mem : t.mem = s.mem

/-- The code with which operation `i` abandons the pass, where it does: an index out of range (R162,
R165), iterations at the cap (R163), a tail that does not read back (R166). -/
def abandonCode (i : Instr) (s : State) : Option (BitVec 4) :=
  match i with
  | .passSnapT =>
    if inRange s.cfg.ringSize s.headS && inRange s.cfg.ringSize s.dev.tail then none
    else some eIndexRange
  | .passTest =>
    if s.tailC = s.prevHead then none
    else if s.cfg.iterCap ≤ s.iter.toNat then some eIterCap
    else none
  | .passRrH => if inRange s.cfg.ringSize s.dev.head then none else some eIndexRange
  | .passRrT => if s.dev.tail = s.tailC then none else some eTailReadback
  | _ => none

theorem abandonCode_eq_some {i : Instr} {s : State} {code : BitVec 4} (h : abandonCode i s = some code) :
    i ∈ [.passSnapT, .passTest, .passRrH, .passRrT] ∧
      code ∈ [eIndexRange, eTailReadback, eIterCap] := by
  cases i
  case passSnapT | passTest | passRrH | passRrT =>
    simp only [abandonCode] at h
    split_ifs at h
    all_goals
      cases h
      decide
  all_goals cases h

/-- Either an operation is one of the four steps that can abandon the pass, and does, or it keeps the
record and logs no failure. -/
theorem exec_abandons_or_keeps {i : Instr} {s t : State} (e : exec i s = .next t) :
    (∃ code, abandonCode i s = some code ∧ Abandons code s t) ∨
      abandonCode i s = none ∧ KeepsRecord s t := by
  cases i
  -- the steps that test what they read
  case passSnapT =>
    obtain ⟨-, rfl⟩ := execPassSnapT_next.1 e
    split
    next h => exact .inr ⟨if_pos h, rfl, rfl, .event rfl⟩
    next h => exact .inl ⟨_, if_neg h, rfl, rfl, ⟨_, _, _, rfl, .event rfl⟩, rfl, rfl, rfl, rfl⟩
  case passTest =>
    obtain ⟨-, rfl⟩ := execPassTest_next.1 e
    split
    next h => exact .inr ⟨if_pos h, rfl, rfl, .same⟩
    next h =>
      split
      next hcap =>
        exact .inl ⟨_, (if_neg h).trans (if_pos hcap), rfl, rfl, ⟨_, _, _, rfl, .same⟩, rfl, rfl, rfl, rfl⟩
      next hcap => exact .inr ⟨(if_neg h).trans (if_neg hcap), rfl, rfl, .same⟩
  case passRrH =>
    obtain ⟨-, rfl⟩ := execPassRrH_next.1 e
    split
    next h => exact .inr ⟨if_pos h, rfl, rfl, .event rfl⟩
    next h => exact .inl ⟨_, if_neg h, rfl, rfl, ⟨_, _, _, rfl, .event rfl⟩, rfl, rfl, rfl, rfl⟩
  case passRrT =>
    obtain ⟨-, rfl⟩ := execPassRrT_next.1 e
    split
    next h => exact .inr ⟨if_pos h, rfl, rfl, .event rfl⟩
    next h => exact .inl ⟨_, if_neg h, rfl, rfl, ⟨_, _, _, rfl, .event rfl⟩, rfl, rfl, rfl, rfl⟩
  all_goals refine .inr ⟨rfl, ?_⟩
  -- no event
  case nextIdx | prevIdx | descAddr | pendcnt | isdone =>
    rw [exec_isPure rfl e]; exact ⟨rfl, rfl, .same⟩
  case passStart => obtain ⟨-, rfl⟩ := execPassStart_next.1 e; exact ⟨rfl, rfl, .same⟩
  case irqSched => obtain ⟨-, rfl⟩ := execIrqSched_next.1 e; exact ⟨rfl, rfl, .same⟩
  case initLatch =>
    obtain ⟨-, -, _, _, _, -, -, rfl⟩ := execInitLatch_next.1 e; exact ⟨rfl, rfl, .same⟩
  -- one event
  case rdhR | rdtR | rdtW | icrR | imsW | imcW | rdbalW | rdbahW | rdlenW | advanceTail =>
    simp only [exec, execRdhR_next, execRdtR_next, execRdtW_next, execIcrR_next, execImsW_next,
      execImcW_next, execRdbalW_next, execRdbahW_next, execRdlenW_next, execAdvanceTail_next] at e
    obtain ⟨-, rfl⟩ := e; exact ⟨rfl, rfl, .event rfl⟩
  case passSnapH | passAdv | passConsume | irqAck | irqRearm | initBah | initBal | initLen | initTail |
      quiesceWait =>
    simp only [exec, execPassSnapH_next, execPassAdv_next, execPassConsume_next, execIrqAck_next,
      execIrqRearm_next, execInitBah_next, execInitBal_next, execInitLen_next, execInitTail_next,
      execQuiesceWait_next] at e
    obtain ⟨-, rfl⟩ := e; exact ⟨rfl, rfl, .event rfl⟩
  case passInspU | passInspL | passInspA | passClrR | passClrW | initDescL =>
    simp only [exec, execPassInspU_next, execPassInspL_next, execPassInspA_next, execPassClrR_next,
      execPassClrW_next, execInitDescL_next] at e
    obtain ⟨-, -, rfl⟩ := e; exact ⟨rfl, rfl, .event rfl⟩
  case inspect =>
    obtain ⟨-, e⟩ := execInspect_next.1 e
    split at e
    · obtain ⟨-, rfl⟩ := e; exact ⟨rfl, rfl, .event rfl⟩
    · split at e <;> (obtain ⟨-, rfl⟩ := e; exact ⟨rfl, rfl, .event rfl⟩)
  case markFree =>
    obtain ⟨-, -, rfl⟩ := execMarkFree_next.1 e
    split <;> exact ⟨rfl, rfl, .event rfl⟩
  case initDescA =>
    obtain ⟨-, _, -, -, rfl⟩ := execInitDescA_next.1 e; exact ⟨rfl, rfl, .event rfl⟩
  case initDescU =>
    obtain ⟨-, -, rfl⟩ := execInitDescU_next.1 e
    split <;> exact ⟨rfl, rfl, .event rfl⟩
  case portRdH =>
    obtain ⟨-, -, _, _, -, -, rfl⟩ := execPortRdH_next.1 e; exact ⟨rfl, rfl, .event rfl⟩
  case portWrite =>
    obtain ⟨-, -, _, _, -, -, rfl⟩ := execPortWrite_next.1 e; exact ⟨rfl, rfl, .event rfl⟩
  case quiesceMask =>
    obtain ⟨-, -, -, _, -, rfl⟩ := execQuiesceMask_next.1 e; exact ⟨rfl, rfl, .event rfl⟩
  -- an access and the reply behind it
  case portRdT | initArm =>
    simp only [exec, execPortRdT_next, execInitArm_next] at e
    obtain ⟨-, rfl⟩ := e; exact ⟨rfl, rfl, .events rfl rfl⟩

/-- Settles O28: of the four steps that can abandon the pass, each does so with its own code. -/
theorem onlyAbandonRecordsAFailure : Obligations.OnlyAbandonRecordsAFailure := by
  intro i s t e
  obtain ⟨code, hcode, h⟩ | ⟨-, h⟩ := exec_abandons_or_keeps e
  · obtain ⟨hi, hmem⟩ := abandonCode_eq_some hcode
    have hvalue : ∀ c ∈ [eIndexRange, eTailReadback, eIterCap], c ≠ 0#4 ∧ c.toNat ≤ 3 := by decide
    obtain ⟨hne, hle⟩ := hvalue code hmem
    obtain ⟨head, tail, l, htrace, -⟩ := h.trace
    refine .inr ⟨by simpa using hi, h.errSeen, ?_, ?_, ?_, h.wstate, h.pending, h.dev, h.mem⟩ <;>
      rw [h.errCode]
    exacts [hne, hle, ⟨head, tail, l, htrace⟩]
  · exact .inl ⟨h.errSeen, h.errCode⟩

/-! ## What the other parties leave of a pass (10_state.md R36) -/

/-- Going from `s` to `t` leaves the pass as it is: the parameters, the latches it goes by, and the failure
record. -/
structure KeepsPass (s t : State) : Prop where
  cfg : t.cfg = s.cfg
  headS : t.headS = s.headS
  tailC : t.tailC = s.tailC
  prevHead : t.prevHead = s.prevHead
  wstate : t.wstate = s.wstate
  record : KeepsRecord s t

theorem KeepsPass.of_sched {s t : State} {l : List Move} (h : KeepsPass { s with sched := l } t) :
    KeepsPass s t :=
  ⟨h.cfg, h.headS, h.tailC, h.prevHead, h.wstate, h.record.errSeen, h.record.errCode, h.record.trace⟩

theorem deviceMove_adds_no_log (m : DevMove) (s : State) :
    AddsNone Event.isLog s.trace (deviceMove m s).trace := by
  unfold deviceMove
  split
  · cases m with
    | fill r => dsimp only; split; exacts [.event rfl, .same]
    | fillNext =>
      dsimp only
      split
      · exact .same
      · split
        · split
          · exact .events rfl rfl
          · exact .event rfl
          · exact .event rfl
        · exact .same
    | raise bits => exact .event rfl
    | upper rdh rdt => exact .same
  · exact .same

theorem deviceMove_keepsPass (m : DevMove) (s : State) : KeepsPass s (deviceMove m s) := by
  have htrace := deviceMove_adds_no_log m s
  obtain h | ⟨_, _, _, _, _, _, h, -, -, -⟩ := deviceMove_cases m s <;> rw [h] at htrace ⊢
  all_goals exact ⟨rfl, rfl, rfl, rfl, rfl, rfl, rfl, htrace⟩

theorem presentCommand_keepsPass (c : Command) (s : State) : KeepsPass s (presentCommand c s) := by
  unfold presentCommand
  split <;> exact ⟨rfl, rfl, rfl, rfl, rfl, rfl, rfl, .same⟩

theorem acceptStep_keepsPass {s t : State} (h : acceptStep s = some t) : KeepsPass s t := by
  obtain ⟨-, -, _, _, _, -, rfl, ⟨_, rfl⟩ | rfl⟩ := acceptStep_cases h <;>
    exact ⟨rfl, rfl, rfl, rfl, rfl, rfl, rfl, .event rfl⟩

/-- The IFE and HOSTCMD have no access to the pass. -/
theorem exec_keepsPass {a : Agent} {i : Instr} {s t : State} (ha : a ≠ .walker)
    (hs : a.sequences i = true) (e : exec i s = .next t) : KeepsPass s t := by
  have hrecord : KeepsRecord s t := by
    obtain ⟨code, hcode, -⟩ | ⟨-, h⟩ := exec_abandons_or_keeps e
    · have hwalker : ∀ i ∈ [.passSnapT, .passTest, .passRrH, .passRrT],
          Agent.sequences .walker i = true := by decide
      exact absurd (Agent.sequences_unique hs (hwalker i (abandonCode_eq_some hcode).1)) ha
    · exact h
  cases a with
  | walker => exact absurd rfl ha
  | ife =>
    obtain ⟨h, -⟩ := execIrq_frame hs e
    rw [h] at hrecord ⊢
    exact ⟨rfl, rfl, rfl, rfl, rfl, hrecord⟩
  | hostcmd =>
    obtain ⟨h, -⟩ := execHost_frame hs e
    rw [h] at hrecord ⊢
    exact ⟨rfl, rfl, rfl, rfl, rfl, hrecord⟩

/-- A step is an operation of the WALKER's, which its entry of the schedule asks for, or it leaves the pass
as it is. -/
theorem step_walks_or_keepsPass {s t : State} (e : step s = .next t) :
    (∃ rest i, Performs s .walker rest i t) ∨ KeepsPass s t := by
  obtain ⟨rest, rfl | ⟨a, i, hs, hop, he⟩ | ⟨-, h⟩ | ⟨_, -, h⟩ | ⟨c, -, rfl⟩ | ⟨m, -, rfl⟩⟩ := step_cases e
  · exact .inr ⟨rfl, rfl, rfl, rfl, rfl, rfl, rfl, .same⟩
  · by_cases ha : a = .walker
    · subst ha
      exact .inl ⟨rest, i, hs, hop, he⟩
    · exact .inr (exec_keepsPass ha (agentOperation_eq_some.1 hop).2.1 he).of_sched
  · exact .inr (acceptStep_keepsPass h).of_sched
  · rw [h]; exact .inr ⟨rfl, rfl, rfl, rfl, rfl, rfl, rfl, .same⟩
  · exact .inr (presentCommand_keepsPass c _).of_sched
  · exact .inr (deviceMove_keepsPass m _).of_sched

/-! ## The bound on a pass (R182) -/

/-- The steps left of the iteration in hand, by the step of the loop that is next. -/
def phaseWork (w : Byte) : Nat :=
  ([(wTest, 1), (wAdv, 0), (wRrH, 9), (wRrT, 8), (wInspU, 7), (wInspL, 6), (wInspA, 5), (wConsume, 4),
    (wClrR, 3), (wClrW, 2)].lookup w).getD 0

theorem passWork_idle {s : State} (h : s.wstate = wIdle) : passWork s = 0 := by
  rw [passWork, h]; rfl

theorem passWork_snapH {s : State} (h : s.wstate = wSnapH) :
    passWork s = 10 * (s.cfg.ringSize - 1) + 3 := by
  rw [passWork, h]; rfl

theorem passWork_snapT {s : State} (h : s.wstate = wSnapT) :
    passWork s = 10 * (s.cfg.ringSize - 1) + 2 := by
  rw [passWork, h]; rfl

theorem passWork_loop {s : State} (h : s.wstate ∈ loopStates) :
    passWork s = 10 * ringDistance s.cfg.ringSize s.tailC s.prevHead + phaseWork s.wstate := by
  simp only [loopStates, List.mem_cons, List.not_mem_nil, or_false] at h
  obtain h | h | h | h | h | h | h | h | h | h := h <;> (rw [passWork, h]; rfl)

theorem KeepsPass.passWork_eq {s t : State} (h : KeepsPass s t) : passWork t = passWork s := by
  simp only [passWork, h.cfg, h.tailC, h.prevHead, h.wstate]

section PassWork
variable {s t : State} {i : Instr}

/-- With an advance left to make, the iterations made are short of `N - 1`. -/
theorem Invariant.iter_lt_of_tailC_ne (hI : Invariant s) (hw : s.wstate ∈ loopStates)
    (hne : s.tailC ≠ s.prevHead) : s.iter.toNat < s.cfg.ringSize - 1 := by
  have hbound := hI.passBound hw
  have hdist := mt (ringDistance_eq_zero (hI.tailC_lt hw) (inRange_iff.1 (hI.prevHeadInRange hw))).1 hne
  omega

theorem Invariant.iter_le (hI : Invariant s) (hw : s.wstate ≠ wIdle) :
    s.iter.toNat ≤ s.cfg.ringSize - 1 := by
  have hsplit : ∀ w ∈ walkerStates, w ≠ wIdle → w ∈ [wSnapH, wSnapT] ∨ w ∈ loopStates := by decide
  obtain hsnap | hloop := hsplit _ hI.walkerLegal hw
  · rw [(hI.passFresh hsnap).1]; exact Nat.zero_le _
  · have hbound := hI.passBound hloop
    omega

theorem Invariant.ringDistance_pos_of_adv (hI : Invariant s) (hw : s.wstate = wAdv) :
    0 < ringDistance s.cfg.ringSize s.tailC s.prevHead := by
  have hloop : s.wstate ∈ loopStates := by rw [hw]; decide
  rw [Nat.pos_iff_ne_zero, ne_eq,
    ringDistance_eq_zero (hI.tailC_lt hloop) (inRange_iff.1 (hI.prevHeadInRange hloop))]
  exact hI.advanceLeft hw

theorem Invariant.passWork_eq_zero_iff (hI : Invariant s) : passWork s = 0 ↔ s.wstate = wIdle := by
  refine ⟨fun h => by_contra fun hbusy => ?_, passWork_idle⟩
  have hsplit : ∀ w ∈ walkerStates, w ≠ wIdle →
      w = wSnapH ∨ w = wSnapT ∨ w ∈ loopStates ∧ (w = wAdv ∨ 0 < phaseWork w) := by decide
  obtain hw | hw | ⟨hw, hphase⟩ := hsplit _ hI.walkerLegal hbusy
  · rw [passWork_snapH hw] at h; omega
  · rw [passWork_snapT hw] at h; omega
  · rw [passWork_loop hw] at h
    have hadv := hI.ringDistance_pos_of_adv
    obtain hphase | hphase := hphase
    · have := hadv hphase; omega
    · omega

/-- From one step of the loop to a later one of the same iteration. -/
theorem passWork_lt_of_phase (w w' : Byte) (hs : s.wstate = w) (ht : t.wstate = w')
    (hw : w ∈ loopStates ∧ w' ∈ loopStates ∧ phaseWork w' < phaseWork w)
    (hd : ringDistance t.cfg.ringSize t.tailC t.prevHead =
      ringDistance s.cfg.ringSize s.tailC s.prevHead) : passWork t < passWork s := by
  subst hs ht
  obtain ⟨hws, hwt, hlt⟩ := hw
  rw [passWork_loop hws, passWork_loop hwt, hd]
  omega

/-- Every operation of a running pass brings its end nearer. -/
theorem execPass_passWork_lt (hI : Invariant s) (hs : Agent.sequences .walker i = true)
    (hbusy : s.wstate ≠ wIdle) (e : exec i s = .next t) : passWork t < passWork s := by
  obtain ⟨hn, hn'⟩ := hI.ringSize_bounds
  have hends {t : State} (h : t.wstate = wIdle) : passWork t < passWork s := by
    rw [passWork_idle h, Nat.pos_iff_ne_zero]
    exact mt hI.passWork_eq_zero_iff.1 hbusy
  cases i
  case passStart =>
    obtain ⟨⟨-, hw, -⟩, -⟩ := execPassStart_next.1 e
    exact absurd hw hbusy
  case passSnapH =>
    obtain ⟨hw, rfl⟩ := execPassSnapH_next.1 e
    rw [passWork_snapH hw, passWork_snapT rfl]
    exact Nat.lt_succ_self _
  case passSnapT =>
    obtain ⟨hw, rfl⟩ := execPassSnapT_next.1 e
    split
    next =>
      have hdist := ringDistance_lt (n := s.cfg.ringSize) (by omega) (indexOfWord s.dev.rdt)
        (prevIndex s.cfg.ringSize s.headS)
      rw [passWork_snapT hw, passWork_loop (show wTest ∈ loopStates by decide)]
      have hphase : phaseWork wTest = 1 := rfl
      dsimp only
      omega
    next => exact hends rfl
  case passTest =>
    obtain ⟨hw, rfl⟩ := execPassTest_next.1 e
    split
    · exact hends rfl
    · split
      · exact hends rfl
      · exact passWork_lt_of_phase wTest wAdv hw rfl (by decide) rfl
  case passAdv =>
    obtain ⟨hw, rfl⟩ := execPassAdv_next.1 e
    have hloop : s.wstate ∈ loopStates := by rw [hw]; decide
    have hdist := ringDistance_next (by omega) hn' (hI.tailC_lt hloop)
      (inRange_iff.1 (hI.prevHeadInRange hloop)) (hI.advanceLeft hw)
    rw [passWork_loop hloop, passWork_loop (show wRrH ∈ loopStates by decide)]
    have hphase : phaseWork wRrH = 9 := rfl
    dsimp only
    omega
  case passRrH =>
    obtain ⟨hw, rfl⟩ := execPassRrH_next.1 e
    split
    · exact passWork_lt_of_phase wRrH wRrT hw rfl (by decide) rfl
    · exact hends rfl
  case passRrT =>
    obtain ⟨hw, rfl⟩ := execPassRrT_next.1 e
    split
    · exact passWork_lt_of_phase wRrT wInspU hw rfl (by decide) rfl
    · exact hends rfl
  case passInspU =>
    obtain ⟨hw, -, rfl⟩ := execPassInspU_next.1 e
    exact passWork_lt_of_phase wInspU wInspL hw rfl (by decide) rfl
  case passInspL =>
    obtain ⟨hw, -, rfl⟩ := execPassInspL_next.1 e
    exact passWork_lt_of_phase wInspL wInspA hw rfl (by decide) rfl
  case passInspA =>
    obtain ⟨hw, -, rfl⟩ := execPassInspA_next.1 e
    split
    · exact passWork_lt_of_phase wInspA wConsume hw rfl (by decide) rfl
    · exact passWork_lt_of_phase wInspA wTest hw rfl (by decide) rfl
  case passConsume =>
    obtain ⟨hw, rfl⟩ := execPassConsume_next.1 e
    exact passWork_lt_of_phase wConsume wClrR hw rfl (by decide) rfl
  case passClrR =>
    obtain ⟨hw, -, rfl⟩ := execPassClrR_next.1 e
    exact passWork_lt_of_phase wClrR wClrW hw rfl (by decide) rfl
  case passClrW =>
    obtain ⟨hw, -, rfl⟩ := execPassClrW_next.1 e
    exact passWork_lt_of_phase wClrW wTest hw rfl (by decide) rfl
  all_goals exact absurd hs (by decide)

/-- A running pass has an enabled step. -/
theorem Invariant.walker_operation (hI : Invariant s) (hbusy : s.wstate ≠ wIdle) :
    ∃ i, agentOperation .walker s = some i := by
  have hop {w : Byte} (i : Instr) (he : stepEnabled i s = (s.wstate == w))
      (hs : Agent.sequences .walker i = true) (hw : s.wstate = w) :
      ∃ i, agentOperation .walker s = some i :=
    ⟨i, agentOperation_eq_some.2 ⟨hI.lifeLegal, hs, he.trans (beq_iff_eq.2 hw)⟩⟩
  have hlegal := hI.walkerLegal
  simp only [walkerStates, List.mem_cons, List.not_mem_nil, or_false] at hlegal
  obtain hw | hw | hw | hw | hw | hw | hw | hw | hw | hw | hw | hw | hw := hlegal
  exacts [absurd hw hbusy, hop .passSnapH rfl rfl hw, hop .passSnapT rfl rfl hw,
    hop .passTest rfl rfl hw, hop .passAdv rfl rfl hw, hop .passRrH rfl rfl hw,
    hop .passRrT rfl rfl hw, hop .passInspU rfl rfl hw, hop .passInspL rfl rfl hw,
    hop .passInspA rfl rfl hw, hop .passConsume rfl rfl hw, hop .passClrR rfl rfl hw,
    hop .passClrW rfl rfl hw]

end PassWork

section Bound
variable {s t : State} {i : Instr}

/-- An idle WALKER begins a pass or does nothing (R160). -/
theorem passStart_of_idle (hs : Agent.sequences .walker i = true) (he : stepEnabled i s = true)
    (hidle : s.wstate = wIdle) : i = .passStart := by
  cases i
  case passStart => rfl
  case passSnapH | passSnapT | passTest | passAdv | passRrH | passRrT | passInspU | passInspL | passInspA |
      passConsume | passClrR | passClrW =>
    exact absurd ((eq_of_beq he).symm.trans hidle) (by decide)
  all_goals exact absurd hs (by decide)

/-- The cap is never met: PASS.TEST finds an advance left to make only where fewer than `N - 1` are made
(R163, R182). -/
theorem Invariant.abandonCode_ne_iterCap (hI : Invariant s) (he : stepEnabled i s = true) :
    abandonCode i s ≠ some eIterCap := by
  intro h
  obtain ⟨-, -, -, hcap, -⟩ := hI.cfgOk
  cases i
  case passTest =>
    have hw : s.wstate = wTest := eq_of_beq he
    simp only [abandonCode] at h
    split_ifs at h with heq hle
    have hiter := hI.iter_lt_of_tailC_ne (by rw [hw]; decide) heq
    omega
  case passSnapT | passRrH | passRrT =>
    simp only [abandonCode] at h
    split_ifs at h
    exact absurd h (by decide)
  all_goals cases h

/-- No step logs `E_ITER_CAP`. -/
theorem Invariant.step_logs_no_iterCap (hI : Invariant s) (e : step s = .next t) :
    ∃ l, t.trace = l ++ s.trace ∧ ∀ head tail, .log eIterCap head tail ∉ l := by
  have hfree (h : AddsNone Event.isLog s.trace t.trace) :
      ∃ l, t.trace = l ++ s.trace ∧ ∀ head tail, .log eIterCap head tail ∉ l := by
    obtain ⟨l, htrace, hl⟩ := h.not_mem_log
    exact ⟨l, htrace, hl eIterCap⟩
  obtain ⟨rest, i, p⟩ | h := step_walks_or_keepsPass e
  · obtain ⟨code, hcode, h⟩ | ⟨-, h⟩ := exec_abandons_or_keeps p.exec
    · obtain ⟨head, tail, mid, htrace, hmid⟩ := h.trace
      obtain ⟨l, rfl, hl⟩ := hmid.not_mem_log
      refine ⟨.log code head tail :: l, htrace, fun head' tail' hmem => ?_⟩
      obtain hlog | hmem := List.mem_cons.1 hmem
      · cases hlog
        exact hI.abandonCode_ne_iterCap p.stepEnabled hcode
      · exact hl _ _ _ hmem
    · exact hfree h.trace
  · exact hfree h.record.trace

end Bound

/-- Settles O51: every operation of the WALKER's lowers the bound, the others' steps leave the pass as it is,
and the iterations made and the advances left are at most `N - 1` together. -/
theorem everyPassEndsWithinTheBound : Obligations.EveryPassEndsWithinTheBound := by
  intro s hI
  refine ⟨hI.passWork_eq_zero_iff, hI.walker_operation, fun t rest e hsched hbusy => ?_,
    fun t rest e hsched hidle hbusy => ?_, fun t e hother => ?_, hI.iter_le,
    fun t e => hI.step_logs_no_iterCap e⟩
  · obtain ⟨i, hop⟩ := hI.walker_operation hbusy
    rw [step_of_agent hsched, agentStep_of_some (s := { s with sched := rest }) hop] at e
    exact execPass_passWork_lt (s := { s with sched := rest }) hI.of_unread
      (agentOperation_eq_some.1 hop).2.1 hbusy e
  · obtain ⟨rest, i, p⟩ | h := step_walks_or_keepsPass e
    · obtain rfl := passStart_of_idle p.sequences p.stepEnabled hidle
      obtain ⟨-, rfl⟩ := execPassStart_next.1 p.exec
      rw [passWork_snapH rfl]
      have hn := hI.ringSize_bounds
      dsimp only
      omega
    · exact absurd (h.wstate.trans hidle) hbusy
  · obtain ⟨rest, i, p⟩ | h := step_walks_or_keepsPass e
    · exact absurd p.sched (hother rest)
    · exact h.passWork_eq

/-! ## No pass is abandoned under the contract (R162, R165, R166, R182) -/

section Contract
variable {s t : State} {i : Instr}

/-- With head and the snapshot in range no step of a pass finds anything amiss: the tail register is the
cursor, and the cap is never met. -/
theorem Invariant.abandonCode_eq_none (hI : Invariant s) (hD : DeviceOk s) (hS : SnapshotOk s)
    (he : stepEnabled i s = true) : abandonCode i s = none := by
  cases i
  case passSnapT =>
    have hw : s.wstate = wSnapT := eq_of_beq he
    have htail := hI.tailInRange (.inl (hI.passAttached (by rw [hw]; decide)))
    exact if_pos (Bool.and_eq_true_iff.2 ⟨hS hw, htail⟩)
  case passTest =>
    have hne := hI.abandonCode_ne_iterCap he
    simp only [abandonCode] at hne ⊢
    split_ifs at hne ⊢
    · rfl
    · exact absurd rfl hne
    · rfl
  case passRrH => exact if_pos hD.headInRange
  case passRrT =>
    have hw : s.wstate = wRrT := eq_of_beq he
    exact if_pos (hI.tailHeld (by rw [hw]; decide)).symm
  all_goals rfl

/-- A step of a pass that does not abandon it leads to idle from PASS.TEST only, and to PASS.SNAP_T with the
register's head. -/
theorem execPass_wstate (hs : Agent.sequences .walker i = true) (hnone : abandonCode i s = none)
    (e : exec i s = .next t) :
    (t.wstate = wIdle → s.wstate = wTest) ∧ (t.wstate = wSnapT → t.headS = s.dev.head) := by
  have leads {t : State} (w : Byte) (ht : t.wstate = w) (hw : w ≠ wIdle ∧ w ≠ wSnapT) :
      (t.wstate = wIdle → s.wstate = wTest) ∧ (t.wstate = wSnapT → t.headS = s.dev.head) :=
    ⟨fun h => absurd (ht.symm.trans h) hw.1, fun h => absurd (ht.symm.trans h) hw.2⟩
  have hkeeps (code : BitVec 4) : abandonCode i s ≠ some code := by rw [hnone]; nofun
  cases i
  -- the snapshot of head, and the completion test
  case passSnapH =>
    obtain ⟨-, rfl⟩ := execPassSnapH_next.1 e
    exact ⟨fun h => absurd h (show wSnapT ≠ wIdle by decide), fun _ => rfl⟩
  case passTest =>
    obtain ⟨hw, rfl⟩ := execPassTest_next.1 e
    have hidle : wIdle ≠ wSnapT := by decide
    split
    · exact ⟨fun _ => hw, (absurd · hidle)⟩
    · split
      · exact ⟨fun _ => hw, (absurd · hidle)⟩
      · exact leads wAdv rfl (by decide)
  -- the other steps that could abandon the pass
  case passSnapT =>
    obtain ⟨-, rfl⟩ := execPassSnapT_next.1 e
    split
    next => exact leads wTest rfl (by decide)
    next h => exact absurd (if_neg h) (hkeeps eIndexRange)
  case passRrH =>
    obtain ⟨-, rfl⟩ := execPassRrH_next.1 e
    split
    next => exact leads wRrT rfl (by decide)
    next h => exact absurd (if_neg h) (hkeeps eIndexRange)
  case passRrT =>
    obtain ⟨-, rfl⟩ := execPassRrT_next.1 e
    split
    next => exact leads wInspU rfl (by decide)
    next h => exact absurd (if_neg h) (hkeeps eTailReadback)
  -- the steps that only go on
  case passStart => obtain ⟨-, rfl⟩ := execPassStart_next.1 e; exact leads wSnapH rfl (by decide)
  case passAdv => obtain ⟨-, rfl⟩ := execPassAdv_next.1 e; exact leads wRrH rfl (by decide)
  case passInspU => obtain ⟨-, -, rfl⟩ := execPassInspU_next.1 e; exact leads wInspL rfl (by decide)
  case passInspL => obtain ⟨-, -, rfl⟩ := execPassInspL_next.1 e; exact leads wInspA rfl (by decide)
  case passInspA =>
    obtain ⟨-, -, rfl⟩ := execPassInspA_next.1 e
    split
    · exact leads wConsume rfl (by decide)
    · exact leads wTest rfl (by decide)
  case passConsume => obtain ⟨-, rfl⟩ := execPassConsume_next.1 e; exact leads wClrR rfl (by decide)
  case passClrR => obtain ⟨-, -, rfl⟩ := execPassClrR_next.1 e; exact leads wClrW rfl (by decide)
  case passClrW => obtain ⟨-, -, rfl⟩ := execPassClrW_next.1 e; exact leads wTest rfl (by decide)
  all_goals exact absurd hs (by decide)

end Contract

/-- Settles O48: no operation finds a reason to abandon the pass; the other steps leave it as it is. -/
theorem noPassIsAbandonedUnderTheContract : Obligations.NoPassIsAbandonedUnderTheContract := by
  intro s t hI hD hS e
  obtain ⟨rest, i, p⟩ | h := step_walks_or_keepsPass e
  · have hnone := hI.abandonCode_eq_none hD hS p.stepEnabled
    obtain ⟨hidle, hsnap⟩ := execPass_wstate (s := { s with sched := rest }) p.sequences hnone p.exec
    obtain ⟨code, hcode, -⟩ | ⟨-, h⟩ := exec_abandons_or_keeps p.exec
    · exact absurd (hcode.symm.trans hnone) nofun
    · refine ⟨fun hw => ?_, h.errSeen, h.errCode, h.trace.not_mem_log,
        fun _ htest hw => htest (hidle hw)⟩
      rw [hsnap hw, p.writesOnly.cfg]
      exact hD.headInRange
  · refine ⟨fun hw => ?_, h.record.errSeen, h.record.errCode, h.record.trace.not_mem_log,
      fun hbusy _ => h.wstate ▸ hbusy⟩
    rw [h.cfg, h.headS]
    exact hS (h.wstate ▸ hw)

/-! ## Runs -/

section Runs
variable {s t : State} {j k : Nat}

theorem run_invariant (hI : Invariant s) (e : run k s = .next t) : Invariant t := by
  induction k generalizing s with
  | zero => cases e; exact hI
  | succ k ih =>
    obtain ⟨u, hstep, hrest⟩ := andThen_eq_next.1 e
    exact ih (everyStepKeepsTheInvariant s u hI hstep) hrest

theorem run_add (s : State) (j k : Nat) : run (j + k) s = andThen (run j s) (run k) := by
  induction j generalizing s with
  | zero => rw [Nat.zero_add]; rfl
  | succ j ih =>
    rw [Nat.succ_add, run, run]
    cases step s with
    | next u => exact ih u
    | fault r => rfl
    | refused r => rfl

end Runs

/-- Settles O50: the invariant holds along the run, and the WALKER's states but those three are the
loop's. -/
theorem tailCursorEqualsTheRegister : Obligations.TailCursorEqualsTheRegister := by
  intro k s t hI e hidle hsnapH hsnapT
  have ht := run_invariant hI e
  have hsplit : ∀ w ∈ walkerStates, w ≠ wIdle → w ≠ wSnapH → w ≠ wSnapT → w ∈ loopStates := by decide
  rw [ht.tailHeld (hsplit _ ht.walkerLegal hidle hsnapH hsnapT), Device.tail, indexOfWord_eq_setWidth]

/-! ## The operations of a pass, one by one (R160 to R172) -/

/-- Settles O19. -/
theorem passStartTakesTheQueuedWork : Obligations.PassStartTakesTheQueuedWork :=
  fun _ hl hw hp => execPassStart_next.2 ⟨⟨hl, hw, hp⟩, rfl⟩

/-- Settles O20: both indices are tested once the second is read. -/
theorem passSnapshotsHeadAndTail : Obligations.PassSnapshotsHeadAndTail := by
  refine ⟨fun s hw => execPassSnapH_next.2 ⟨hw, ?_⟩, fun s hok hw => ?_⟩
  · rw [indexOfWord_eq_setWidth]
  · obtain ⟨hmin, hmax, -⟩ := hok
    simp only [← indexOfWord_eq_setWidth]
    refine ⟨fun hhead htail => ⟨_, prevIndex_toNat (by omega) hmax s.headS,
      execPassSnapT_next.2 ⟨hw, if_pos ?_⟩⟩, fun hout => execPassSnapT_next.2 ⟨hw, if_neg ?_⟩⟩
    · rw [inRange_iff.2 hhead, inRange_iff.2 htail]; rfl
    · rw [Bool.and_eq_true_iff, inRange_iff, inRange_iff]; omega

/-- Settles O21: equality is tested before the cap. -/
theorem passTestDecides : Obligations.PassTestDecides :=
  fun _ hw => ⟨fun heq => execPassTest_next.2 ⟨hw, if_pos heq⟩,
    fun hne hlt => execPassTest_next.2 ⟨hw, (if_neg hne).trans (if_neg (Nat.not_le.2 hlt))⟩,
    fun hne hcap => execPassTest_next.2 ⟨hw, (if_neg hne).trans (if_pos hcap)⟩⟩

/-- Settles O22: the word written is the successor that the cursor takes. -/
theorem passAdvanceWritesTheTail : Obligations.PassAdvanceWritesTheTail := by
  intro s ⟨hmin, hmax, _⟩ hw
  exact ⟨_, _, nextIndex_toNat (by omega) hmax _, wordOfIndex_toNat _, execPassAdv_next.2 ⟨hw, rfl⟩⟩

/-- Settles O23: each re-read has the one test. -/
theorem passRereadsHeadAndTail : Obligations.PassRereadsHeadAndTail := by
  simp only [Obligations.PassRereadsHeadAndTail, ← indexOfWord_eq_setWidth]
  exact ⟨fun s hw =>
      ⟨fun hlt => execPassRrH_next.2 ⟨hw, if_pos (inRange_iff.2 hlt)⟩,
        fun hle => execPassRrH_next.2 ⟨hw, if_neg (mt inRange_iff.1 (Nat.not_lt.2 hle))⟩⟩,
    fun s hw =>
      ⟨fun heq => execPassRrT_next.2 ⟨hw, if_pos heq⟩, fun hne => execPassRrT_next.2 ⟨hw, if_neg hne⟩⟩⟩

/-- Settles O24: each part reads its own word of the descriptor. -/
theorem passInspectsTheDescriptor : Obligations.PassInspectsTheDescriptor :=
  fun _ _ hb htail => ⟨exec_passInspU hb htail, exec_passInspL hb htail, exec_passInspA hb htail⟩

/-- Settles O25. -/
theorem passConsumeReportsTheView : Obligations.PassConsumeReportsTheView :=
  fun _ hw => execPassConsume_next.2 ⟨hw, rfl⟩

/-- Settles O26: one byte is read, and the same byte is written. -/
theorem passRecyclesTheDescriptor : Obligations.PassRecyclesTheDescriptor :=
  fun _ _ hm hb htail => ⟨exec_passClrR hb htail, fun hw =>
    ⟨_, exec_passClrW hb htail hw, rfl, Memory.write_wf_and_read hm _ _⟩⟩

/-! ## What a pass writes (R185) -/

section Writes
variable {s t : State} {i : Instr}

/-- The event is a write by one of RXW's agents. -/
def Event.isWrite (e : Event) : Bool := e.isRegWrite || e.isMemWrite

/-- But for PASS.ADV and PASS.CLR_W a pass issues no write. -/
theorem execPass_adds_no_write (hs : Agent.sequences .walker i = true) (hadv : i ≠ .passAdv)
    (hclr : i ≠ .passClrW) (e : exec i s = .next t) : AddsNone Event.isWrite s.trace t.trace := by
  cases i
  case passAdv => exact absurd rfl hadv
  case passClrW => exact absurd rfl hclr
  case passStart => obtain ⟨-, rfl⟩ := execPassStart_next.1 e; exact .same
  case passSnapH | passConsume =>
    simp only [exec, execPassSnapH_next, execPassConsume_next] at e
    obtain ⟨-, rfl⟩ := e; exact .event rfl
  case passInspU | passInspL | passInspA | passClrR =>
    simp only [exec, execPassInspU_next, execPassInspL_next, execPassInspA_next, execPassClrR_next] at e
    obtain ⟨-, -, rfl⟩ := e; exact .event rfl
  case passSnapT | passRrH | passRrT =>
    simp only [exec, execPassSnapT_next, execPassRrH_next, execPassRrT_next] at e
    obtain ⟨-, rfl⟩ := e
    split
    · exact .event rfl
    · exact .events rfl rfl
  case passTest =>
    obtain ⟨-, rfl⟩ := execPassTest_next.1 e
    split
    · exact .same
    · split
      · exact .event rfl
      · exact .same
  all_goals exact absurd hs (by decide)

end Writes

/-- Settles O27: PASS.ADV writes the cursor's successor, and the cursor is the tail; PASS.CLR_W writes the
cursor's status byte; the other operations write nothing. -/
theorem passWritesOnlyStatusAndTail : Obligations.PassWritesOnlyStatusAndTail := by
  intro i s t hI hfamily e
  have hs : Agent.sequences .walker i = true := beq_iff_eq.2 hfamily
  obtain ⟨hn, hn'⟩ := hI.ringSize_bounds
  by_cases hadv : i = .passAdv
  · subst hadv
    obtain ⟨hw, rfl⟩ := execPassAdv_next.1 e
    have hword : (wordOfIndex (nextIndex s.cfg.ringSize s.tailC)).toNat =
        ((s.dev.rdt.setWidth 16).toNat + 1) % s.cfg.ringSize := by
      rw [wordOfIndex_toNat, nextIndex_toNat (by omega) hn', hI.tailHeld (by rw [hw]; decide), Device.tail,
        indexOfWord_eq_setWidth]
    exact ⟨rfl, .inr hword, fun _ _ => rfl, [_], rfl,
      List.forall_mem_singleton.2 ⟨fun _ _ _ h => by cases h; exact ⟨rfl, hword⟩, nofun⟩⟩
  by_cases hclr : i = .passClrW
  · subst hclr
    obtain ⟨hw, -, rfl⟩ := execPassClrW_next.1 e
    have hloop : s.wstate ∈ loopStates := by rw [hw]; decide
    have htail := hI.tailC_lt hloop
    have haddr := fieldAddress_toNat upperOff (hI.baseGood (.inl (hI.loop_attached hloop))) htail
      (by decide)
    refine ⟨rfl, .inl rfl, fun x hx => ?_, [_], rfl,
      List.forall_mem_singleton.2 ⟨nofun, fun _ _ _ _ h => by cases h; exact ⟨rfl, _, htail, haddr⟩⟩⟩
    dsimp only
    rw [Memory.writeBytes_bytesLE_one, Memory.read_write _ _ _ _ hI.memWf, if_neg]
    exact fun h => hx _ htail (h.trans haddr)
  · have w := exec_writesOnly e
    have hrdt : ∀ i ∈ [.rdtW, .advanceTail, .passAdv, .initTail],
        Agent.sequences .walker i = true → i = .passAdv := by decide
    have hmem : ∀ i ∈ [.markFree, .passClrW, .initDescA, .initDescL, .initDescU],
        Agent.sequences .walker i = true → i = .passClrW := by decide
    obtain ⟨l, htrace, hl⟩ := execPass_adds_no_write hs hadv hclr e
    refine ⟨w.rdh, .inl (w.rdt.resolve_right fun h => hadv (hrdt i h hs)), fun x _ => ?_, l, htrace,
      fun ev hev => ?_⟩
    · rw [w.mem.resolve_right fun h => hclr (hmem i h hs)]
    · have hno := hl ev hev
      exact ⟨fun _ _ _ h => (by subst h; cases hno), fun _ _ _ _ h => (by subst h; cases hno)⟩

end Sys2Proof.Machine
end

section
/-! Proofs/WholePass.lean: a pass that the WALKER runs by itself (42_service_pass.md R181 to R183). Its three
first steps take the snapshots; an iteration is an advance, the reads of the descriptor and, where that is
done, its `Consume` and the clearing of its done bits; and the iterations, one after another, service the
descriptors from the tail up to the head's predecessor. -/

namespace Sys2Proof.Machine

/-! ## Steps of the WALKER with nothing between -/

/-- What is left of the schedule decides nothing for an operation of the WALKER's. -/
theorem execPass_sched {i : Instr} {s t : State} (hs : Agent.sequences .walker i = true)
    (e : exec i s = .next t) (l : List Move) :
    exec i { s with sched := l } = .next { t with sched := l } := by
  cases i
  case passStart => obtain ⟨h, rfl⟩ := execPassStart_next.1 e; exact execPassStart_next.2 ⟨h, rfl⟩
  case passSnapH => obtain ⟨hw, rfl⟩ := execPassSnapH_next.1 e; exact execPassSnapH_next.2 ⟨hw, rfl⟩
  case passSnapT =>
    obtain ⟨hw, rfl⟩ := execPassSnapT_next.1 e
    refine execPassSnapT_next.2 ⟨hw, ?_⟩
    dsimp only
    split <;> rfl
  case passTest =>
    obtain ⟨hw, rfl⟩ := execPassTest_next.1 e
    refine execPassTest_next.2 ⟨hw, ?_⟩
    dsimp only
    split_ifs <;> rfl
  case passAdv => obtain ⟨hw, rfl⟩ := execPassAdv_next.1 e; exact execPassAdv_next.2 ⟨hw, rfl⟩
  case passRrH =>
    obtain ⟨hw, rfl⟩ := execPassRrH_next.1 e
    refine execPassRrH_next.2 ⟨hw, ?_⟩
    dsimp only
    split <;> rfl
  case passRrT =>
    obtain ⟨hw, rfl⟩ := execPassRrT_next.1 e
    refine execPassRrT_next.2 ⟨hw, ?_⟩
    dsimp only
    split <;> rfl
  case passInspU =>
    obtain ⟨hw, hacc, rfl⟩ := execPassInspU_next.1 e; exact execPassInspU_next.2 ⟨hw, hacc, rfl⟩
  case passInspL =>
    obtain ⟨hw, hacc, rfl⟩ := execPassInspL_next.1 e; exact execPassInspL_next.2 ⟨hw, hacc, rfl⟩
  case passInspA =>
    obtain ⟨hw, hacc, rfl⟩ := execPassInspA_next.1 e; exact execPassInspA_next.2 ⟨hw, hacc, rfl⟩
  case passConsume =>
    obtain ⟨hw, rfl⟩ := execPassConsume_next.1 e; exact execPassConsume_next.2 ⟨hw, rfl⟩
  case passClrR =>
    obtain ⟨hw, hacc, rfl⟩ := execPassClrR_next.1 e; exact execPassClrR_next.2 ⟨hw, hacc, rfl⟩
  case passClrW =>
    obtain ⟨hw, hacc, rfl⟩ := execPassClrW_next.1 e; exact execPassClrW_next.2 ⟨hw, hacc, rfl⟩
  all_goals exact absurd hs (by decide)

/-- `k` steps given to the WALKER, with nothing between, lead from `s` to `t`, whatever the schedule holds
behind them. -/
def WalkerRuns (k : Nat) (s t : State) : Prop :=
  ∀ rest, run k { s with sched := List.replicate k (.agent .walker) ++ rest } =
    .next { t with sched := rest }

namespace WalkerRuns

variable {j k : Nat} {s t u : State}

theorem trans (h : WalkerRuns j s u) (h' : WalkerRuns k u t) : WalkerRuns (j + k) s t := by
  intro rest
  rw [List.replicate_add, List.append_assoc, run_add, h, andThen_next, h']

/-- The WALKER's operation `p`, where it is enabled. -/
theorem step (p : Instr) (hl : s.life ≠ lifeUnused) (hs : Agent.sequences .walker p = true)
    (he : stepEnabled p s = true)
    (e : exec p s = .next t) : WalkerRuns 1 s t :=
  fun rest => run_succ_of_agent
    (s := { s with sched := List.replicate 1 (.agent .walker) ++ rest }) rfl hl hs he
    (execPass_sched hs e rest)

theorem invariant (hI : Invariant s) (h : WalkerRuns k s t) : Invariant t :=
  (run_invariant hI.of_unread (h [])).of_unread (l := t.sched) (p := t.call) (tr := t.trace)

end WalkerRuns

/-! ## The parts of a pass -/

/-- The status byte of descriptor `i` has all done bits set (41_ring_primitives.md R146). -/
def doneAt (s : State) (i : Half) : Bool := isDone s.cfg.doneMask (descByte s i 12)

/-- The `Consume` event of descriptor `i` as it stands (R170). -/
def consumeOf (s : State) (i : Half) : Event :=
  .consume i (descAddrField s i) (descLength s i) (descByte s i 12) (descByte s i 13)

/-- PASS.START and the two snapshots, with both indices in range (R160 to R162). -/
def State.passBegun (s : State) : State :=
  { s with
    pending := false, iter := 0#17, passConsumed := 0#17, headS := s.dev.head, tailC := s.dev.tail,
    prevHead := prevIndex s.cfg.ringSize s.dev.head, wstate := wTest,
    trace := .regRd .walker s.cfg.offRdt s.dev.rdt :: .regRd .walker s.cfg.offRdh s.dev.rdh :: s.trace }

/-- An advance, from PASS.TEST to both re-reads, with head in range (R163 to R166). -/
def State.advanced (s : State) : State :=
  { s with
    tailC := nextIndex s.cfg.ringSize s.tailC, iter := s.iter + 1#17, headLive := s.dev.head,
    wstate := wInspU, dev := { s.dev with rdt := wordOfIndex (nextIndex s.cfg.ringSize s.tailC) },
    trace := .regRd .walker s.cfg.offRdt (wordOfIndex (nextIndex s.cfg.ringSize s.tailC)) ::
      .regRd .walker s.cfg.offRdh s.dev.rdh ::
      .regWr .walker s.cfg.offRdt (wordOfIndex (nextIndex s.cfg.ringSize s.tailC)) :: s.trace }

/-- The three reads of the descriptor at the cursor (R167 to R169). -/
def State.inspected (s : State) : State :=
  { s with
    view := {
      status := descByte s s.tailC 12, errors := descByte s s.tailC 13,
      length := descLength s s.tailC, addr := descAddrField s s.tailC },
    wstate :=
      if descByte s s.tailC 12 &&& s.cfg.doneMask = s.cfg.doneMask then wConsume else wTest,
    trace := .memRd .walker (descAddress s.ringBase s.tailC) 8 (descAddrField s s.tailC) ::
      .memRd .walker (descAddress s.ringBase s.tailC + 8#64) 4
        ((descWord s s.tailC 8).setWidth 64) ::
      .memRd .walker (descAddress s.ringBase s.tailC + 12#64) 4
        ((descWord s s.tailC 12).setWidth 64) :: s.trace }

/-- The descriptor at the cursor is reported as it was latched, and its done bits are cleared (R170 to
R172). -/
def State.recycled (s : State) : State :=
  { s with
    passConsumed := s.passConsumed + 1#17, clrTmp := descByte s s.tailC 12, wstate := wTest,
    mem := s.mem.write (descAddress s.ringBase s.tailC + 12#64).toNat
      (clearedStatus s.cfg.doneMask (descByte s s.tailC 12)),
    trace := .memWr .walker (descAddress s.ringBase s.tailC + 12#64) 1
        ((clearedStatus s.cfg.doneMask (descByte s s.tailC 12)).setWidth 64) ::
      .memRd .walker (descAddress s.ringBase s.tailC + 12#64) 1
        ((descByte s s.tailC 12).setWidth 64) ::
      .consume s.tailC s.view.addr s.view.length s.view.status s.view.errors :: s.trace }

section Parts
variable {s : State}

theorem walkerRuns_passBegun (hI : Invariant s) (hhead : inRange s.cfg.ringSize s.dev.head = true)
    (hl : s.life = lifeReady) (hw : s.wstate = wIdle) (hp : s.pending = true) :
    WalkerRuns 3 s s.passBegun := by
  have hlife := hI.lifeLegal
  have htail := hI.tailInRange (.inl (by rw [State.attached, hl]; decide))
  have hboth := Bool.and_eq_true_iff.2 ⟨hhead, htail⟩
  have hstart : WalkerRuns 1 s _ := .step .passStart hlife rfl (by simp [stepEnabled, hl, hw, hp])
    (execPassStart_next.2 ⟨⟨hl, hw, hp⟩, rfl⟩)
  have hsnapH : WalkerRuns 2 s _ :=
    hstart.trans (.step .passSnapH hlife rfl rfl (execPassSnapH_next.2 ⟨rfl, rfl⟩))
  exact hsnapH.trans (.step .passSnapT hlife rfl rfl (execPassSnapT_next.2 ⟨rfl, if_pos hboth⟩))

theorem walkerRuns_advanced (hI : Invariant s) (hhead : inRange s.cfg.ringSize s.dev.head = true)
    (hw : s.wstate = wTest) (hne : s.tailC ≠ s.prevHead) : WalkerRuns 4 s s.advanced := by
  have hlife := hI.lifeLegal
  have hcap : ¬ s.cfg.iterCap ≤ s.iter.toNat := by
    obtain ⟨-, -, -, hcap, -⟩ := hI.cfgOk
    have hiter := hI.iter_lt_of_tailC_ne (by rw [hw]; decide) hne
    omega
  have htest : WalkerRuns 1 s _ := .step .passTest hlife rfl (beq_iff_eq.2 hw)
    (execPassTest_next.2 ⟨hw, (if_neg hne).trans (if_neg hcap)⟩)
  have hadv : WalkerRuns 2 s _ :=
    htest.trans (.step .passAdv hlife rfl rfl (execPassAdv_next.2 ⟨rfl, rfl⟩))
  have hrrH : WalkerRuns 3 s _ :=
    hadv.trans (.step .passRrH hlife rfl rfl (execPassRrH_next.2 ⟨rfl, if_pos hhead⟩))
  exact hrrH.trans (.step .passRrT hlife rfl rfl
    (execPassRrT_next.2 ⟨rfl, if_pos (indexOfWord_wordOfIndex _)⟩))

theorem walkerRuns_inspected (hI : Invariant s) (hw : s.wstate = wInspU) :
    WalkerRuns 3 s s.inspected := by
  have hloop : s.wstate ∈ loopStates := by rw [hw]; decide
  have hlife := hI.lifeLegal
  have hb := hI.baseGood (.inl (hI.loop_attached hloop))
  have htail := hI.tailC_lt hloop
  have hupper : WalkerRuns 1 s _ :=
    .step .passInspU hlife rfl (beq_iff_eq.2 hw) (exec_passInspU hb htail hw)
  have hlower : WalkerRuns 2 s _ :=
    hupper.trans (.step .passInspL hlife rfl rfl (exec_passInspL hb htail rfl))
  exact hlower.trans (.step .passInspA hlife rfl rfl (exec_passInspA hb htail rfl))

theorem inspected_wstate (s : State) :
    s.inspected.wstate = if doneAt s s.tailC then wConsume else wTest := by
  simp only [State.inspected, doneAt, isDone_iff]

theorem walkerRuns_recycled (hI : Invariant s) (hw : s.wstate = wConsume) :
    WalkerRuns 3 s s.recycled := by
  have hloop : s.wstate ∈ loopStates := by rw [hw]; decide
  have hlife := hI.lifeLegal
  have hb := hI.baseGood (.inl (hI.loop_attached hloop))
  have htail := hI.tailC_lt hloop
  have hconsume : WalkerRuns 1 s _ :=
    .step .passConsume hlife rfl (beq_iff_eq.2 hw) (execPassConsume_next.2 ⟨hw, rfl⟩)
  have hread : WalkerRuns 2 s _ :=
    hconsume.trans (.step .passClrR hlife rfl rfl (exec_passClrR hb htail rfl))
  exact hread.trans (.step .passClrW hlife rfl rfl (exec_passClrW hb htail rfl))

end Parts

/-! ## Servicing descriptors one after another -/

/-- Going from `s` to `t` services the descriptors `l`, in that order: of each an advance is made, and where
it is done it is reported and its done bits are cleared. -/
structure Serviced (s t : State) (l : List Half) : Prop where
  frame : t = { s with
    tailC := t.tailC, headLive := t.headLive, iter := t.iter, passConsumed := t.passConsumed,
    view := t.view, clrTmp := t.clrTmp, wstate := t.wstate, dev := { s.dev with rdt := t.dev.rdt },
    mem := t.mem, trace := t.trace }
  iter : t.iter = s.iter + BitVec.ofNat 17 l.length
  passConsumed : t.passConsumed = s.passConsumed + BitVec.ofNat 17 (l.filter (doneAt s)).length
  trace : ∃ events, t.trace = events ++ s.trace ∧
    events.filter Event.isConsume = ((l.filter (doneAt s)).map (consumeOf s)).reverse
  cleared : ∀ i ∈ l, descByte t i 12 =
    if doneAt s i then clearedStatus s.cfg.doneMask (descByte s i 12) else descByte s i 12
  others : ∀ x, (∀ i ∈ l, x ≠ (descAddress s.ringBase i).toNat + 12) → t.mem.read x = s.mem.read x

section Bytes
variable {s t u : State} {i j : Half}

/-- No byte of one descriptor is another's status byte. -/
theorem descByte_ne_status (hb : goodBase s.cfg s.ringBase = true) (hi : i.toNat < s.cfg.ringSize)
    (hj : j.toNat < s.cfg.ringSize) (hij : i ≠ j) {k : Nat} (hk : k < 16) :
    (descAddress s.ringBase j).toNat + k ≠ (descAddress s.ringBase i).toNat + 12 := by
  have hne : i.toNat ≠ j.toNat := fun h => hij (BitVec.eq_of_toNat_eq h)
  rw [descAddress_toNat hb hi, descAddress_toNat hb hj]
  omega

theorem descAddrField_congr (h : ∀ k < 16, descByte u j k = descByte s j k) :
    descAddrField u j = descAddrField s j := by
  simp only [descAddrField, descWord]
  rw [h 0, h 1, h 2, h 3, h 4, h 5, h 6, h 7] <;> decide

theorem consumeOf_congr (h : ∀ k < 16, descByte u j k = descByte s j k) :
    consumeOf u j = consumeOf s j := by
  rw [consumeOf, descAddrField_congr h, descLength, h 8 (by decide), h 9 (by decide), h 12 (by decide),
    h 13 (by decide)]
  rfl

end Bytes

namespace Serviced

variable {s t u : State} {i : Half} {l : List Half}

theorem cfg (h : Serviced s t l) : t.cfg = s.cfg := by rw [h.frame]

theorem ringBase (h : Serviced s t l) : t.ringBase = s.ringBase := by rw [h.frame]

theorem prevHead (h : Serviced s t l) : t.prevHead = s.prevHead := by rw [h.frame]

theorem rdh (h : Serviced s t l) : t.dev.rdh = s.dev.rdh := by rw [h.frame]

/-- Servicing one descriptor leaves the others as they are. -/
theorem descByte_other (h : Serviced s u [i]) (hb : goodBase s.cfg s.ringBase = true)
    (hi : i.toNat < s.cfg.ringSize) {j : Half} (hj : j.toNat < s.cfg.ringSize) (hij : i ≠ j) {k : Nat}
    (hk : k < 16) : descByte u j k = descByte s j k := by
  rw [descByte, h.ringBase]
  exact h.others _ (List.forall_mem_singleton.2 (descByte_ne_status hb hi hj hij hk))

/-- First one descriptor, then others. -/
theorem cons (h : Serviced s u [i]) (h' : Serviced u t l) (hb : goodBase s.cfg s.ringBase = true)
    (hi : i.toNat < s.cfg.ringSize) (hl : ∀ j ∈ l, j.toNat < s.cfg.ringSize) (hil : i ∉ l) :
    Serviced s t (i :: l) := by
  have hbytes (j : Half) (hj : j ∈ l) (k : Nat) (hk : k < 16) : descByte u j k = descByte s j k :=
    h.descByte_other hb hi (hl j hj) (fun hij => hil (hij ▸ hj)) hk
  have hdone (j : Half) (hj : j ∈ l) : doneAt u j = doneAt s j := by
    rw [doneAt, h.cfg, hbytes j hj 12 (by decide)]; rfl
  have hfilter : l.filter (doneAt u) = l.filter (doneAt s) := List.filter_congr hdone
  have hsplit : (i :: l).filter (doneAt s) = [i].filter (doneAt s) ++ l.filter (doneAt s) :=
    List.filter_append [i] l
  exact {
    frame := by rw [h'.frame, h.frame]
    iter := by
      rw [h'.iter, h.iter, BitVec.add_assoc, ← BitVec.ofNat_add, List.length_singleton,
        List.length_cons, Nat.add_comm]
    passConsumed := by
      rw [h'.passConsumed, h.passConsumed, BitVec.add_assoc, ← BitVec.ofNat_add, hfilter, hsplit,
        List.length_append]
    trace := by
      obtain ⟨events, htrace, hev⟩ := h.trace
      obtain ⟨events', htrace', hev'⟩ := h'.trace
      have hmap : (l.filter (doneAt s)).map (consumeOf u) = (l.filter (doneAt s)).map (consumeOf s) :=
        List.map_congr_left fun j hj => consumeOf_congr (hbytes j (List.mem_of_mem_filter hj))
      refine ⟨events' ++ events, by rw [htrace', htrace, List.append_assoc], ?_⟩
      rw [List.filter_append, hev, hev', hfilter, hmap, hsplit, List.map_append, List.reverse_append]
    cleared := by
      refine List.forall_mem_cons.2 ⟨?_, fun j hj => ?_⟩
      · have hkept : descByte t i 12 = descByte u i 12 := by
          rw [descByte, h'.ringBase]
          refine h'.others _ fun j hj => ?_
          rw [h.ringBase]
          exact descByte_ne_status hb (hl j hj) hi (fun hij => hil (hij ▸ hj)) (by decide)
        rw [hkept]
        exact h.cleared i (List.mem_singleton_self i)
      · rw [h'.cleared j hj, hdone j hj, h.cfg, hbytes j hj 12 (by decide)]
    others := fun x hx => by
      obtain ⟨hxi, hxl⟩ := List.forall_mem_cons.1 hx
      rw [h'.others x (h.ringBase.symm ▸ hxl), h.others x (List.forall_mem_singleton.2 hxi)] }

/-- A pass that goes no further. -/
theorem nil {w : Byte} : Serviced s { s with wstate := w } [] :=
  ⟨rfl, (BitVec.add_zero _).symm, (BitVec.add_zero _).symm, ⟨[], rfl, rfl⟩, nofun, fun _ _ => rfl⟩

/-- A descriptor that is not done is passed over. -/
theorem skipped (hnot : doneAt s (nextIndex s.cfg.ringSize s.tailC) = false) :
    Serviced s s.advanced.inspected [nextIndex s.cfg.ringSize s.tailC] := by
  have hfilter : [nextIndex s.cfg.ringSize s.tailC].filter (doneAt s) = [] := by simp [hnot]
  exact {
    frame := rfl
    iter := rfl
    passConsumed := by rw [hfilter]; exact (BitVec.add_zero _).symm
    trace := ⟨[_, _, _, _, _, _], rfl, by rw [hfilter]; rfl⟩
    cleared := List.forall_mem_singleton.2 (by rw [hnot]; rfl)
    others := fun _ _ => rfl }

/-- A descriptor that is done is reported as it is read, and its status byte is written. -/
theorem consumed (hm : s.mem.wf = true) (hb : goodBase s.cfg s.ringBase = true)
    (hi : (nextIndex s.cfg.ringSize s.tailC).toNat < s.cfg.ringSize)
    (hdone : doneAt s (nextIndex s.cfg.ringSize s.tailC) = true) :
    Serviced s s.advanced.inspected.recycled [nextIndex s.cfg.ringSize s.tailC] := by
  have hfilter : [nextIndex s.cfg.ringSize s.tailC].filter (doneAt s) =
      [nextIndex s.cfg.ringSize s.tailC] := by simp [hdone]
  have haddr : (descAddress s.ringBase (nextIndex s.cfg.ringSize s.tailC) + 12#64).toNat =
      (descAddress s.ringBase (nextIndex s.cfg.ringSize s.tailC)).toNat + 12 := by
    rw [fieldAddress_toNat _ hb hi (by decide), descAddress_toNat hb hi]; rfl
  have hread := (Memory.write_wf_and_read hm
    (descAddress s.ringBase (nextIndex s.cfg.ringSize s.tailC) + 12#64)
    (clearedStatus s.cfg.doneMask (descByte s (nextIndex s.cfg.ringSize s.tailC) 12))).2
  exact {
    frame := rfl
    iter := rfl
    passConsumed := by rw [hfilter]; rfl
    trace := ⟨[_, _, _, _, _, _, _, _, _], rfl, by rw [hfilter]; rfl⟩
    cleared := List.forall_mem_singleton.2 (by
      rw [hdone, if_pos rfl]
      exact (hread _).trans (if_pos haddr.symm))
    others := fun x hx =>
      (hread x).trans (if_neg fun h => List.forall_mem_singleton.1 hx (h.trans haddr)) }

end Serviced

/-! ## The whole pass -/

/-- The `d` indices above `t` going up round the ring, in that order. -/
def indicesAbove (n : Nat) (t : Half) (d : Nat) : List Half :=
  (List.range d).map fun j => (nextIndex n)^[j + 1] t

section IndicesAbove
variable {n d : Nat} {i t : Half}

@[simp] theorem indicesAbove_length : (indicesAbove n t d).length = d := by
  rw [indicesAbove, List.length_map, List.length_range]

theorem indicesAbove_succ :
    indicesAbove n t (d + 1) = nextIndex n t :: indicesAbove n (nextIndex n t) d := by
  simp [indicesAbove, List.range_succ_eq_map, Function.comp_def]

theorem mem_indicesAbove : i ∈ indicesAbove n t d ↔ ∃ j < d, (nextIndex n)^[j + 1] t = i := by
  rw [indicesAbove, List.mem_map]
  simp only [List.mem_range]

theorem length_filter_indicesAbove (q : Half → Bool) :
    ((indicesAbove n t d).filter q).length =
      ((List.range d).filter fun j => q ((nextIndex n)^[j + 1] t)).length := by
  rw [indicesAbove, List.filter_map, List.length_map]
  rfl

theorem lt_of_mem_indicesAbove (hn : 0 < n) (hn' : n ≤ 65536) (h : i ∈ indicesAbove n t d) :
    i.toNat < n := by
  obtain ⟨j, -, rfl⟩ := mem_indicesAbove.1 h
  rw [Function.iterate_succ_apply']
  exact nextIndex_lt hn hn' _

/-- Short of a whole round an index is not above itself. -/
theorem not_mem_indicesAbove_self (hn' : n ≤ 65536) (ht : t.toNat < n) (hd : d < n) :
    t ∉ indicesAbove n t d := by
  intro h
  obtain ⟨j, hj, hback⟩ := mem_indicesAbove.1 h
  exact iterate_nextIndex_ne_self hn' ht (Nat.succ_pos j) (by omega) hback

end IndicesAbove

section Pass
variable {s : State}

/-- One iteration: the descriptor above the cursor is serviced, in at most ten steps (R182). -/
theorem walkerRuns_iteration (hI : Invariant s) (hhead : inRange s.cfg.ringSize s.dev.head = true)
    (hw : s.wstate = wTest) (hne : s.tailC ≠ s.prevHead) :
    ∃ k ≤ 10, ∃ t, WalkerRuns k s t ∧ Serviced s t [nextIndex s.cfg.ringSize s.tailC] ∧
      t.wstate = wTest ∧ t.tailC = nextIndex s.cfg.ringSize s.tailC := by
  obtain ⟨hn, hn'⟩ := hI.ringSize_bounds
  have hadv := walkerRuns_advanced hI hhead hw hne
  have hinsp := hadv.trans (walkerRuns_inspected (hadv.invariant hI) rfl)
  have hwstate := inspected_wstate s.advanced
  cases hdone : doneAt s (nextIndex s.cfg.ringSize s.tailC) with
  | false =>
    have htest : s.advanced.inspected.wstate = wTest :=
      hwstate.trans (if_neg (Bool.not_eq_true _ ▸ hdone))
    exact ⟨7, by decide, _, hinsp, .skipped hdone, htest, rfl⟩
  | true =>
    have hconsume : s.advanced.inspected.wstate = wConsume := hwstate.trans (if_pos hdone)
    have hb := hI.baseGood (.inl (hI.loop_attached (by rw [hw]; decide)))
    exact ⟨10, Nat.le_refl _, _, hinsp.trans (walkerRuns_recycled (hinsp.invariant hI) hconsume),
      .consumed hI.memWf hb (nextIndex_lt (by omega) hn' _) hdone, rfl, rfl⟩

/-- From PASS.TEST on a pass services the descriptors up to `prev_head`, ten steps for each and one to end
(R181, R182). -/
theorem walkerRuns_pass {d : Nat} (hI : Invariant s)
    (hhead : inRange s.cfg.ringSize s.dev.head = true) (hw : s.wstate = wTest)
    (hd : ringDistance s.cfg.ringSize s.tailC s.prevHead = d) :
    ∃ k ≤ 10 * d + 1, ∃ t, WalkerRuns k s t ∧
      Serviced s t (indicesAbove s.cfg.ringSize s.tailC d) ∧ t.wstate = wIdle ∧
      t.dev.tail = s.prevHead := by
  have hloop : s.wstate ∈ loopStates := by rw [hw]; decide
  have htail := hI.tailC_lt hloop
  have hprev := inRange_iff.1 (hI.prevHeadInRange hloop)
  obtain ⟨hn, hn'⟩ := hI.ringSize_bounds
  induction d generalizing s with
  | zero =>
    have heq := (ringDistance_eq_zero htail hprev).1 hd
    refine ⟨1, Nat.le_refl _, _, .step .passTest hI.lifeLegal rfl (beq_iff_eq.2 hw)
      (execPassTest_next.2 ⟨hw, if_pos heq⟩), .nil, rfl, ?_⟩
    exact (hI.tailHeld hloop).symm.trans heq
  | succ d ih =>
    have hne : s.tailC ≠ s.prevHead := fun h => by
      rw [(ringDistance_eq_zero htail hprev).2 h] at hd; cases hd
    have hnext := ringDistance_next (by omega) hn' htail hprev hne
    have hlt := ringDistance_lt (n := s.cfg.ringSize) (by omega) s.tailC s.prevHead
    obtain ⟨j, hj, u, hrun, hserviced, hwu, htu⟩ := walkerRuns_iteration hI hhead hw hne
    have hIu := hrun.invariant hI
    have hloopu : u.wstate ∈ loopStates := by rw [hwu]; decide
    obtain ⟨k, hk, t, hrun', hserviced', hidle, hend⟩ := ih hIu
      (by rw [hserviced.cfg, Device.head, hserviced.rdh]; exact hhead) hwu
      (by rw [hserviced.cfg, htu, hserviced.prevHead]; omega) hloopu (hIu.tailC_lt hloopu)
      (inRange_iff.1 (hIu.prevHeadInRange hloopu)) (by rwa [hserviced.cfg]) (by rwa [hserviced.cfg])
    rw [hserviced.cfg, htu] at hserviced'
    have hi := nextIndex_lt (n := s.cfg.ringSize) (by omega) hn' s.tailC
    refine ⟨j + k, by omega, t, hrun.trans hrun', ?_, hidle, hend.trans hserviced.prevHead⟩
    rw [indicesAbove_succ]
    exact hserviced.cons hserviced' (hI.baseGood (.inl (hI.loop_attached hloop))) hi
      (fun _ => lt_of_mem_indicesAbove (by omega) hn')
      (not_mem_indicesAbove_self hn' hi (by omega))

end Pass

/-- Settles O52: from the two snapshots on, as many iterations as PENDCNT counts, one for each descriptor
from the tail up to the head's predecessor. -/
theorem aPassServicesWhatIsPending : Obligations.APassServicesWhatIsPending := by
  intro s hI hD hl hw hp
  obtain ⟨hn, hn'⟩ := hI.ringSize_bounds
  have htail := hI.tailInRange (.inl (by rw [State.attached, hl]; decide))
  have hcount := pendingCount_toNat (by omega) hn' (inRange_iff.1 hD.headInRange) (inRange_iff.1 htail)
  have hlt := ringDistance_lt (n := s.cfg.ringSize) (by omega) s.dev.tail
    (prevIndex s.cfg.ringSize s.dev.head)
  have hbegun := walkerRuns_passBegun hI hD.headInRange hl hw hp
  obtain ⟨k, hk, t, hrun, h, hidle, hend⟩ :=
    walkerRuns_pass (hbegun.invariant hI) hD.headInRange rfl hcount.symm
  have h : Serviced s.passBegun t (indicesAbove s.cfg.ringSize s.dev.tail
    (pendingCount s.cfg.ringSize s.dev.head s.dev.tail).toNat) := h
  have hall := (hbegun.trans hrun) []
  rw [List.append_nil] at hall
  refine ⟨3 + k, _, by omega, hall, hidle, by rw [h.frame]; rfl, by rw [h.frame]; rfl,
    by rw [h.frame]; rfl, ?_, hend, h.rdh, by rw [h.frame]; rfl, by rw [h.frame]; rfl, ?_, ?_,
    fun j hj => h.cleared _ (mem_indicesAbove.2 ⟨j, hj, rfl⟩), fun x hx => h.others x fun i hi => ?_⟩
  · refine h.iter.trans ?_
    rw [indicesAbove_length, BitVec.ofNat_toNat, BitVec.setWidth_eq]
    exact BitVec.zero_add _
  · have hle := (List.length_filter_le (doneAt s.passBegun) _).trans_eq
      (indicesAbove_length (n := s.cfg.ringSize) (t := s.dev.tail)
        (d := (pendingCount s.cfg.ringSize s.dev.head s.dev.tail).toNat))
    have hconsumed := congrArg BitVec.toNat (h.passConsumed.trans (BitVec.zero_add _))
    rw [BitVec.toNat_ofNat, Nat.mod_eq_of_lt (by omega)] at hconsumed
    exact hconsumed.trans (length_filter_indicesAbove _)
  · obtain ⟨events, htrace, hevents⟩ := h.trace
    refine ⟨events ++ [_, _], htrace.trans (List.append_assoc events [_, _] s.trace).symm, ?_⟩
    rw [List.filter_append, hevents]
    exact List.append_nil _
  · obtain ⟨j, hj, rfl⟩ := mem_indicesAbove.1 hi
    exact hx j hj

end Sys2Proof.Machine
end

section
/-! Proofs/IrqFrontEnd.lean: family IRQ (43_irq_front_end.md R190 to R194): the three steps of an
acknowledge, one by one and run together, and that the ring is out of their reach. -/

namespace Sys2Proof.Machine

/-! ## The steps (R190 to R192) -/

theorem irq_iff {d : Device} : irq d = true ↔ d.cause &&& d.mask ≠ 0#32 := bne_iff_ne

/-- Settles O29: the signal is a cause both pending and enabled. -/
theorem frontEndSteps : Obligations.FrontEndSteps :=
  ⟨fun _ hl hi hirq => execIrqAck_next.2 ⟨⟨hl, hi, irq_iff.2 hirq⟩, rfl⟩,
    fun _ hi => execIrqSched_next.2 ⟨hi, rfl⟩,
    fun _ hi => execIrqRearm_next.2 ⟨hi, rfl⟩⟩

/-! ## An acknowledge by itself (R194) -/

/-- In a legal lifecycle state, what the IFE sequences and is enabled for is its next step, and it
completes. -/
theorem ife_performs {i : Instr} {s : State} (hl : s.life ≠ lifeUnused)
    (hs : Agent.sequences .ife i = true) (he : stepEnabled i s = true) :
    agentOperation .ife s = some i ∧ ∃ t, exec i s = .next t :=
  ⟨agentOperation_eq_some.2 ⟨hl, hs, he⟩, execIrq_completes hs he⟩

/-- The three steps with nothing between: the IFE ends idle, as it began. -/
theorem run_acknowledge {s : State} (hl : s.life = lifeReady) (hi : s.istate = iIdle)
    (hirq : irq s.dev = true) :
    run 3 (s.scheduled 3 .ife) = .next { s with
      sched := [], pending := true, icrLatch := s.dev.cause, istate := iIdle,
      dev := { s.dev with cause := 0#32, mask := s.dev.mask ||| s.cfg.irqEnableMask },
      trace := .regWr .ife s.cfg.offIms s.cfg.irqEnableMask ::
        .regRd .ife s.cfg.offIcr s.dev.cause :: s.trace } := by
  have hlegal : s.life ≠ lifeUnused := by rw [hl]; decide
  have hack : stepEnabled .irqAck s = true := by simp [stepEnabled, hl, hi, hirq]
  calc run 3 (s.scheduled 3 .ife)
    _ = run 2 _ := run_succ_of_agent (p := .irqAck) rfl hlegal rfl hack
      (execIrqAck_next.2 ⟨⟨hl, hi, hirq⟩, rfl⟩)
    _ = run 1 _ := run_succ_of_agent (p := .irqSched) rfl hlegal rfl rfl (execIrqSched_next.2 ⟨rfl, rfl⟩)
    _ = run 0 _ := run_succ_of_agent (p := .irqRearm) rfl hlegal rfl rfl (execIrqRearm_next.2 ⟨rfl, rfl⟩)

/-- Settles O30: a step is enabled by the IFE's own state alone, no operation issues two transactions, and
the three steps run on from one another. -/
theorem acknowledgeNeverBlocks : Obligations.AcknowledgeNeverBlocks :=
  ⟨fun _ hl => ⟨fun hi => ife_performs hl rfl (beq_iff_eq.2 hi),
      fun hi => ife_performs hl rfl (beq_iff_eq.2 hi)⟩,
    fun _ _ _ _ e => (exec_stepExtends e).exists_append,
    fun _ hl hi hirq => (run_acknowledge hl hi hirq).trans (by rw [hi])⟩

/-! ## The ring is out of reach (R193) -/

theorem State.withRingOf_self (s : State) : s.withRingOf s = s := rfl

section OutOfReach
variable {i : Instr} {s t : State}

/-- The IFE's operations read nothing of the ring and carry it along: with another ring in its place, each
does the same. -/
theorem execIrq_withRingOf (hs : Agent.sequences .ife i = true) (e : exec i s = .next t) (u : State) :
    exec i (s.withRingOf u) = .next (t.withRingOf u) := by
  cases i
  case irqAck => obtain ⟨h, rfl⟩ := execIrqAck_next.1 e; exact execIrqAck_next.2 ⟨h, rfl⟩
  case irqSched => obtain ⟨h, rfl⟩ := execIrqSched_next.1 e; exact execIrqSched_next.2 ⟨h, rfl⟩
  case irqRearm => obtain ⟨h, rfl⟩ := execIrqRearm_next.1 e; exact execIrqRearm_next.2 ⟨h, rfl⟩
  all_goals exact absurd hs (by decide)

/-- So they leave the ring as it is: put the state's own ring in its place. -/
theorem execIrq_keepsRing (hs : Agent.sequences .ife i = true) (e : exec i s = .next t) :
    t = t.withRingOf s := by
  have hself := execIrq_withRingOf hs e s
  rw [s.withRingOf_self, e] at hself
  exact Host.Outcome.next.inj hself

/-- The IFE's operations access ICR and IMS alone. -/
theorem execIrq_events (hs : Agent.sequences .ife i = true) (e : exec i s = .next t) :
    ∃ l, t.trace = l ++ s.trace ∧ ∀ event ∈ l, event = .regRd .ife s.cfg.offIcr s.dev.cause ∨
      event = .regWr .ife s.cfg.offIms s.cfg.irqEnableMask := by
  cases i
  case irqAck =>
    obtain ⟨-, rfl⟩ := execIrqAck_next.1 e
    exact ⟨[_], rfl, List.forall_mem_singleton.2 (.inl rfl)⟩
  case irqSched => obtain ⟨-, rfl⟩ := execIrqSched_next.1 e; exact ⟨[], rfl, nofun⟩
  case irqRearm =>
    obtain ⟨-, rfl⟩ := execIrqRearm_next.1 e
    exact ⟨[_], rfl, List.forall_mem_singleton.2 (.inr rfl)⟩
  all_goals exact absurd hs (by decide)

end OutOfReach

/-- Settles O31: no dependence on the ring, which also leaves it unchanged, and the events by the
operation. -/
theorem frontEndNeverTouchesTheRing : Obligations.FrontEndNeverTouchesTheRing :=
  fun _ _ _ u hs e => ⟨execIrq_withRingOf hs e u, execIrq_keepsRing hs e, execIrq_events hs e⟩

end Sys2Proof.Machine
end

section
/-! Proofs/HostPortLifecycle.lean: families PORT, INIT and QUIESCE (44_host_port_lifecycle.md R200 to R219):
what becomes of the oldest waiting command, the steps one by one, and that quiescing is a barrier. -/

namespace Sys2Proof.Machine

/-! ## The next step of an agent by its code -/

theorem encode_injective : Function.Injective encode := by
  intro i j h
  have hcode := decode_eq_ok_iff.2 h
  rw [decode_encode] at hcode
  exact Except.ok.inj hcode

/-- What an agent performs next is the operation its next code names. -/
theorem agentOperation_eq_of_nextCode {a : Agent} {i p : Instr} {s : State}
    (hcode : nextCode a s = some (encode p)) (hop : agentOperation a s = some i) : i = p := by
  obtain ⟨-, -, -, c, hc, hd⟩ := agentOperation_some hop
  rw [hcode, decode_eq_ok_iff.1 hd] at hc
  exact encode_injective (Option.some.inj hc).symm

/-- An agent whose next code names an operation that is not enabled has no step. -/
theorem agentOperation_eq_none_of_nextCode {a : Agent} {p : Instr} {s : State}
    (hcode : nextCode a s = some (encode p)) (hoff : stepEnabled p s = false) :
    agentOperation a s = none := by
  refine Option.eq_none_iff_forall_ne_some.2 fun i hop => ?_
  obtain rfl := agentOperation_eq_of_nextCode hcode hop
  obtain ⟨-, -, he⟩ := agentOperation_eq_some.1 hop
  exact Bool.false_ne_true (hoff.symm.trans he)

/-! ## The oldest waiting command (R200) -/

section Waiting
variable {s t : State} {c : Command} {rest : List Command} {moves : List Move}

/-- HOSTCMD, idle, looks at the oldest waiting command alone. -/
theorem acceptStep_of_waiting (hl : s.life ≠ lifeUnused) (hh : s.hstate = hIdle)
    (hc : s.cmds = c :: rest) : acceptStep s = turnAway c { s with cmds := rest } := by
  rw [acceptStep, if_neg (not_or.2 ⟨hl, not_not_intro hh⟩), hc]

/-- A command that R200 turns away is taken by a step that performs no operation (30_encoding.md R105). -/
theorem step_of_turnAway (hh : s.hstate = hIdle) (hc : s.cmds = c :: rest)
    (hsched : s.sched = .agent .hostcmd :: moves) (hl : s.life ≠ lifeUnused)
    (h : turnAway c { s with sched := moves, cmds := rest } = some t) :
    agentOperation .hostcmd s = none ∧ step s = .next t := by
  have hacc : acceptStep { s with sched := moves } = some t :=
    (acceptStep_of_waiting (s := { s with sched := moves }) hl hh hc).trans h
  have hop : agentOperation .hostcmd { s with sched := moves } = none := agentOperation_of_acceptStep hacc
  exact ⟨hop, step_of_acceptStep hsched hacc⟩

/-- HOSTCMD without an operation, and with no command it turns away, stays as it is. -/
theorem step_of_host_waits (hsched : s.sched = .agent .hostcmd :: moves)
    (hop : agentOperation .hostcmd s = none) (hacc : acceptStep s = none) :
    step s = .next { s with sched := moves } := by
  refine (step_of_agent hsched).trans (agentStep_of_none hop fun _ => ?_)
  rw [acceptStep_sched, hacc]; rfl

end Waiting

theorem goodBase_eq_false {cfg : Config} {base : DWord}
    (h : base.toNat % 16 ≠ 0 ∨ 2 ^ 64 < base.toNat + cfg.ringSize * 16) : goodBase cfg base = false := by
  rw [Bool.eq_false_iff, Ne, goodBase_iff]
  omega

/-! ## The port (R201 to R203) -/

/-- Settles O33: the lifecycle state is tested first, then the arguments; the reply joins the two indices. -/
theorem portReadReplies : Obligations.PortReadReplies := by
  refine ⟨fun s present len rest hh hc => ⟨fun moves hsched hl =>
    ⟨fun hnot => step_of_turnAway hh hc hsched hl (if_pos hnot), fun hready hbad =>
      step_of_turnAway hh hc hsched hl ((if_neg (not_not_intro hready)).trans
        (if_pos (hbad.imp_right Nat.lt_succ_of_le)))⟩, fun hready hpresent hlen => ?_⟩, fun s hh => ?_⟩
  · subst hpresent
    rw [← indexOfWord_eq_setWidth]
    exact execPortRdH_next.2 ⟨hh, hready, len, rest, hc, hlen, rfl⟩
  · rw [← indexOfWord_eq_setWidth, ← portWord_eq_append]
    exact execPortRdT_next.2 ⟨hh, rfl⟩

/-- Settles O34: the lifecycle state is tested first, then the arguments. -/
theorem portWriteIsAcknowledged : Obligations.PortWriteIsAcknowledged := by
  refine fun s present len rest hh hc => ⟨fun moves hsched hl =>
    ⟨fun hnot => step_of_turnAway hh hc hsched hl (if_pos hnot), fun hready hbad =>
      step_of_turnAway hh hc hsched hl ((if_neg (not_not_intro hready)).trans (if_pos hbad))⟩,
    fun hready hpresent hlen => ?_⟩
  subst hpresent
  exact execPortWrite_next.2 ⟨hh, hready, len, rest, hc, hlen, rfl⟩

/-! ## INIT's command and its register writes (R207, R211 to R215) -/

/-- Settles O36: the lifecycle state is tested before the base. -/
theorem initLatchTakesOrRefuses : Obligations.InitLatchTakesOrRefuses := by
  refine fun s base buf rest hh hc => ⟨fun moves hsched hl =>
    ⟨fun hnot => step_of_turnAway hh hc hsched hl (if_pos hnot), fun hlife hbad =>
      step_of_turnAway hh hc hsched hl ((if_neg (not_not_intro hlife)).trans
        (if_pos (goodBase_eq_false hbad)))⟩, fun hlife halign hend => ?_⟩
  exact execInitLatch_next.2 ⟨hh, hlife, base, buf, rest, hc, goodBase_iff.2 ⟨halign, hend⟩, rfl⟩

/-- INIT's tail, N - 1, is an index (R214). -/
theorem initTail_toNat {cfg : Config} (h : cfg.Ok) :
    (wordOfIndex (BitVec.ofNat 16 (cfg.ringSize - 1))).toNat = cfg.ringSize - 1 := by
  obtain ⟨-, hmax, -⟩ := h
  rw [wordOfIndex_toNat, BitVec.toNat_ofNat]
  omega

/-- Settles O38: the words written are the halves of the base, the ring's size and its last index. -/
theorem initProgramsTheRegisters : Obligations.InitProgramsTheRegisters := by
  intro s hok
  exact ⟨⟨_, _, baseHigh_append_baseLow s.ringBase, fun hh => execInitBah_next.2 ⟨hh, rfl⟩,
      fun hh => execInitBal_next.2 ⟨hh, rfl⟩⟩,
    ⟨_, ringLength_toNat hok, fun hh => execInitLen_next.2 ⟨hh, rfl⟩⟩,
    ⟨_, initTail_toNat hok, fun hh => execInitTail_next.2 ⟨hh, rfl⟩⟩,
    fun hh => execInitArm_next.2 ⟨hh, rfl⟩⟩

/-! ## INIT's descriptor writes (R208 to R210) -/

/-- Memory `m'` is `m` with the low `n` bytes of `v` stored from `a` up (20_memory.md R60, R62). -/
structure Memory.Stores (m m' : Memory) (a n : Nat) (v : DWord) : Prop where
  wf : m'.wf = true
  bytes : ∀ k < n, m'.read (a + k) = v.extractLsb' (8 * k) 8
  others : ∀ x, x < a ∨ a + n ≤ x → m'.read x = m.read x

/-- A write that does not run past the top of the address space stores what it is given. -/
theorem Memory.writeBytes_stores {m : Memory} (hm : m.wf = true) {addr : DWord} {n : Nat} (v : DWord)
    (h : addr.toNat + n ≤ 2 ^ 64) : m.Stores (m.writeBytes addr (bytesLE v n)) addr.toNat n v := by
  refine ⟨Memory.writeBytes_wf _ _ _ hm, fun k hk => ?_, fun x hx => ?_⟩
  · have hk' : k < (bytesLE v n).length := by rwa [bytesLE_length]
    rw [Memory.read_writeBytes_at _ _ _ _ hk' hm (by rwa [bytesLE_length]), bytesLE_getElem]
  · refine Memory.read_writeBytes_other _ _ _ _ hm fun k hk => ?_
    rw [bytesLE_length] at hk
    rw [BitVec.toNat_add, BitVec.toNat_ofNat]
    omega

/-- Zero's bytes are zeros. -/
theorem Memory.Stores.zero_bytes {m m' : Memory} {a n : Nat} (h : m.Stores m' a n 0#64) :
    ∀ k < n, m'.read (a + k) = 0#8 :=
  fun k hk => (h.bytes k hk).trans BitVec.extractLsb'_zero

section InitDescriptor
variable {s : State} (hmax : s.cfg.ringSize ≤ 65536) (hb : goodBase s.cfg s.ringBase = true)
  (hi : s.initI.toNat < s.cfg.ringSize)
include hmax hi

theorem initI_setWidth_toNat : (s.initI.setWidth 16).toNat = s.initI.toNat := by
  rw [BitVec.toNat_setWidth]
  omega

include hb

/-- A field of the descriptor INIT is at does not wrap. -/
theorem initFieldAddress_toNat (off : DWord) (ho : off.toNat < 16) :
    (initDescAddress s + off).toNat = s.ringBase.toNat + 16 * s.initI.toNat + off.toNat := by
  have hwidth := initI_setWidth_toNat hmax hi
  rw [initDescAddress_eq (by omega), fieldAddress_toNat off hb (by omega) ho, hwidth]

theorem initDescAddress_toNat : (initDescAddress s).toNat = s.ringBase.toNat + 16 * s.initI.toNat := by
  have h := initFieldAddress_toNat hmax hb hi 0#64 (by decide)
  rwa [BitVec.add_zero] at h

/-- A field of the descriptor INIT is at is an access that completes (20_memory.md R63, R78). -/
theorem accessRefusal_initField (off : DWord) {n : Nat} (hn : n = 1 ∨ n = 4 ∨ n = 8)
    (ho : off.toNat % n = 0) (hon : off.toNat + n ≤ 16) :
    accessRefusal s (initDescAddress s + off) n = none := by
  have hwidth := initI_setWidth_toNat hmax hi
  rw [initDescAddress_eq (by omega)]
  exact accessRefusal_field off hb (by omega) hn ho hon

theorem accessRefusal_initDescriptor : accessRefusal s (initDescAddress s) 8 = none := by
  have h := accessRefusal_initField hmax hb hi 0#64 (n := 8) (by decide) (by decide) (by decide)
  rwa [BitVec.add_zero] at h

/-- A write of such a field stays below the top of the address space. -/
theorem initField_stores {m : Memory} (hm : m.wf = true) (off : DWord) {n : Nat} (v : DWord) (hn : n ≠ 0)
    (hon : off.toNat + n ≤ 16) :
    m.Stores (m.writeBytes (initDescAddress s + off) (bytesLE v n)) (initDescAddress s + off).toNat n v := by
  obtain ⟨-, hend⟩ := goodBase_iff.1 hb
  refine Memory.writeBytes_stores hm v ?_
  rw [initFieldAddress_toNat hmax hb hi off (by omega)]
  omega

theorem initDescriptor_stores {m : Memory} (hm : m.wf = true) (b : DWord) :
    m.Stores (m.writeBytes (initDescAddress s) (bytesLE b 8)) (initDescAddress s).toNat 8 b := by
  have h := initField_stores hmax hb hi hm 0#64 b (n := 8) (by decide) (by decide)
  rwa [BitVec.add_zero] at h

end InitDescriptor

/-- Settles O37: each write is an access to a field of the descriptor, and stores there what it is given. -/
theorem initWritesOneDescriptor : Obligations.InitWritesOneDescriptor := by
  intro s hok hm hb hi
  obtain ⟨-, hmax, -⟩ := hok
  refine ⟨initDescAddress_toNat hmax hb hi, fun b hh hbuf => ?_, fun hh => ?_, fun hh => ?_⟩
  · have h := initDescriptor_stores hmax hb hi hm b
    exact ⟨_, execInitDescA_next.2 ⟨hh, b, hbuf, accessRefusal_initDescriptor hmax hb hi, rfl⟩, rfl,
      h.wf, h.bytes, h.others⟩
  · have h := initField_stores hmax hb hi hm lowerOff 0#64 (n := 4) (by decide) (by decide)
    have hacc := accessRefusal_initField hmax hb hi lowerOff (n := 4) (by decide) (by decide) (by decide)
    exact ⟨_, execInitDescL_next.2 ⟨hh, hacc, rfl⟩, rfl, h.wf, h.zero_bytes, h.others⟩
  · have h := initField_stores hmax hb hi hm upperOff 0#64 (n := 4) (by decide) (by decide)
    have hacc := accessRefusal_initField hmax hb hi upperOff (n := 4) (by decide) (by decide) (by decide)
    refine ⟨_, execInitDescU_next.2 ⟨hh, hacc, rfl⟩, ?_⟩
    split <;> exact ⟨rfl, h.wf, h.zero_bytes, h.others⟩

/-! ## QUIESCE (R216, R217) -/

/-- Settles O39: with an acknowledge in flight the command begins nothing and is not turned away. -/
theorem quiesceMasksAndCancels : Obligations.QuiesceMasksAndCancels := by
  refine fun s rest hh hc => ⟨fun moves hsched hl =>
    ⟨fun hnot => step_of_turnAway hh hc hsched hl (if_pos hnot), fun hready hbusy => ?_⟩,
    fun hready hidle => execQuiesceMask_next.2 ⟨hh, hready, hidle, rest, hc, rfl⟩⟩
  have hcode : nextCode .hostcmd s = some (encode .quiesceMask) := by
    simp only [nextCode, hh, hc]; rfl
  have hoff : stepEnabled .quiesceMask s = false := by
    refine Bool.eq_false_iff.2 fun he => ?_
    obtain ⟨-, hidle, -⟩ := quiesceAccepted_iff.1 (Bool.and_eq_true_iff.1 he).2
    exact hbusy hidle
  have hop := agentOperation_eq_none_of_nextCode hcode hoff
  exact ⟨hop, step_of_host_waits hsched hop
    ((acceptStep_of_waiting hl hh hc).trans (if_neg (not_not_intro hready)))⟩

/-- HOSTCMD at the barrier has no step but QUIESCE.WAIT (10_state.md R32). -/
theorem nextCode_of_hQwait {s : State} (hh : s.hstate = hQwait) :
    nextCode .hostcmd s = some (encode .quiesceWait) := by
  simp only [nextCode, hh]; rfl

/-- Settles O40: QUIESCE.WAIT alone could be HOSTCMD's step, and a running pass disables it. -/
theorem quiesceWaitsForThePass : Obligations.QuiesceWaitsForThePass := by
  refine fun s hh => ⟨fun hw => execQuiesceWait_next.2 ⟨⟨hh, hw⟩, rfl⟩, fun hw => ?_⟩
  have hoff : stepEnabled .quiesceWait s = false :=
    Bool.and_eq_false_iff.2 (.inr (beq_eq_false_iff_ne.2 hw))
  have hop := agentOperation_eq_none_of_nextCode (nextCode_of_hQwait hh) hoff
  exact ⟨hop, fun moves hsched => step_of_host_waits hsched hop
    (acceptStep_eq_none_of_busy (by rw [hh]; decide))⟩

/-! ## The barrier (R219) -/

/-- The event is a transaction of another agent than `a`. -/
def Event.byOther (a : Agent) (e : Event) : Bool := e.agentOf.any (· != a)

theorem Event.byOther_eq_false {a : Agent} {e : Event} :
    e.byOther a = false ↔ ∀ b, e.agentOf = some b → b = a := by
  cases h : e.agentOf <;> simp [Event.byOther, h]

theorem Event.isTransaction_eq (e : Event) : e.isTransaction = e.agentOf.isSome := by
  cases e <;> rfl

/-- An event that is no transaction is nobody's. -/
theorem Event.byOther_of_not_transaction {a : Agent} {e : Event} (h : e.isTransaction = false) :
    e.byOther a = false := by
  rw [Event.isTransaction_eq, Option.isSome_eq_false_iff, Option.isNone_iff_eq_none] at h
  rw [Event.byOther, h, Option.any_none]

/-- The WALKER's operations issue transactions of the WALKER only. -/
theorem execPass_adds_none_byOther {i : Instr} {s t : State} (hs : Agent.sequences .walker i = true)
    (e : exec i s = .next t) : AddsNone (Event.byOther .walker) s.trace t.trace := by
  cases i
  case passStart => obtain ⟨-, rfl⟩ := execPassStart_next.1 e; exact .same
  case passSnapH | passAdv | passConsume =>
    simp only [exec, execPassSnapH_next, execPassAdv_next, execPassConsume_next] at e
    obtain ⟨-, rfl⟩ := e; exact .event rfl
  case passInspU | passInspL | passInspA | passClrR | passClrW =>
    simp only [exec, execPassInspU_next, execPassInspL_next, execPassInspA_next, execPassClrR_next,
      execPassClrW_next] at e
    obtain ⟨-, -, rfl⟩ := e; exact .event rfl
  case passSnapT | passRrH | passRrT =>
    simp only [exec, execPassSnapT_next, execPassRrH_next, execPassRrT_next] at e
    obtain ⟨-, rfl⟩ := e
    split
    · exact .event rfl
    · exact .events rfl rfl
  case passTest =>
    obtain ⟨-, rfl⟩ := execPassTest_next.1 e
    split
    · exact .same
    · split
      · exact .event rfl
      · exact .same
  all_goals exact absurd hs (by decide)

/-- Going from `s` to `t` keeps the barrier: no pass begins, RXW goes on quiescing or reports that it is
done with no pass running, and every transaction is the WALKER's (R219). -/
structure KeepsBarrier (s t : State) : Prop where
  walker : s.wstate = wIdle → t.wstate = wIdle
  life : t.life = lifeQuiescing ∨
    t.life = lifeUnattached ∧ s.wstate = wIdle ∧ t.trace = .quiesced :: s.trace
  trace : AddsNone (Event.byOther .walker) s.trace t.trace

section Barrier
variable {s t : State}

/-- A pass that runs goes on; none begins outside READY (R160). -/
theorem execPass_keepsBarrier {i : Instr} (hq : s.life = lifeQuiescing)
    (hs : Agent.sequences .walker i = true) (he : stepEnabled i s = true) (e : exec i s = .next t) :
    KeepsBarrier s t := by
  have hbusy : s.wstate ≠ wIdle := (stepEnabled_walker hs he).resolve_left (by rw [hq]; decide)
  obtain ⟨hframe, -⟩ := execPass_frame hs e
  exact ⟨fun h => absurd h hbusy, .inl (by rw [hframe]; exact hq), execPass_adds_none_byOther hs e⟩

/-- No acknowledge is in flight, and none begins outside READY (43_irq_front_end.md R190). -/
theorem Invariant.ife_blocked {i : Instr} (hI : Invariant s) (hq : s.life = lifeQuiescing)
    (hs : Agent.sequences .ife i = true) : stepEnabled i s ≠ true := by
  have hready : s.life ≠ lifeReady := by rw [hq]; decide
  exact fun he => ((stepEnabled_ife hs he).resolve_left hready) (hI.ife_idle hready)

/-- HOSTCMD can only report that the machine is quiesced (R217). -/
theorem Invariant.host_keepsBarrier {i : Instr} (hI : Invariant s) (hq : s.life = lifeQuiescing)
    (hop : agentOperation .hostcmd s = some i) (e : exec i s = .next t) : KeepsBarrier s t := by
  obtain rfl := agentOperation_eq_of_nextCode (nextCode_of_hQwait (hI.quiesceWaits.2 hq)) hop
  obtain ⟨⟨-, hw⟩, rfl⟩ := execQuiesceWait_next.1 e
  exact ⟨id, .inr ⟨rfl, hw, rfl⟩, .event rfl⟩

/-- A command that is presented waits, and nothing else changes. -/
theorem presentCommand_keepsBarrier (c : Command) (hq : s.life = lifeQuiescing) :
    KeepsBarrier s (presentCommand c s) := by
  unfold presentCommand
  split <;> exact ⟨id, .inl hq, .same⟩

/-- The DEVICE has no part in the barrier. -/
theorem deviceMove_keepsBarrier (m : DevMove) (hq : s.life = lifeQuiescing) :
    KeepsBarrier s (deviceMove m s) := by
  obtain h | ⟨_, _, _, _, _, l, h, -, -, hl⟩ := deviceMove_cases m s
  · rw [h]; exact ⟨id, .inl hq, .same⟩
  · rw [h]; exact ⟨id, .inl hq, l, rfl, fun ev hev => Event.byOther_of_not_transaction (hl ev hev)⟩

/-- Whoever moves, a step keeps the barrier. -/
theorem Invariant.step_keepsBarrier (hI : Invariant s) (hq : s.life = lifeQuiescing)
    (e : step s = .next t) : KeepsBarrier s t := by
  obtain ⟨rest, h⟩ := step_cases e
  have hrest : Invariant { s with sched := rest } := hI.of_unread
  suffices KeepsBarrier { s with sched := rest } t from ⟨this.walker, this.life, this.trace⟩
  obtain rfl | ⟨a, i, -, hop, he⟩ | ⟨-, h⟩ | ⟨_, -, h⟩ | ⟨c, -, rfl⟩ | ⟨m, -, rfl⟩ := h
  · exact ⟨id, .inl hq, .same⟩
  · obtain ⟨-, hs, hen⟩ := agentOperation_eq_some.1 hop
    cases a with
    | walker => exact execPass_keepsBarrier hq hs hen he
    | ife => exact absurd hen (hrest.ife_blocked hq hs)
    | hostcmd => exact hrest.host_keepsBarrier hq hop he
  · obtain ⟨-, hidle, -⟩ := acceptStep_eq_some.1 h
    exact absurd (hidle.symm.trans (hI.quiesceWaits.2 hq)) (by decide)
  · rw [h]; exact ⟨id, .inl hq, .same⟩
  · exact presentCommand_keepsBarrier c hq
  · exact deviceMove_keepsBarrier m hq

end Barrier

/-- Settles O41: each move keeps the barrier, and outside READY the invariant leaves no work queued and no
acknowledge in flight. -/
theorem quiescingIsABarrier : Obligations.QuiescingIsABarrier := by
  intro s t hI hq e
  have ht := everyStepKeepsTheInvariant s t hI e
  obtain ⟨hwalker, hlife, l, htrace, hl⟩ := hI.step_keepsBarrier hq e
  have hready : t.life ≠ lifeReady := by
    obtain h | ⟨h, -⟩ := hlife <;> (rw [h]; decide)
  exact ⟨Bool.eq_false_iff.2 (ht.not_pending hready), ht.ife_idle hready, hwalker, hlife, l, htrace,
    fun ev hev => Event.byOther_eq_false.1 (hl ev hev)⟩

end Sys2Proof.Machine
end

section
/-! Proofs/WholeInit.lean: an INIT that HOSTCMD runs by itself (44_host_port_lifecycle.md R206 to R218). It
takes its command, writes three fields of each descriptor, one descriptor after another, and then programs
the registers and arms the machine. -/

namespace Sys2Proof.Machine

/-! ## Steps of one agent with nothing between -/

/-- `k` steps given to agent `a`, with nothing between, lead from `s` to `t`, whatever the schedule holds
behind them. -/
def AgentRuns (a : Agent) (k : Nat) (s t : State) : Prop :=
  ∀ rest, run k { s with sched := List.replicate k (.agent a) ++ rest } = .next { t with sched := rest }

theorem AgentRuns.trans {a : Agent} {j k : Nat} {s t u : State} (h : AgentRuns a j s u)
    (h' : AgentRuns a k u t) : AgentRuns a (j + k) s t := by
  intro rest
  rw [List.replicate_add, List.append_assoc, run_add, h, andThen_next, h']

/-! ## The parts of INIT -/

/-- INIT.LATCH, of this command, with `rest` behind it (R207). -/
def State.initLatched (s : State) (base : DWord) (buf : List DWord) (rest : List Command) : State :=
  { s with
    cmds := rest, initBase := base, initBuf := buf, ringBase := base, initI := 0#17, hstate := hDescA }

/-- The three writes of the descriptor INIT is at, whose buffer address is `b`, and the step to the next
index, or to the registers behind the last (R208 to R210). -/
def State.descriptorWritten (s : State) (b : DWord) : State :=
  { s with
    mem := ((s.mem.writeBytes (initDescAddress s) (bytesLE b 8)).writeBytes
      (initDescAddress s + lowerOff) (bytesLE 0#64 4)).writeBytes
      (initDescAddress s + upperOff) (bytesLE 0#64 4),
    initI := if s.initI.toNat + 1 < s.cfg.ringSize then s.initI + 1#17 else s.initI,
    hstate := if s.initI.toNat + 1 < s.cfg.ringSize then hDescA else hBah,
    trace := .memWr .hostcmd (initDescAddress s + upperOff) 4 0#64 ::
      .memWr .hostcmd (initDescAddress s + lowerOff) 4 0#64 ::
      .memWr .hostcmd (initDescAddress s) 8 b :: s.trace }

/-- The register writes of INIT, newest first (R211 to R215). -/
def initRegisterWrites (cfg : Config) (base : DWord) : List Event :=
  [.regWr .hostcmd cfg.offIms cfg.irqEnableMask,
    .regWr .hostcmd cfg.offRdt (wordOfIndex (BitVec.ofNat 16 (cfg.ringSize - 1))),
    .regWr .hostcmd cfg.offRdlen (ringLength cfg),
    .regWr .hostcmd cfg.offRdbal (baseLow base),
    .regWr .hostcmd cfg.offRdbah (baseHigh base)]

/-- The registers programmed and the machine armed (R211 to R215). -/
def State.initArmed (s : State) : State :=
  { s with
    hstate := hIdle, life := lifeReady,
    dev := { s.dev with
      rdbah := baseHigh s.ringBase, rdbal := baseLow s.ringBase, rdlen := ringLength s.cfg,
      rdt := wordOfIndex (BitVec.ofNat 16 (s.cfg.ringSize - 1)),
      mask := s.dev.mask ||| s.cfg.irqEnableMask },
    trace := .initDone :: initRegisterWrites s.cfg s.ringBase ++ s.trace }

section Parts
variable {s : State}

theorem agentRuns_initLatched {base : DWord} {buf : List DWord} {rest : List Command}
    (hl : s.life = lifeUnattached) (hh : s.hstate = hIdle) (hc : s.cmds = .init base buf :: rest)
    (hb : goodBase s.cfg base = true) : AgentRuns .hostcmd 1 s (s.initLatched base buf rest) := by
  have hlegal : s.life ≠ lifeUnused := by rw [hl]; decide
  have he : stepEnabled .initLatch s = true :=
    Bool.and_eq_true_iff.2 ⟨beq_iff_eq.2 hh, initAccepted_iff.2 ⟨hl, base, buf, rest, hc, hb⟩⟩
  intro moves
  exact run_succ_of_agent (p := .initLatch) (k := 0) rfl hlegal rfl he
    (execInitLatch_next.2 ⟨hh, hl, base, buf, rest, hc, hb, rfl⟩)

theorem agentRuns_descriptorWritten {b : DWord} (hl : s.life ≠ lifeUnused) (hh : s.hstate = hDescA)
    (hmax : s.cfg.ringSize ≤ 65536) (hb : goodBase s.cfg s.ringBase = true)
    (hi : s.initI.toNat < s.cfg.ringSize) (hbuf : s.initBuf[s.initI.toNat]? = some b) :
    AgentRuns .hostcmd 3 s (s.descriptorWritten b) := by
  have hA := accessRefusal_initDescriptor hmax hb hi
  have hL := accessRefusal_initField hmax hb hi lowerOff (n := 4) (by decide) (by decide) (by decide)
  have hU := accessRefusal_initField hmax hb hi upperOff (n := 4) (by decide) (by decide) (by decide)
  intro moves
  calc run 3 { s with sched := List.replicate 3 (.agent .hostcmd) ++ moves }
    _ = run 2 _ := run_succ_of_agent (p := .initDescA) rfl hl rfl (beq_iff_eq.2 hh)
      (execInitDescA_next.2 ⟨hh, b, hbuf, hA, rfl⟩)
    _ = run 1 _ := run_succ_of_agent (p := .initDescL) rfl hl rfl rfl
      (execInitDescL_next.2 ⟨rfl, hL, rfl⟩)
    _ = run 0 _ := run_succ_of_agent (p := .initDescU) rfl hl rfl rfl
      (execInitDescU_next.2 ⟨rfl, hU, rfl⟩)
    _ = .next { s.descriptorWritten b with sched := moves } := by
      simp only [run, State.descriptorWritten]
      split_ifs <;> rfl

theorem agentRuns_initArmed (hl : s.life ≠ lifeUnused) (hh : s.hstate = hBah) :
    AgentRuns .hostcmd 5 s s.initArmed := by
  intro moves
  calc run 5 { s with sched := List.replicate 5 (.agent .hostcmd) ++ moves }
    _ = run 4 _ := run_succ_of_agent (p := .initBah) rfl hl rfl (beq_iff_eq.2 hh)
      (execInitBah_next.2 ⟨hh, rfl⟩)
    _ = run 3 _ := run_succ_of_agent (p := .initBal) rfl hl rfl rfl (execInitBal_next.2 ⟨rfl, rfl⟩)
    _ = run 2 _ := run_succ_of_agent (p := .initLen) rfl hl rfl rfl (execInitLen_next.2 ⟨rfl, rfl⟩)
    _ = run 1 _ := run_succ_of_agent (p := .initTail) rfl hl rfl rfl (execInitTail_next.2 ⟨rfl, rfl⟩)
    _ = run 0 _ := run_succ_of_agent (p := .initArm) rfl hl rfl rfl (execInitArm_next.2 ⟨rfl, rfl⟩)

end Parts

/-! ## A descriptor as INIT leaves it -/

/-- Memory at `a` holds a descriptor as INIT makes it: the buffer address `b`, and zeros above it (R208 to
R210). -/
structure Memory.HoldsFresh (m : Memory) (a : Nat) (b : DWord) : Prop where
  address : ∀ k < 8, m.read (a + k) = b.extractLsb' (8 * k) 8
  zeros : ∀ k < 16, 8 ≤ k → m.read (a + k) = 0#8

theorem Memory.HoldsFresh.congr {m m' : Memory} {a : Nat} {b : DWord} (h : m.HoldsFresh a b)
    (hm : ∀ k < 16, m'.read (a + k) = m.read (a + k)) : m'.HoldsFresh a b :=
  ⟨fun k hk => (hm k (by omega)).trans (h.address k hk),
    fun k hk hk8 => (hm k hk).trans (h.zeros k hk hk8)⟩

section Fresh
variable {s : State} {i : Half} {b : DWord}

/-- A word of zero bytes is zero. -/
theorem descWord_eq_zero {k : Nat} (h : ∀ j < 4, descByte s i (k + j) = 0#8) : descWord s i k = 0#32 := by
  refine BitVec.eq_of_getLsbD_eq fun j hj => ?_
  rw [descWord_bit s i k j hj, h (j / 8) (by omega), BitVec.getLsbD_zero, BitVec.getLsbD_zero]

/-- The address field is the value its bytes are of. -/
theorem descAddrField_eq (h : ∀ k < 8, descByte s i k = b.extractLsb' (8 * k) 8) :
    descAddrField s i = b := by
  refine BitVec.eq_of_getLsbD_eq fun j hj => ?_
  have hbit : (descAddrField s i).getLsbD j = (descByte s i (j / 8)).getLsbD (j % 8) := by
    rw [descAddrField, BitVec.getLsbD_append]
    split
    next hlow => rw [descWord_bit s i 0 j hlow, Nat.zero_add]
    next =>
      rw [descWord_bit s i 4 (j - 32) (by omega), show 4 + (j - 32) / 8 = j / 8 by omega,
        show (j - 32) % 8 = j % 8 by omega]
  rw [hbit, h (j / 8) (by omega), BitVec.getLsbD_extractLsb', decide_eq_true (by omega), Bool.true_and,
    Nat.div_add_mod]

/-- What a fresh descriptor reads as (30_encoding.md R91 to R95). -/
theorem Memory.HoldsFresh.fields (h : s.mem.HoldsFresh (descAddress s.ringBase i).toNat b) :
    descAddrField s i = b ∧ descWord s i 8 = 0#32 ∧ descWord s i 12 = 0#32 :=
  ⟨descAddrField_eq h.address, descWord_eq_zero fun j hj => h.zeros (8 + j) (by omega) (by omega),
    descWord_eq_zero fun j hj => h.zeros (12 + j) (by omega) (by omega)⟩

end Fresh

/-- The buffer address, then two zero words, stored one behind the other make a fresh descriptor. -/
theorem Memory.HoldsFresh.of_stores {m m₁ m₂ m₃ : Memory} {a : Nat} {b : DWord} (h₁ : m.Stores m₁ a 8 b)
    (h₂ : m₁.Stores m₂ (a + 8) 4 0#64) (h₃ : m₂.Stores m₃ (a + 12) 4 0#64) :
    m₃.HoldsFresh a b ∧ ∀ x, x < a ∨ a + 16 ≤ x → m₃.read x = m.read x := by
  refine ⟨⟨fun k hk => ?_, fun k hk hk8 => ?_⟩, fun x hx => ?_⟩
  · rw [h₃.others _ (by omega), h₂.others _ (by omega), h₁.bytes k hk]
  · by_cases hk12 : k < 12
    · have hbyte := h₂.zero_bytes (k - 8) (by omega)
      rw [Nat.add_assoc, Nat.add_sub_cancel' hk8] at hbyte
      rw [h₃.others _ (by omega), hbyte]
    · have hbyte := h₃.zero_bytes (k - 12) (by omega)
      rwa [Nat.add_assoc, Nat.add_sub_cancel' (by omega)] at hbyte
  · rw [h₃.others x (by omega), h₂.others x (by omega), h₁.others x (by omega)]

/-- What the three writes of a descriptor leave of memory. -/
theorem descriptorWritten_mem {s : State} (b : DWord) (hm : s.mem.wf = true)
    (hmax : s.cfg.ringSize ≤ 65536) (hb : goodBase s.cfg s.ringBase = true)
    (hi : s.initI.toNat < s.cfg.ringSize) :
    (s.descriptorWritten b).mem.wf = true ∧
      (s.descriptorWritten b).mem.HoldsFresh (s.ringBase.toNat + 16 * s.initI.toNat) b ∧
      ∀ x, x < s.ringBase.toNat + 16 * s.initI.toNat ∨
          s.ringBase.toNat + 16 * s.initI.toNat + 16 ≤ x →
        (s.descriptorWritten b).mem.read x = s.mem.read x := by
  have h₁ := initDescriptor_stores hmax hb hi hm b
  have h₂ := initField_stores hmax hb hi h₁.wf lowerOff 0#64 (n := 4) (by decide) (by decide)
  have h₃ := initField_stores hmax hb hi h₂.wf upperOff 0#64 (n := 4) (by decide) (by decide)
  have hwf := h₃.wf
  rw [initDescAddress_toNat hmax hb hi] at h₁
  rw [initFieldAddress_toNat hmax hb hi _ (by decide), show lowerOff.toNat = 8 from rfl] at h₂
  rw [initFieldAddress_toNat hmax hb hi _ (by decide), show upperOff.toNat = 12 from rfl] at h₃
  dsimp only [State.descriptorWritten]
  exact ⟨hwf, Memory.HoldsFresh.of_stores h₁ h₂ h₃⟩

/-! ## One descriptor after another -/

/-- Going from `s` to `t` writes the descriptors from index `i` up to, not including, index `j`, by three
memory writes each. -/
structure BuildsDescriptors (s t : State) (i j : Nat) : Prop where
  frame : t = { s with initI := t.initI, hstate := t.hstate, mem := t.mem, trace := t.trace }
  memWf : t.mem.wf = true
  trace : ∃ l, t.trace = l ++ s.trace ∧ l.length + 3 * i = 3 * j ∧ ∀ e ∈ l, e.isMemWrite = true
  fresh : ∀ k, i ≤ k → k < j → ∃ b, s.initBuf[k]? = some b ∧
    t.mem.HoldsFresh (s.ringBase.toNat + 16 * k) b
  others : ∀ x, x < s.ringBase.toNat + 16 * i ∨ s.ringBase.toNat + 16 * j ≤ x →
    t.mem.read x = s.mem.read x

namespace BuildsDescriptors

variable {s t u : State} {i j k : Nat}

/-- First some descriptors, then those behind them. -/
theorem trans (h : BuildsDescriptors s u i j) (h' : BuildsDescriptors u t j k) (hij : i ≤ j)
    (_ : j ≤ k) : BuildsDescriptors s t i k := by
  have hbase : u.ringBase = s.ringBase := by rw [h.frame]
  have hbuf : u.initBuf = s.initBuf := by rw [h.frame]
  obtain ⟨hframe', hwf', htrace', hfresh', hothers'⟩ := h'
  rw [hbase] at hfresh' hothers'
  rw [hbuf] at hfresh'
  exact {
    frame := by rw [hframe', h.frame]
    memWf := hwf'
    trace := by
      obtain ⟨l, hl, hlen, hmem⟩ := h.trace
      obtain ⟨l', hl', hlen', hmem'⟩ := htrace'
      refine ⟨l' ++ l, by rw [hl', hl, List.append_assoc], ?_, fun e he => ?_⟩
      · rw [List.length_append]; omega
      · exact (List.mem_append.1 he).elim (hmem' e) (hmem e)
    fresh := fun n hin hnk => by
      by_cases hnj : n < j
      · obtain ⟨b, hb, hholds⟩ := h.fresh n hin hnj
        exact ⟨b, hb, hholds.congr fun m hm => hothers' _ (.inl (by omega))⟩
      · exact hfresh' n (by omega) hnk
    others := fun x hx => (hothers' x (by omega)).trans (h.others x (by omega)) }

theorem one {b : DWord} (hm : s.mem.wf = true) (hmax : s.cfg.ringSize ≤ 65536)
    (hb : goodBase s.cfg s.ringBase = true) (hi : s.initI.toNat < s.cfg.ringSize)
    (hbuf : s.initBuf[s.initI.toNat]? = some b) :
    BuildsDescriptors s (s.descriptorWritten b) s.initI.toNat (s.initI.toNat + 1) := by
  obtain ⟨hwf, hfresh, hothers⟩ := descriptorWritten_mem b hm hmax hb hi
  exact {
    frame := by rw [State.descriptorWritten]
    memWf := hwf
    trace := ⟨[_, _, _], rfl, by rw [Nat.mul_succ, Nat.add_comm]; rfl, by simp [Event.isMemWrite]⟩
    fresh := fun k hik hki => by
      obtain rfl : k = s.initI.toNat := by omega
      exact ⟨b, hbuf, hfresh⟩
    others := by rwa [Nat.mul_succ, ← Nat.add_assoc] }

end BuildsDescriptors

section Descriptors
variable {s : State} (hl : s.life ≠ lifeUnused) (hh : s.hstate = hDescA) (hm : s.mem.wf = true)
  (hmax : s.cfg.ringSize ≤ 65536) (hb : goodBase s.cfg s.ringBase = true)
  (hbuf : s.initBuf.length = s.cfg.ringSize)
include hl hh hm hmax hb hbuf

/-- The descriptor INIT is at, with the buffer address it was given for it. -/
theorem agentRuns_descriptor (hi : s.initI.toNat < s.cfg.ringSize) :
    ∃ b, AgentRuns .hostcmd 3 s (s.descriptorWritten b) ∧
      BuildsDescriptors s (s.descriptorWritten b) s.initI.toNat (s.initI.toNat + 1) := by
  have hb0 := List.getElem?_eq_getElem (hbuf.symm ▸ hi)
  exact ⟨_, agentRuns_descriptorWritten hl hh hmax hb hi hb0, .one hm hmax hb hi hb0⟩

/-- From the descriptor INIT is at, with `d` more behind it, to the last. -/
theorem agentRuns_descriptors {d : Nat} (hd : s.initI.toNat + d + 1 = s.cfg.ringSize) :
    ∃ t, AgentRuns .hostcmd (3 * (d + 1)) s t ∧ t.hstate = hBah ∧
      BuildsDescriptors s t s.initI.toNat s.cfg.ringSize := by
  induction d generalizing s with
  | zero =>
    obtain ⟨b, hrun, hbuilds⟩ := agentRuns_descriptor hl hh hm hmax hb hbuf (by omega)
    rw [show s.initI.toNat + 1 = s.cfg.ringSize from hd] at hbuilds
    exact ⟨_, hrun, if_neg (by omega), hbuilds⟩
  | succ d ih =>
    obtain ⟨b, hrun, hbuilds⟩ := agentRuns_descriptor hl hh hm hmax hb hbuf (by omega)
    have hmore : s.initI.toNat + 1 < s.cfg.ringSize := by omega
    have hindex : (s.descriptorWritten b).initI.toNat = s.initI.toNat + 1 :=
      (congrArg BitVec.toNat (if_pos hmore)).trans (count_succ_toNat (by omega))
    obtain ⟨t, hrun', hend, hbuilds'⟩ := ih (s := s.descriptorWritten b) hl (if_pos hmore) hbuilds.memWf
      hmax hb hbuf (by rw [hindex]; exact (by omega : s.initI.toNat + 1 + d + 1 = s.cfg.ringSize))
    rw [hindex] at hbuilds'
    refine ⟨t, ?_, hend, hbuilds.trans hbuilds' (Nat.le_succ _) hmore.le⟩
    rw [Nat.mul_succ, Nat.add_comm]
    exact hrun.trans hrun'

end Descriptors

/-! ## The whole INIT -/

theorem Event.isRegWrite_of_isMemWrite {e : Event} (h : e.isMemWrite = true) : e.isRegWrite = false := by
  cases e
  case memWr => rfl
  all_goals exact absurd h (by simp [Event.isMemWrite])

/-- The history of an INIT of `n` descriptors: three memory writes each, five register writes, and
`initDone` (R218). -/
theorem initArmed_trace {s u : State} {n : Nat} (h : BuildsDescriptors s u 0 n) :
    ∃ l, u.initArmed.trace = .initDone :: l ++ s.trace ∧ l.length = 3 * n + 5 ∧
      (l.filter Event.isMemWrite).length = 3 * n ∧ (l.filter Event.isRegWrite).length = 5 := by
  obtain ⟨l, htrace, hlen, hmem⟩ := h.trace
  have hlen : l.length = 3 * n := hlen
  have hreg : ∀ e ∈ l, ¬ e.isRegWrite = true := fun e he =>
    Bool.eq_false_iff.1 (Event.isRegWrite_of_isMemWrite (hmem e he))
  refine ⟨initRegisterWrites u.cfg u.ringBase ++ l, ?_, ?_, ?_, ?_⟩
  · rw [State.initArmed, htrace, List.cons_append, List.cons_append, List.append_assoc]
  · rw [List.length_append, hlen, Nat.add_comm]; rfl
  · rw [List.filter_append, List.filter_eq_self.2 hmem, List.length_append, hlen]
    exact Nat.zero_add _
  · rw [List.filter_append, List.filter_eq_nil_iff.2 hreg]; rfl

/-- An INIT by itself: the command is taken, the descriptors are written from index 0 to N - 1, and the
registers are programmed. -/
theorem run_init {s : State} {base : DWord} {buf : List DWord} {rest : List Command} (hok : s.cfg.Ok)
    (hm : s.mem.wf = true) (hl : s.life = lifeUnattached) (hh : s.hstate = hIdle)
    (hc : s.cmds = .init base buf :: rest) (hbuf : buf.length = s.cfg.ringSize)
    (hb : goodBase s.cfg base = true) :
    ∃ u, BuildsDescriptors (s.initLatched base buf rest) u 0 s.cfg.ringSize ∧
      run (3 * s.cfg.ringSize + 6) (s.scheduled (3 * s.cfg.ringSize + 6) .hostcmd) =
        .next { u.initArmed with sched := [] } := by
  obtain ⟨hmin, hmax, -⟩ := hok
  have hlegal : s.life ≠ lifeUnused := by rw [hl]; decide
  obtain ⟨u, hdescs, hbah, hbuilds⟩ := agentRuns_descriptors (s := s.initLatched base buf rest)
    (d := s.cfg.ringSize - 1) hlegal rfl hm hmax hb hbuf
    (show 0 + (s.cfg.ringSize - 1) + 1 = s.cfg.ringSize by omega)
  have harm := agentRuns_initArmed (by rw [hbuilds.frame]; exact hlegal) hbah
  have hrun := ((agentRuns_initLatched hl hh hc hb).trans hdescs).trans harm []
  rw [List.append_nil, show 1 + 3 * (s.cfg.ringSize - 1 + 1) + 5 = 3 * s.cfg.ringSize + 6 by omega] at hrun
  exact ⟨u, hbuilds, hrun⟩

/-- Settles O53: what a whole INIT leaves, by its descriptors, its register writes and its history. -/
theorem initBuildsTheRing : Obligations.InitBuildsTheRing := by
  intro s base buf rest hok hm hl hh hp hc hbuf hb
  obtain ⟨u, hbuilds, hrun⟩ := run_init hok hm hl hh hc hbuf hb
  have hframe := hbuilds.frame
  have hbase : u.ringBase = base := by rw [hframe]; rfl
  have hcfg : u.cfg = s.cfg := by rw [hframe]; rfl
  have hdev : u.dev = s.dev := by rw [hframe]; rfl
  have hok' : u.cfg.Ok := hcfg ▸ hok
  refine ⟨_, hrun, rfl, (congrArg State.pending hframe).trans hp, rfl, hbase, congrArg State.cmds hframe,
    (baseHigh_append_baseLow _).trans hbase, (ringLength_toNat hok').trans (by rw [hcfg, Nat.mul_comm]),
    (initTail_toNat hok').trans (by rw [hcfg]), (congrArg Device.rdh hdev :), ?_, fun i hi => ?_,
    hbuilds.others, initArmed_trace (s := s.initLatched base buf rest) hbuilds⟩
  · exact congrArg₂ (· ||| ·) (congrArg Device.mask hdev) (congrArg Config.irqEnableMask hcfg)
  · obtain ⟨b, hget, hfresh⟩ := hbuilds.fresh i.toNat (Nat.zero_le _) hi
    have haddr : (descAddress u.ringBase i).toNat = base.toNat + 16 * i.toNat := by
      rw [hbase, descAddress_toNat hb hi]
    obtain ⟨haddress, hzeros⟩ := Memory.HoldsFresh.fields (s := { u.initArmed with sched := [] })
      (haddr ▸ hfresh)
    exact ⟨(congrArg some haddress).trans hget.symm, hzeros⟩

end Sys2Proof.Machine
end

section
/-! Proofs/Exceptions.lean: the completion signal and the DEVICE (60_exceptions.md R237 to R241): what a move
of the DEVICE is, what it writes of memory, and what the four transactions of a reception leave. -/

namespace Sys2Proof.Machine

/-! ## The completion signal and RAISE (R237, R240, R241) -/

/-- Settles O32: a word is not zero where it has a bit, and a bit of cause and mask is a bit of both. -/
theorem signalIsPendingAndEnabled : Obligations.SignalIsPendingAndEnabled := by
  intro d
  rw [irq_iff]
  constructor
  · intro hne
    by_contra hnone
    refine hne (BitVec.eq_of_getLsbD_eq fun k hk => ?_)
    rw [BitVec.getLsbD_and, BitVec.getLsbD_zero, Bool.eq_false_iff, ne_eq, Bool.and_eq_true]
    exact fun hbits => hnone ⟨k, hk, hbits⟩
  · rintro ⟨k, -, hcause, hmask⟩ hzero
    have hbit := BitVec.getLsbD_and (x := d.cause) (y := d.mask) (i := k)
    rw [hzero, hcause, hmask, BitVec.getLsbD_zero] at hbit
    exact Bool.false_ne_true hbit

/-- Settles O56: RAISE of some bit is a move of the contract; a register word read as a new upper half above
its index has that half and that index. -/
theorem raiseSetsCauseBits : Obligations.RaiseSetsCauseBits :=
  ⟨fun _ _ hbits => if_pos (decide_eq_true hbits), fun _ _ _ => ⟨rfl, indexOfWord_append _ _,
    indexOfWord_append _ _, BitVec.extractLsb'_append_eq_left, BitVec.extractLsb'_append_eq_left⟩⟩

/-! ## What a move of the DEVICE is (R238 to R241) -/

section Moves
variable {s : State} {r : FillReq} {f : Fill} {i : Half}

/-- The DEVICE may fill the descriptor at the head while the hardware window is not empty. -/
theorem mayFill_iff : mayFill s i = true ↔
    i = s.dev.head ∧ s.dev.head ≠ s.dev.tail ∧ i.toNat < s.cfg.ringSize := by
  simp only [mayFill, Bool.and_eq_true, beq_iff_eq, bne_iff_ne, inRange_iff, and_assoc]

theorem fillStarts_iff : fillStarts r s = true ↔ s.dev.fill = none ∧ mayFill s r.index = true ∧
    outsideRingBytes s.cfg s.dev.ringBase (bufferAddress s r.index) r.data.length = true := by
  simp only [fillStarts, Bool.and_eq_true, Option.isNone_iff_eq_none, and_assoc]

theorem outsideRingBytes_iff {cfg : Config} {base addr : DWord} {k : Nat} :
    outsideRingBytes cfg base addr k = true ↔ addr.toNat + k ≤ 2 ^ 64 ∧
      (addr.toNat + k ≤ base.toNat ∨ base.toNat + 16 * cfg.ringSize ≤ addr.toNat) := by
  rw [outsideRingBytes, decide_eq_true_iff, Config.ringBytes, descSize, Nat.mul_comm]

/-- The transaction a reception in progress is at: 2, 3 or 4 of R238. -/
def fillTransaction (f : Fill) (s : State) : State :=
  match f.phase with
  | .lengthWord => fillLength f s
  | .statusByte => fillStatus f s
  | .headAdvance => fillHead f s

theorem deviceMove_fill (hok : r.ok s.cfg = true) (h : fillStarts r s = true) :
    deviceMove (.fill r) s = fillData r s :=
  (if_pos hok).trans (if_pos h)

theorem deviceMove_fillNext (hf : s.dev.fill = some f) (h : mayFill s f.req.index = true) :
    deviceMove .fillNext s = fillTransaction f s := by
  obtain ⟨q, p⟩ := f
  simp only [deviceMove, DevMove.ok, if_true, hf, h]
  cases p <;> rfl

/-- A move of the DEVICE is none, a transaction of a reception at the head, a RAISE, or a change of the upper
halves. -/
theorem deviceMove_eq (m : DevMove) (s : State) :
    deviceMove m s = s ∨
    (∃ r, fillStarts r s = true ∧ r.ok s.cfg = true ∧ deviceMove m s = fillData r s) ∨
    (∃ f, s.dev.fill = some f ∧ mayFill s f.req.index = true ∧ deviceMove m s = fillTransaction f s) ∨
    (∃ bits, deviceMove m s = raiseCause bits s) ∨
    ∃ a b, deviceMove m s = setUpper a b s := by
  by_cases hok : m.ok s.cfg = true
  · cases m with
    | fill r =>
      by_cases h : fillStarts r s = true
      · exact .inr (.inl ⟨r, h, hok, deviceMove_fill hok h⟩)
      · exact .inl ((if_pos hok).trans (if_neg h))
    | fillNext =>
      cases hf : s.dev.fill with
      | none => left; simp only [deviceMove, hf, ite_self]
      | some f =>
        by_cases h : mayFill s f.req.index = true
        · exact .inr (.inr (.inl ⟨f, rfl, h, deviceMove_fillNext hf h⟩))
        · left; simp only [deviceMove, hf, if_neg h, ite_self]
    | raise bits => exact .inr (.inr (.inr (.inl ⟨bits, if_pos hok⟩)))
    | upper a b => exact .inr (.inr (.inr (.inr ⟨a, b, if_pos hok⟩)))
  · exact .inl (if_neg hok)

end Moves

/-! ## Head (R238, R240) -/

section Head
variable {s t : State}

/-- The DEVICE's side of the contract reads the ring's size, head and the reception alone. -/
theorem DeviceOk.congr (hD : DeviceOk s) (hcfg : t.cfg = s.cfg) (hhead : t.dev.head = s.dev.head)
    (hfill : t.dev.fill = s.dev.fill) : DeviceOk t :=
  ⟨by rw [hcfg, hhead]; exact hD.headInRange, by rw [hcfg, hhead, hfill]; exact hD.fillAtHead⟩

/-- A step that is not the DEVICE's leaves head and the reception alone (20_memory.md R70). -/
theorem step_device_or_keepsHead (e : step s = .next t) :
    (∃ m rest, t = deviceMove m { s with sched := rest }) ∨
      t.cfg = s.cfg ∧ t.dev.head = s.dev.head ∧ t.dev.fill = s.dev.fill := by
  obtain ⟨rest, rfl | ⟨a, i, -, -, he⟩ | ⟨-, h⟩ | ⟨_, -, h⟩ | ⟨c, -, rfl⟩ | ⟨m, -, rfl⟩⟩ := step_cases e
  · exact .inr ⟨rfl, rfl, rfl⟩
  · have hw := exec_writesOnly he
    exact .inr ⟨hw.cfg, congrArg indexOfWord hw.rdh, hw.fill⟩
  · obtain ⟨_, rfl, -⟩ := acceptStep_frame h
    exact .inr ⟨rfl, rfl, rfl⟩
  · rw [h]; exact .inr ⟨rfl, rfl, rfl⟩
  · rw [Device.head, presentCommand_dev]
    exact .inr ⟨(presentCommand_keepsPass c _).cfg, rfl, rfl⟩
  · exact .inl ⟨m, rest, rfl⟩

/-- Transactions 2 and 3 of a reception at the head leave head where it is; transaction 4 moves it on by one
and ends the reception. -/
theorem fillTransaction_head {f : Fill} (hn : 0 < s.cfg.ringSize) (hn' : s.cfg.ringSize ≤ 65536)
    (hD : DeviceOk s) (hf : s.dev.fill = some f) (hmay : mayFill s f.req.index = true) :
    DeviceOk (fillTransaction f s) ∧
      ((fillTransaction f s).dev.head = s.dev.head ∨
        (fillTransaction f s).dev.head = nextIndex s.cfg.ringSize s.dev.head ∧ s.dev.head ≠ s.dev.tail) := by
  obtain ⟨q, p⟩ := f
  obtain ⟨hindex, hwindow, -⟩ := mayFill_iff.1 hmay
  have hq := hD.fillAtHead _ hf
  cases p with
  | lengthWord => exact ⟨⟨hD.headInRange, fun _ h => by cases h; exact hq⟩, .inl rfl⟩
  | statusByte => exact ⟨⟨hD.headInRange, fun _ h => by cases h; exact hq⟩, .inl rfl⟩
  | headAdvance =>
    have hhead : (fillTransaction ⟨q, .headAdvance⟩ s).dev.head = nextIndex s.cfg.ringSize s.dev.head :=
      (indexOfWord_wordOfIndex _).trans (by rw [← hindex])
    refine ⟨⟨?_, fun _ h => nomatch h⟩, .inr ⟨hhead, hwindow⟩⟩
    rw [hhead]
    exact inRange_iff.2 (nextIndex_lt hn hn' _)

theorem deviceMove_head (hn : 0 < s.cfg.ringSize) (hn' : s.cfg.ringSize ≤ 65536) (hD : DeviceOk s)
    (m : DevMove) : DeviceOk (deviceMove m s) ∧
      ((deviceMove m s).dev.head = s.dev.head ∨
        (deviceMove m s).dev.head = nextIndex s.cfg.ringSize s.dev.head ∧ s.dev.head ≠ s.dev.tail) := by
  obtain h | ⟨r, hstart, hok, h⟩ | ⟨f, hf, hmay, h⟩ | ⟨bits, h⟩ | ⟨a, b, h⟩ := deviceMove_eq m s <;> rw [h]
  · exact ⟨hD, .inl rfl⟩
  · obtain ⟨-, hmay, -⟩ := fillStarts_iff.1 hstart
    exact ⟨⟨hD.headInRange, fun _ hf => by cases hf; exact ⟨(mayFill_iff.1 hmay).1, hok⟩⟩, .inl rfl⟩
  · exact fillTransaction_head hn hn' hD hf hmay
  · exact ⟨hD.congr rfl rfl rfl, .inl rfl⟩
  · have hhead : (setUpper a b s).dev.head = s.dev.head := indexOfWord_append _ _
    exact ⟨hD.congr rfl hhead rfl, .inl hhead⟩

end Head

/-- Settles O47: of the DEVICE's moves the last of a reception alone moves head, and no other step does. -/
theorem headStaysInRangeAndMovesForward : Obligations.HeadStaysInRangeAndMovesForward := by
  intro s t hI hD e
  obtain ⟨hmin, hmax⟩ := hI.ringSize_bounds
  obtain ⟨m, rest, rfl⟩ | ⟨hcfg, hhead, hfill⟩ := step_device_or_keepsHead e
  · exact deviceMove_head (s := { s with sched := rest }) (Nat.zero_lt_of_lt hmin) hmax
      (hD.congr rfl rfl rfl) m
  · exact ⟨hD.congr hcfg hhead hfill, .inl hhead⟩

/-! ## What a reception writes of memory (R238) -/

/-- Memory `m'` is `m` with the bytes `bs` stored from `a` up: `Memory.Stores` for bytes that need not be those
of one word (20_memory.md R62). -/
structure Memory.Puts (m m' : Memory) (a : Nat) (bs : List Byte) : Prop where
  wf : m'.wf = true
  bytes : ∀ k (hk : k < bs.length), m'.read (a + k) = bs[k]
  others : ∀ x, x < a ∨ a + bs.length ≤ x → m'.read x = m.read x

/-- Bytes that do not run past the top of the address space are stored as given. -/
theorem Memory.writeBytes_puts {m : Memory} (hm : m.wf = true) {addr : DWord} {bs : List Byte}
    (h : addr.toNat + bs.length ≤ 2 ^ 64) : m.Puts (m.writeBytes addr bs) addr.toNat bs := by
  refine ⟨Memory.writeBytes_wf _ _ _ hm, fun k hk => Memory.read_writeBytes_at _ _ _ _ hk hm h,
    fun x hx => Memory.read_writeBytes_other _ _ _ _ hm fun k hk => ?_⟩
  rw [BitVec.toNat_add, BitVec.toNat_ofNat]
  omega

/-- The two bytes of a 16-bit field, the lower first (20_memory.md R60). -/
def halfBytes (h : Half) : List Byte := [h.extractLsb' 0 8, h.extractLsb' 8 8]

theorem bytesLE_half (h : Half) : bytesLE (h.setWidth 64) 2 = halfBytes h := by
  have low (k : Nat) (hk : k + 8 ≤ 64) : (h.setWidth 64).extractLsb' k 8 = h.extractLsb' k 8 :=
    BitVec.extractLsb'_setWidth_of_le hk
  rw [halfBytes, bytesLE_eq_map, ← low 0 (by decide), ← low 8 (by decide)]
  rfl

/-- What transaction 2 stores from byte 8 of the descriptor up. -/
def FillReq.lowerBytes (r : FillReq) : List Byte := halfBytes r.length ++ halfBytes r.checksum

/-- What transaction 2 stores from byte 13 of the descriptor up, the status byte left out. -/
def FillReq.upperBytes (r : FillReq) : List Byte := r.errors :: halfBytes r.special

@[simp] theorem FillReq.lowerBytes_length (r : FillReq) : r.lowerBytes.length = 4 := rfl

@[simp] theorem FillReq.upperBytes_length (r : FillReq) : r.upperBytes.length = 3 := rfl

section Written
variable {s : State} {r : FillReq} {f : Fill} {i : Half}

/-- The DEVICE finds the ring where RXW has it (R239, 10_state.md R44). -/
theorem Invariant.dev_ringBase (hI : Invariant s) (ha : s.attached) : s.dev.ringBase = s.ringBase := by
  rw [Device.ringBase, hI.baseHighHeld (.inl ha), hI.baseLowHeld (.inl ha), baseHigh_append_baseLow]

theorem Invariant.bufferAddress_eq (hI : Invariant s) (ha : s.attached) (hi : i.toNat < s.cfg.ringSize) :
    bufferAddress s i = descAddrField s i := by
  rw [bufferAddress, Device.descriptor, hI.dev_ringBase ha,
    readLE_descAddrField (hI.baseGood (.inl ha)) hi]

/-- The DEVICE's writes to a field of a descriptor go where RXW has the field, and stay in it. -/
theorem Invariant.writeBytes_descriptor_puts (hI : Invariant s) (ha : s.attached)
    (hi : i.toNat < s.cfg.ringSize) {m : Memory} (hm : m.wf = true) (off : DWord) {bs : List Byte}
    (ho : off.toNat < 16) (h : off.toNat + bs.length ≤ 16) :
    m.Puts (m.writeBytes (s.dev.descriptor i + off) bs) ((descAddress s.ringBase i).toNat + off.toNat)
      bs := by
  have hb := hI.baseGood (.inl ha)
  obtain ⟨-, hend⟩ := goodBase_iff.1 hb
  have haddr := fieldAddress_toNat off hb hi ho
  rw [descAddress_toNat hb hi, ← haddr, Device.descriptor, hI.dev_ringBase ha]
  exact Memory.writeBytes_puts hm (by omega)

theorem fillData_puts (hI : Invariant s) (h : fillStarts r s = true) :
    s.mem.Puts (fillData r s).mem (bufferAddress s r.index).toNat r.data := by
  obtain ⟨-, -, houtside⟩ := fillStarts_iff.1 h
  exact Memory.writeBytes_puts hI.memWf (outsideRingBytes_iff.1 houtside).1

variable (hI : Invariant s) (ha : s.attached)
include hI ha

theorem fillLength_puts (hi : f.req.index.toNat < s.cfg.ringSize) :
    ∃ m, s.mem.Puts m ((descAddress s.ringBase f.req.index).toNat + 8) f.req.lowerBytes ∧
      m.Puts (fillLength f s).mem ((descAddress s.ringBase f.req.index).toNat + 13) f.req.upperBytes := by
  have hlower := hI.writeBytes_descriptor_puts ha hi hI.memWf lowerOff (bs := f.req.lowerBytes)
    (by decide) (by simp)
  have hupper := hI.writeBytes_descriptor_puts ha hi hlower.wf 13#64 (bs := f.req.upperBytes)
    (by decide) (by simp)
  refine ⟨_, hlower, ?_⟩
  simp only [fillLength, State.emit_mem, bytesLE_half]
  exact hupper

theorem fillStatus_puts (hi : f.req.index.toNat < s.cfg.ringSize) :
    s.mem.Puts (fillStatus f s).mem ((descAddress s.ringBase f.req.index).toNat + 12) [f.req.status] :=
  hI.writeBytes_descriptor_puts ha hi hI.memWf upperOff (by decide) (by simp)

/-! ## The window the DEVICE keeps to (R239) -/

/-- Transactions 2 to 4 write, of memory, nothing but the upper eight bytes of the descriptor. -/
theorem fillTransaction_read (hi : f.req.index.toNat < s.cfg.ringSize) {x : Nat}
    (hx : x < (descAddress s.ringBase f.req.index).toNat + 8 ∨
      (descAddress s.ringBase f.req.index).toNat + 16 ≤ x) :
    (fillTransaction f s).mem.read x = s.mem.read x := by
  unfold fillTransaction
  split
  · obtain ⟨m, hlower, hupper⟩ := fillLength_puts hI ha hi
    exact (hupper.others x (by rw [FillReq.upperBytes_length]; omega)).trans
      (hlower.others x (by rw [FillReq.lowerBytes_length]; omega))
  · exact (fillStatus_puts hI ha hi).others x (by rw [List.length_singleton]; omega)
  · rfl

/-- A reception in progress leaves a descriptor that is not the head's, and the head's address field. -/
theorem fillTransaction_descByte (hmay : mayFill s f.req.index = true) (hi : i.toNat < s.cfg.ringSize)
    {k : Nat} (hk : k < 16) (h : i ≠ s.dev.head ∨ k < 8) :
    (fillTransaction f s).mem.read ((descAddress s.ringBase i).toNat + k) = descByte s i k := by
  obtain ⟨hindex, -, hlt⟩ := mayFill_iff.1 hmay
  have hb := hI.baseGood (.inl ha)
  have hne : i.toNat ≠ f.req.index.toNat ∨ k < 8 :=
    h.imp_left fun hne heq => hne ((BitVec.eq_of_toNat_eq heq).trans hindex)
  refine fillTransaction_read hI ha hlt ?_
  rw [descAddress_toNat hb hi, descAddress_toNat hb hlt]
  omega

/-- The received bytes are stored outside the ring. -/
theorem fillData_descByte (hstart : fillStarts r s = true) (hi : i.toNat < s.cfg.ringSize) {k : Nat}
    (hk : k < 16) :
    (fillData r s).mem.read ((descAddress s.ringBase i).toNat + k) = descByte s i k := by
  obtain ⟨-, -, houtside⟩ := fillStarts_iff.1 hstart
  rw [hI.dev_ringBase ha, outsideRingBytes_iff] at houtside
  refine (fillData_puts hI hstart).others _ ?_
  rw [descAddress_toNat (hI.baseGood (.inl ha)) hi]
  omega

/-- While the hardware window is not empty the head's descriptor is not in the software window
(10_state.md R46). -/
theorem ne_head_of_inSoftwareWindow (hi : i.toNat < s.cfg.ringSize) (hwindow : s.dev.head ≠ s.dev.tail)
    (h : inSoftwareWindow s.cfg.ringSize s.dev.head s.dev.tail i = true) : i ≠ s.dev.head := by
  rintro rfl
  have htail := inRange_iff.1 (hI.tailInRange (.inl ha))
  have hhardware := (head_inHardwareWindow_iff hi htail).2 hwindow
  rw [inHardwareWindow_eq_not hi htail hi, h] at hhardware
  exact Bool.false_ne_true hhardware

theorem deviceMove_descByte (m : DevMove) (hi : i.toNat < s.cfg.ringSize) {k : Nat} (hk : k < 16)
    (h : i ≠ s.dev.head ∨ inSoftwareWindow s.cfg.ringSize s.dev.head s.dev.tail i = true ∨ k < 8) :
    (deviceMove m s).mem.read ((descAddress s.ringBase i).toNat + k) = descByte s i k := by
  obtain e | ⟨r, hstart, -, e⟩ | ⟨f, -, hmay, e⟩ | ⟨bits, e⟩ | ⟨a, b, e⟩ := deviceMove_eq m s <;> rw [e]
  · rfl
  · exact fillData_descByte hI ha hstart hi hk
  · obtain ⟨-, hwindow, -⟩ := mayFill_iff.1 hmay
    refine fillTransaction_descByte hI ha hmay hi hk ?_
    rcases h with h | h | h
    exacts [.inl h, .inl (ne_head_of_inSoftwareWindow hI ha hi hwindow h), .inr h]
  · rfl
  · rfl

end Written

/-- Settles O54: a move of the DEVICE is made of head, cause, its reception, memory and the history, and of
the ring it writes the upper half of the head's descriptor alone. -/
theorem deviceKeepsToItsWindow : Obligations.DeviceKeepsToItsWindow := by
  intro m s hI ha
  have hbytes := fun i hi k hk h => deviceMove_descByte (i := i) (k := k) hI ha m hi hk h
  obtain e | ⟨_, _, _, _, _, _, e, -, htail, -⟩ := deviceMove_cases m s <;> rw [e] at hbytes ⊢
  · exact ⟨rfl, rfl, rfl, rfl, rfl, rfl, hbytes⟩
  · exact ⟨rfl, htail, rfl, rfl, rfl, rfl, hbytes⟩

/-! ## A whole reception (R238) -/

/-- `s` in the course of a reception, of which `m`, `f` and `l` are what there is of memory, of the
transactions still to be made, and of the history. -/
def State.filling (s : State) (m : Memory) (f : Option Fill) (l : List Event) : State :=
  { s with mem := m, dev := { s.dev with fill := f }, trace := l }

/-- Memory after the four transactions of a reception that starts in `s`. -/
def State.filledMem (s : State) (r : FillReq) : Memory :=
  (((s.mem.writeBytes (bufferAddress s r.index) r.data).writeBytes
    (s.dev.descriptor r.index + lowerOff) r.lowerBytes).writeBytes
    (s.dev.descriptor r.index + 13#64) r.upperBytes).writeBytes
    (s.dev.descriptor r.index + upperOff) [r.status]

section Run
variable {s : State} {r : FillReq} {m : Memory} {l : List Event} {rest : List Move} {k : Nat}

theorem run_succ_of_device {d : DevMove} (h : s.sched = .device d :: rest) :
    run (k + 1) s = run k (deviceMove d { s with sched := rest }) := by
  rw [run, step_of_device h, andThen_next]

/-- A reception that the contract lets go on makes its next transaction. -/
theorem run_succ_of_filling {f : Fill} (hmay : mayFill s f.req.index = true) :
    run (k + 1) ({ s with sched := .device .fillNext :: rest }.filling m (some f) l) =
      run k (fillTransaction f ({ s with sched := rest }.filling m (some f) l)) := by
  rw [run_succ_of_device rfl]
  exact congrArg (run k)
    (deviceMove_fillNext (s := { s with sched := rest }.filling m (some f) l) rfl hmay)

theorem fillData_eq : ∃ l, fillData r s =
    s.filling (s.mem.writeBytes (bufferAddress s r.index) r.data) (some ⟨r, .lengthWord⟩) l :=
  ⟨_, rfl⟩

theorem fillTransaction_lengthWord :
    ∃ l', fillTransaction ⟨r, .lengthWord⟩ (s.filling m (some ⟨r, .lengthWord⟩) l) =
      s.filling ((m.writeBytes (s.dev.descriptor r.index + lowerOff) r.lowerBytes).writeBytes
        (s.dev.descriptor r.index + 13#64) r.upperBytes) (some ⟨r, .statusByte⟩) l' := by
  simp only [fillTransaction, fillLength, bytesLE_half]
  exact ⟨_, rfl⟩

theorem fillTransaction_statusByte :
    ∃ l', fillTransaction ⟨r, .statusByte⟩ (s.filling m (some ⟨r, .statusByte⟩) l) =
      s.filling (m.writeBytes (s.dev.descriptor r.index + upperOff) [r.status])
        (some ⟨r, .headAdvance⟩) l' :=
  ⟨_, rfl⟩

theorem fillTransaction_headAdvance :
    ∃ l', fillTransaction ⟨r, .headAdvance⟩ (s.filling m (some ⟨r, .headAdvance⟩) l) =
      { s with
        mem := m, trace := l',
        dev := { s.dev with
          rdh := wordOfIndex (nextIndex s.cfg.ringSize r.index), fill := none } } :=
  ⟨_, rfl⟩

/-- The four transactions one after another, each a move of the contract. -/
theorem run_fill (hok : r.ok s.cfg = true) (hstart : fillStarts r s = true) :
    ∃ l, run 4 { s with
        sched := [.device (.fill r), .device .fillNext, .device .fillNext, .device .fillNext] } =
      .next { s with
        sched := [], mem := s.filledMem r, trace := l,
        dev := { s.dev with rdh := wordOfIndex (nextIndex s.cfg.ringSize r.index) } } := by
  obtain ⟨hnone, hmay, -⟩ := fillStarts_iff.1 hstart
  rw [run_succ_of_device rfl]
  have hdata (moves) : deviceMove (.fill r) { s with sched := moves } =
      fillData r { s with sched := moves } := deviceMove_fill hok hstart
  obtain ⟨l₁, h₁⟩ := fillData_eq (r := r) (s := { s with sched := _ })
  obtain ⟨l₂, h₂⟩ := fillTransaction_lengthWord (r := r) (s := { s with sched := _ }) (l := l₁)
  obtain ⟨l₃, h₃⟩ := fillTransaction_statusByte (r := r) (s := { s with sched := _ }) (l := l₂)
  obtain ⟨l₄, h₄⟩ := fillTransaction_headAdvance (r := r) (s := { s with sched := [] }) (l := l₃)
  refine ⟨l₄, ?_⟩
  rw [hdata, h₁, run_succ_of_filling hmay, h₂, run_succ_of_filling hmay, h₃, run_succ_of_filling hmay, h₄,
    ← hnone]
  rfl

end Run

/-- Going from memory `m` to `m'`, a reception's bytes came to stand at `a`, and its fields in the descriptor
at `d`. -/
structure Memory.Received (m m' : Memory) (a d : Nat) (r : FillReq) : Prop where
  data : ∀ k (hk : k < r.data.length), m'.read (a + k) = r.data[k]
  lower : ∀ k (hk : k < r.lowerBytes.length), m'.read (d + (8 + k)) = r.lowerBytes[k]
  status : m'.read (d + 12) = r.status
  upper : ∀ k (hk : k < r.upperBytes.length), m'.read (d + (13 + k)) = r.upperBytes[k]
  others : ∀ x, x < a ∨ a + r.data.length ≤ x → x < d + 8 ∨ d + 16 ≤ x → m'.read x = m.read x

/-- The received bytes and the three writes of a descriptor, stored one behind the other, leave each other
alone. -/
theorem Memory.Received.of_puts {m m₁ m₂ m₃ m₄ : Memory} {a d : Nat} {r : FillReq}
    (hdata : m.Puts m₁ a r.data) (hlower : m₁.Puts m₂ (d + 8) r.lowerBytes)
    (hupper : m₂.Puts m₃ (d + 13) r.upperBytes) (hstatus : m₃.Puts m₄ (d + 12) [r.status])
    (hapart : a + r.data.length ≤ d ∨ d + 16 ≤ a) : m.Received m₄ a d r := by
  have hl := hlower.others
  have hu := hupper.others
  have hs := hstatus.others
  rw [FillReq.lowerBytes_length] at hl
  rw [FillReq.upperBytes_length] at hu
  rw [List.length_singleton] at hs
  refine ⟨fun k hk => ?_, fun k hk => ?_, hstatus.bytes 0 Nat.one_pos, fun k hk => ?_, fun x hx hx' => ?_⟩
  · rw [hs _ (by omega), hu _ (by omega), hl _ (by omega), hdata.bytes k hk]
  · have hk4 : k < 4 := hk
    rw [hs _ (by omega), hu _ (by omega), ← Nat.add_assoc, hlower.bytes k hk]
  · rw [hs _ (by omega), ← Nat.add_assoc, hupper.bytes k hk]
  · rw [hs x (by omega), hu x (by omega), hl x (by omega), hdata.others x hx]

section Fields
variable {s t : State} {r : FillReq} {i : Half} {a : Nat}

theorem halfBytes_append (h : Half) : h.extractLsb' 8 8 ++ h.extractLsb' 0 8 = h :=
  BitVec.extractLsb'_append_extractLsb'

/-- What the words of a filled descriptor read as (30_encoding.md R94, R95). -/
theorem Memory.Received.words {m : Memory}
    (h : m.Received t.mem a (descAddress t.ringBase i).toNat r) :
    descWord t i 8 = r.checksum ++ r.length ∧ descWord t i 12 = r.special ++ r.errors ++ r.status := by
  have h8 : descByte t i 8 = r.length.extractLsb' 0 8 := h.lower 0 (by simp)
  have h9 : descByte t i (8 + 1) = r.length.extractLsb' 8 8 := h.lower 1 (by simp)
  have h10 : descByte t i (8 + 2) = r.checksum.extractLsb' 0 8 := h.lower 2 (by simp)
  have h11 : descByte t i (8 + 3) = r.checksum.extractLsb' 8 8 := h.lower 3 (by simp)
  have h12 : descByte t i 12 = r.status := h.status
  have h13 : descByte t i (12 + 1) = r.errors := h.upper 0 (by simp)
  have h14 : descByte t i (12 + 2) = r.special.extractLsb' 0 8 := h.upper 1 (by simp)
  have h15 : descByte t i (12 + 3) = r.special.extractLsb' 8 8 := h.upper 2 (by simp)
  constructor
  · rw [descWord, h8, h9, h10, h11, BitVec.append_assoc (x₃ := r.length.extractLsb' 0 8),
      halfBytes_append, halfBytes_append]
    rfl
  · rw [descWord, h12, h13, h14, h15, halfBytes_append]

/-- The address field is made of the lower eight bytes (30_encoding.md R93). -/
theorem descAddrField_congr_low (h : ∀ k < 8, descByte t i k = descByte s i k) :
    descAddrField t i = descAddrField s i := by
  simp only [descAddrField, descWord]
  rw [h 0, h 1, h 2, h 3, h 4, h 5, h 6, h 7] <;> decide

end Fields

section Reception
variable {s : State} {r : FillReq} (hI : Invariant s) (ha : s.attached)
include hI ha

/-- What the four transactions leave of memory. -/
theorem filledMem_received (hstart : fillStarts r s = true) :
    s.mem.Received (s.filledMem r) (bufferAddress s r.index).toNat
      (descAddress s.ringBase r.index).toNat r := by
  obtain ⟨-, hmay, houtside⟩ := fillStarts_iff.1 hstart
  obtain ⟨-, -, hi⟩ := mayFill_iff.1 hmay
  have hdata := fillData_puts hI hstart
  have hlower := hI.writeBytes_descriptor_puts ha hi hdata.wf lowerOff (bs := r.lowerBytes)
    (by decide) (by simp)
  have hupper := hI.writeBytes_descriptor_puts ha hi hlower.wf 13#64 (bs := r.upperBytes)
    (by decide) (by simp)
  have hstatus := hI.writeBytes_descriptor_puts ha hi hupper.wf upperOff (bs := [r.status])
    (by decide) (by simp)
  refine .of_puts hdata hlower hupper hstatus ?_
  rw [hI.dev_ringBase ha, outsideRingBytes_iff] at houtside
  rw [descAddress_toNat (hI.baseGood (.inl ha)) hi]
  omega

/-- The received bytes lie outside the ring, so that the address field stays. -/
theorem filledMem_addressField (hstart : fillStarts r s = true) {k : Nat} (hk : k < 8) :
    (s.filledMem r).read ((descAddress s.ringBase r.index).toNat + k) = descByte s r.index k := by
  obtain ⟨-, hmay, houtside⟩ := fillStarts_iff.1 hstart
  obtain ⟨-, -, hi⟩ := mayFill_iff.1 hmay
  rw [hI.dev_ringBase ha, outsideRingBytes_iff] at houtside
  refine (filledMem_received hI ha hstart).others _ ?_ (.inl (Nat.add_lt_add_left hk _))
  rw [descAddress_toNat (hI.baseGood (.inl ha)) hi]
  omega

end Reception

/-- Settles O55: the reception starts, so that its four transactions are moves of the contract, and their
writes leave each other alone. -/
theorem fillCompletesADescriptor : Obligations.FillCompletesADescriptor := by
  intro s r hI hD ha hnone hwindow hok hindex houtside
  obtain ⟨hmin, hmax⟩ := hI.ringSize_bounds
  have hi : s.dev.head.toNat < s.cfg.ringSize := inRange_iff.1 hD.headInRange
  have hbuf := hI.bufferAddress_eq ha hi
  have hstart : fillStarts r s = true := by
    refine fillStarts_iff.2 ⟨hnone, mayFill_iff.2 ⟨hindex, hwindow, hindex ▸ hi⟩, ?_⟩
    rwa [hindex, hbuf, hI.dev_ringBase ha]
  have hdone : r.status &&& s.cfg.doneMask = s.cfg.doneMask :=
    of_decide_eq_true (Bool.and_eq_true_iff.1 hok).2
  obtain ⟨l, hrun⟩ := run_fill hok hstart
  have hreceived := filledMem_received hI ha hstart
  have haddress := fun k hk => filledMem_addressField hI ha hstart (k := k) hk
  rw [hindex] at hrun hreceived haddress
  rw [hbuf] at hreceived
  refine ⟨_, hrun, rfl, ?_, hreceived.data, descAddrField_congr_low haddress, hreceived.words.1,
    hreceived.words.2, ?_, hreceived.others⟩
  · exact (wordOfIndex_toNat _).trans (nextIndex_toNat (by omega) hmax _)
  · exact isDone_iff.2 ((congrArg (· &&& _) hreceived.status).trans hdone)

end Sys2Proof.Machine
end

section
/-! Proofs/Reset.lean: what reset leaves (70_reset_and_hazards.md R271), from what holds of any machine at
rest. -/

namespace Sys2Proof.Machine

/-- Out of READY every command but INIT is refused, whatever its arguments (44_host_port_lifecycle.md R200,
60_exceptions.md R242). -/
theorem turnAway_of_not_ready {c : Command} {s : State} (hl : s.life ≠ lifeReady)
    (hc : ∀ base buf, c ≠ .init base buf) : turnAway c s = some (refuseCommand notReady s) := by
  cases c with
  | init base buf => exact absurd rfl (hc base buf)
  | portRead _ _ | portWrite _ _ | quiesce => exact if_pos hl

/-- Settles O1: reset is a machine at rest with no command waiting; of the commands, UNATTACHED lets only
INIT past R200's first test. -/
theorem resetLeavesEverythingIdle : Obligations.ResetLeavesEverythingIdle := by
  obtain ⟨hwalker, hife, hhost, -⟩ :=
    atRestNothingIsIssued State.reset resetMeetsTheInvariant.1 rfl (by decide)
  obtain ⟨hop, hacc⟩ := hhost rfl
  have hused : State.reset.life ≠ lifeUnused := by decide
  have hready : State.reset.life ≠ lifeReady := by decide
  refine ⟨by decide, fun a => ?_, hacc, fun c hc => ?_, fun base buf halign hend => ?_⟩
  · cases a with
    | walker => exact hwalker
    | ife => exact hife
    | hostcmd => exact hop
  · exact step_of_turnAway (s := { State.reset with cmds := [c], sched := [.agent .hostcmd] }) rfl rfl rfl
      hused (turnAway_of_not_ready hready hc)
  · exact ⟨_, execInitLatch_next.2
      ⟨rfl, rfl, base, buf, [], rfl, goodBase_iff.2 ⟨halign, hend⟩, rfl⟩, rfl, rfl⟩

end Sys2Proof.Machine
end
